-- ==== Sys2Proof/Word.lean ====
section
/-! DEFINITION. The words of the block (00_scope.md R9, 30_encoding.md R91): the output byte, the 32-bit word of the
response channel and the configuration record, and the 96-bit command record. -/

namespace Sys2Proof

/-- One byte of the output port, a tool level, a short operand. -/
abbrev Byte := BitVec 8

/-- One 32-bit word: `W0`, `W1`, `W2` and the response data. -/
abbrev Word := BitVec 32

/-- One command record `{W2, W1, W0}` (30_encoding.md R91). -/
abbrev Record := BitVec 96

end Sys2Proof
end

