-- ==== Sys2Proof/Syntax.lean ====
section
/-! DEFINITION. The fifteen commands of spec/opcode_table.json as one inductive, with the operands of their formats
(30_encoding.md R93 to R102), and the two pseudo-commands of R113. -/

namespace Sys2Proof

/-- The commands. Every operand is one contiguous slice of the record at its full width (R102), so every term can be
spelled. `step` carries the eight counts `COUNT[0..7]` and `DIRMASK` (R96). -/
inductive Instr where
  /-- INIT, opcode 0x1, format N. -/
  | init
  /-- SHUTDOWN, opcode 0x2, format N. -/
  | shutdown
  /-- STEP, opcode 0x3, format S. -/
  | step (count : Vector Byte 8) (dirMask : Byte)
  /-- SETLEVEL, opcode 0x4, format L. -/
  | setlevel (axis levelReq : Byte) (force : Bool)
  /-- GETLEVEL, opcode 0x5, format A. -/
  | getlevel (axis : Byte)
  /-- ISREF, opcode 0x6, format N. -/
  | isref
  /-- MOVEAWAY, opcode 0x7, format M; `dist` is read as signed two's complement (R100). -/
  | moveaway (axis : Byte) (dist maxRate : Word)
  /-- SETMODE, opcode 0x8, format AF, flag HALF. -/
  | setmode (axis : Byte) (half : Bool)
  /-- SUPINIT, opcode 0x9, format N. -/
  | supinit
  /-- POLL, opcode 0xA, format N. -/
  | poll
  /-- ISKILLED, opcode 0xB, format N. -/
  | iskilled
  /-- TOOLWR, opcode 0xC, format T. -/
  | toolwr (tool levelReq : Byte)
  /-- TOOLRD, opcode 0xD, format T with `LEVELREQ` reserved. -/
  | toolrd (tool : Byte)
  /-- GOREF, opcode 0xE, format AF, flag TOMIN. -/
  | goref (axis : Byte) (toMin : Bool)
  /-- EVENT, opcode 0xF, format E. -/
  | event (etype : Byte) (info : Word)
  deriving DecidableEq, Repr

/-- The pseudo-command `DISABLE <axis>` (R113). -/
def Instr.disable (axis : Byte) : Instr := .setlevel axis 0 true

/-- The pseudo-command `STEP1 <axis>, up|down` (R113), for an axis the record has a lane for. -/
def Instr.step1 (axis : Fin 8) (up : Bool) : Instr :=
  .step ((Vector.replicate 8 (0 : Byte)).set axis 1) (if up then 1#8 <<< axis.val else 0#8)

end Sys2Proof
end

