-- ==== Sys2Proof/Decode.lean ====
section
/-! DEFINITION. The decoder, total on every 96-bit record and rejecting by name (30_encoding.md R91 to R106), and the
encoder written from the same table of match values (R94). -/

namespace Sys2Proof

/-- `W0 = cmd[31:0]` (R91). -/
def Record.w0 (r : Record) : Word := r.extractLsb' 0 32

/-- `W1 = cmd[63:32]` (R91). -/
def Record.w1 (r : Record) : Word := r.extractLsb' 32 32

/-- `W2 = cmd[95:64]` (R91). -/
def Record.w2 (r : Record) : Word := r.extractLsb' 64 32

/-- The record `{W2, W1, W0}` (R91). -/
def Record.ofWords (w0 w1 w2 : Word) : Record := w2 ++ w1 ++ w0

/-- The opcode field `W0[31:28]` (R92). -/
def opcodeField (w0 : Word) : BitVec 4 := w0.extractLsb' 28 4

/-- The rows of the opcode map, by name. -/
inductive Opcode where
  | init | shutdown | step | setlevel | getlevel | isref | moveaway | setmode | supinit | poll | iskilled | toolwr
  | toolrd | goref | event
  deriving DecidableEq, Repr

/-- One row of R94: a record spells the command exactly when `W0 & mask == match`. -/
structure OpRow where
  op : Opcode
  pattern : Word
  mask : Word
  deriving DecidableEq, Repr

/-- The opcode map (R94). -/
def opcodeTable : List OpRow :=
  [⟨.init, 0x10000000#32, 0xFFFFFFFF#32⟩, ⟨.shutdown, 0x20000000#32, 0xFFFFFFFF#32⟩,
   ⟨.step, 0x30000000#32, 0xFFFFFF00#32⟩, ⟨.setlevel, 0x40000000#32, 0xFFFE0000#32⟩,
   ⟨.getlevel, 0x50000000#32, 0xFFFFFF00#32⟩, ⟨.isref, 0x60000000#32, 0xFFFFFFFF#32⟩,
   ⟨.moveaway, 0x70000000#32, 0xFFFFFF00#32⟩, ⟨.setmode, 0x80000000#32, 0xFFFFFE00#32⟩,
   ⟨.supinit, 0x90000000#32, 0xFFFFFFFF#32⟩, ⟨.poll, 0xA0000000#32, 0xFFFFFFFF#32⟩,
   ⟨.iskilled, 0xB0000000#32, 0xFFFFFFFF#32⟩, ⟨.toolwr, 0xC0000000#32, 0xFFFF0000#32⟩,
   ⟨.toolrd, 0xD0000000#32, 0xFFFFFF00#32⟩, ⟨.goref, 0xE0000000#32, 0xFFFFFE00#32⟩,
   ⟨.event, 0xF0000000#32, 0xFFFFFF00#32⟩]

/-- `W0` spells the row. -/
def OpRow.spells (row : OpRow) (w0 : Word) : Bool := w0 &&& row.mask == row.pattern

/-- `COUNT[0..7]`, four lanes of `W1` and four of `W2`, the least significant byte first (R96, 20_memory.md R69). -/
def countsOf (w1 w2 : Word) : Vector Byte 8 :=
  #v[w1.extractLsb' 0 8, w1.extractLsb' 8 8, w1.extractLsb' 16 8, w1.extractLsb' 24 8,
     w2.extractLsb' 0 8, w2.extractLsb' 8 8, w2.extractLsb' 16 8, w2.extractLsb' 24 8]

/-- The operands of a record that spells `op` (R95 to R102). -/
def operandsOf (r : Record) : Opcode → Instr
  | .init => .init
  | .shutdown => .shutdown
  | .step => .step (countsOf r.w1 r.w2) (r.w0.extractLsb' 0 8)
  | .setlevel => .setlevel (r.w0.extractLsb' 0 8) (r.w0.extractLsb' 8 8) (r.w0.getLsbD 16)
  | .getlevel => .getlevel (r.w0.extractLsb' 0 8)
  | .isref => .isref
  | .moveaway => .moveaway (r.w0.extractLsb' 0 8) r.w1 r.w2
  | .setmode => .setmode (r.w0.extractLsb' 0 8) (r.w0.getLsbD 8)
  | .supinit => .supinit
  | .poll => .poll
  | .iskilled => .iskilled
  | .toolwr => .toolwr (r.w0.extractLsb' 0 8) (r.w0.extractLsb' 8 8)
  | .toolrd => .toolrd (r.w0.extractLsb' 0 8)
  | .goref => .goref (r.w0.extractLsb' 0 8) (r.w0.getLsbD 8)
  | .event => .event (r.w0.extractLsb' 0 8) r.w1

/-- Why a record spells no command. -/
inductive DecodeReject where
  /-- `W0[31:28] == 0` (R106). -/
  | reservedOpcode
  /-- An opcode of R94 with a 1 in a reserved bit of `W0` (R105). -/
  | reservedBits (opcode : BitVec 4)
  deriving DecidableEq, Repr

/-- The decoder (R92 to R106): the row `W0` spells, then its operands. -/
def decodeRecord (r : Record) : Except DecodeReject Instr :=
  match opcodeTable.find? (·.spells r.w0) with
  | some row => .ok (operandsOf r row.op)
  | none => .error (if opcodeField r.w0 = 0 then .reservedOpcode else .reservedBits (opcodeField r.w0))

/-- The decoder on an instruction whose bits are `w` in the numbering of spec/opcode_table.json: the table's bits are
those of `W0` upwards, which is the record's own numbering, and every bit from `nbits` up is 0. -/
def decodeTableWord (nbits w : Nat) : Option Instr :=
  match decodeRecord (BitVec.ofNat 96 (w % 2 ^ nbits)) with
  | .ok i => some i
  | .error _ => none

/-- One bit at place `k` of `W0`. -/
def flagAt (k : Nat) (b : Bool) : Word := if b then 1#32 <<< k else 0#32

/-- One byte at place `k` of a word. -/
def byteAt (k : Nat) (b : Byte) : Word := b.setWidth 32 <<< k

/-- Four count lanes as one word, the first lane lowest (R96). -/
def lanes (c0 c1 c2 c3 : Byte) : Word := c3 ++ c2 ++ c1 ++ c0

/-- `W0` of a command: the match value of its row and its short operands; reserved bits are 0 (R112). -/
def encodeW0 : Instr → Word
  | .init => 0x10000000#32
  | .shutdown => 0x20000000#32
  | .step _ dirMask => 0x30000000#32 ||| byteAt 0 dirMask
  | .setlevel axis levelReq force => 0x40000000#32 ||| byteAt 0 axis ||| byteAt 8 levelReq ||| flagAt 16 force
  | .getlevel axis => 0x50000000#32 ||| byteAt 0 axis
  | .isref => 0x60000000#32
  | .moveaway axis _ _ => 0x70000000#32 ||| byteAt 0 axis
  | .setmode axis half => 0x80000000#32 ||| byteAt 0 axis ||| flagAt 8 half
  | .supinit => 0x90000000#32
  | .poll => 0xA0000000#32
  | .iskilled => 0xB0000000#32
  | .toolwr tool levelReq => 0xC0000000#32 ||| byteAt 0 tool ||| byteAt 8 levelReq
  | .toolrd tool => 0xD0000000#32 ||| byteAt 0 tool
  | .goref axis toMin => 0xE0000000#32 ||| byteAt 0 axis ||| flagAt 8 toMin
  | .event etype _ => 0xF0000000#32 ||| byteAt 0 etype

/-- `W1` of a command; 0 where the format does not use it (R112). -/
def encodeW1 : Instr → Word
  | .step count _ => lanes count[0] count[1] count[2] count[3]
  | .moveaway _ dist _ => dist
  | .event _ info => info
  | .init | .shutdown | .setlevel _ _ _ | .getlevel _ | .isref | .setmode _ _ | .supinit | .poll | .iskilled
  | .toolwr _ _ | .toolrd _ | .goref _ _ => 0

/-- `W2` of a command; 0 where the format does not use it (R112). -/
def encodeW2 : Instr → Word
  | .step count _ => lanes count[4] count[5] count[6] count[7]
  | .moveaway _ _ maxRate => maxRate
  | .init | .shutdown | .setlevel _ _ _ | .getlevel _ | .isref | .setmode _ _ | .supinit | .poll | .iskilled
  | .toolwr _ _ | .toolrd _ | .goref _ _ | .event _ _ => 0

/-- The record of a command. -/
def encode (i : Instr) : Record := Record.ofWords (encodeW0 i) (encodeW1 i) (encodeW2 i)

end Sys2Proof
end

