-- ==== Sys2Proof/Config.lean ====
section
/-! DEFINITION. The enumerations of 00_scope.md R12 and the parameters of R7: what an implementation fixes and no command
changes. A parameter set is plain data carried in the state, so every claim about every state is a claim for every
parameter set (log 1). The free values of the model stand here as constants without a body. -/

namespace Sys2Proof

/-- The enable (current) level, ordered `Off < Low < Mid < Max` (R12). -/
inductive Level where
  | off | low | mid | max
  deriving DecidableEq, Repr

/-- The step mode of an axis (R12): full-step (table of 4) or half-step (table of 8). -/
inductive StepMode where
  | full | half
  deriving DecidableEq, Repr

/-- The control mode (R12, 10_state.md R33). Its fourth code is never held (93 U12), so there is no constructor for it. -/
inductive CtlMode where
  | running | held | killed
  deriving DecidableEq, Repr

/-- The five tools the board recognises (R12). -/
inductive Tool where
  | spindleCW | spindleCCW | probe | coolant | controllerFan
  deriving DecidableEq, Repr

/-- The input pins (20_memory.md R65). -/
inductive InPin where
  | probe | hold | resume | holdResume | kill | ref | intKill
  deriving DecidableEq, Repr

/-- One bit for each input pin: the levels the environment drives, or the active levels `ACTIVE[p]`. -/
structure Pins where
  probe : Bool
  hold : Bool
  resume : Bool
  holdResume : Bool
  kill : Bool
  ref : Bool
  intKill : Bool
  deriving DecidableEq, Repr

/-- The bit of one pin. -/
def Pins.level : InPin → Pins → Bool
  | .probe, p => p.probe
  | .hold, p => p.hold
  | .resume, p => p.resume
  | .holdResume, p => p.holdResume
  | .kill, p => p.kill
  | .ref, p => p.ref
  | .intKill, p => p.intKill

/-- `KILL_TOOLS` (R7, D23): what the transition into Killed does to the tool levels. -/
inductive KillTools where
  | retain | forceOff
  deriving DecidableEq, Repr

/-- One lookup table: a row of `n` output codes for each level. In a reduced build the `mid` row does not exist
(R8 V4): the field is then never read (log 19). -/
structure Lut (n : Nat) where
  off : Vector Byte n
  low : Vector Byte n
  mid : Vector Byte n
  max : Vector Byte n
  deriving DecidableEq, Repr

/-- The row a level selects. -/
def Lut.row {n : Nat} (t : Lut n) : Level → Vector Byte n
  | .off => t.off
  | .low => t.low
  | .mid => t.mid
  | .max => t.max

/-- The parameters of one axis: `ADDR[a]`, `STEPMODE_INIT[a]` and the configuration record's `MAXTRAVEL[a]` (R7). -/
structure AxisParam where
  addr : Byte
  stepModeInit : StepMode
  maxTravel : Word
  deriving DecidableEq, Repr

/-- The parameters of the block (R7). `NAXIS` is the number of entries of `axis`. `auxLines` holds the static level of each
auxiliary line (R122); `tStrobe` is named by R300 and read by no rule. The rates have no stated type: natural numbers (log 13). -/
structure Config where
  axis : List AxisParam
  driverCap : Nat
  reduced : Bool
  lutFull : Lut 4
  lutHalf : Lut 8
  addrField : Byte
  active : Pins
  rateFast : Nat
  rateSlow : Nat
  killTools : KillTools
  initSpuriousLatch : Bool
  auxLines : List Bool
  tStrobe : Nat
  deriving DecidableEq, Repr

/-- `NAXIS`. -/
def Config.naxis (c : Config) : Nat := c.axis.length

/-- `T_MAX`, `T_MID`, `T_LOW` (R7), fixed by the source. -/
abbrev Config.tMax : Nat := 153
abbrev Config.tMid : Nat := 51
abbrev Config.tLow : Nat := 0

/-- `IDLE_DEFAULT` (R7), fixed by the source. -/
abbrev Config.idleDefault : Level := .low

/-- FREE VALUE (log 2, log 10): bytes the spec leaves open ("any byte"): the byte of a spurious latch (R121, U15) and
the contents of `PORT` after a hardware reset (R31, U2). It has no body, so nothing can be proved of a value of it. -/
opaque Config.freeByte : Nat → Byte

/-- TESTCFG, the synthetic parameter set of 95_test_vectors.md section 0. It is NOT the driver chip's table; `State.reset`
carries it only because a state needs some parameter set (log 1, DESIGN CHOICE). TESTCFG gives no `AUX_LINES` and no
`T_STROBE`, which R7 leaves open: that there are no auxiliary lines and that the width is 0 is the model's own fill-in
(log 23, DESIGN CHOICE). -/
def Config.testCfg : Config where
  axis := [⟨0x00#8, .full, 1200#32⟩, ⟨0x40#8, .full, 800#32⟩, ⟨0x80#8, .full, 400#32⟩]
  driverCap := 8
  reduced := false
  lutFull := {
    off := #v[0x00#8, 0x01#8, 0x02#8, 0x03#8]
    low := #v[0x08#8, 0x09#8, 0x0A#8, 0x0B#8]
    mid := #v[0x10#8, 0x11#8, 0x12#8, 0x13#8]
    max := #v[0x18#8, 0x19#8, 0x1A#8, 0x1B#8] }
  lutHalf := {
    off := #v[0x20#8, 0x21#8, 0x22#8, 0x23#8, 0x24#8, 0x25#8, 0x26#8, 0x27#8]
    low := #v[0x28#8, 0x29#8, 0x2A#8, 0x2B#8, 0x2C#8, 0x2D#8, 0x2E#8, 0x2F#8]
    mid := #v[0x30#8, 0x31#8, 0x32#8, 0x33#8, 0x34#8, 0x35#8, 0x36#8, 0x37#8]
    max := #v[0x38#8, 0x39#8, 0x3A#8, 0x3B#8, 0x3C#8, 0x3D#8, 0x3E#8, 0x3F#8] }
  addrField := 0xC0#8
  active := ⟨true, true, true, true, true, true, true⟩
  rateFast := 1000
  rateSlow := 100
  killTools := .retain
  initSpuriousLatch := false
  auxLines := []
  tStrobe := 0

end Sys2Proof
end

