-- ==== Sys2Proof/Machine/State.lean ====
section
/-! DEFINITION. The state of the block (10_state.md R20 to R44, 70_reset_and_hazards.md R280), the event trace
(00_scope.md R14), the outside world's inputs as plain data, and the state after reset. -/

namespace Sys2Proof.Machine

/-- The two command ports (30_encoding.md R90): mainline and interrupt path. -/
inductive CmdPort where
  | M | I
  deriving DecidableEq, Repr

/-- The status of a response (30_encoding.md R104). Codes 5 to 7 are never produced, so there is no constructor for them. -/
inductive Status where
  | ok | fallthrough | fail | illegal | notClaimed
  deriving DecidableEq, Repr

/-- The one fault of the block (60_exceptions.md R252). -/
inductive Fault where
  /-- Raised by STEP with a non-zero in-range count and by a forced in-range SETLEVEL while `CLAIMED` is 0 (R254). The block
  answers NOTCLAIMED and goes on, so no step stops with it: it is RECORDED in the state's `faults` (log 4). Safe: the
  response, the unchanged registers and the record are all stated by R252, R254 and R13. -/
  | notClaimed
  deriving DecidableEq, Repr

/-- Why no next state is given. -/
inductive Refusal where
  /-- `exec` has no meaning for the instruction yet. Safe: nothing can be proved of a next state. -/
  | notModelled (mnemonic : String)
  /-- Raised by `configure` on a parameter set that R8 calls invalid. Safe: R8 refuses it too. No step raises it. -/
  | invalidParameters
  deriving DecidableEq, Repr

/-- What a command does. -/
abbrev Outcome := Host.Outcome

/-- The tool output pins (10_state.md R39). -/
inductive ToolPin where
  | spindleOn | spindleCcw | coolantOn | fanLevel
  deriving DecidableEq, Repr

/-- The configuration fields a rule of the block reads (20_memory.md R66): one. -/
inductive CfgField where
  | maxTravel
  deriving DecidableEq, Repr

/-- A delegated request with its arguments (20_memory.md R68). -/
inductive EngReq where
  | cfgLoad
  | engInit
  | engPoll
  | moveRel3 (d0 d1 d2 : Nat) (rate : Word)
  | home (axis : Byte) (toMin : Bool) (rate : Nat)
  | toolWrGeneric (tool level : Byte)
  | toolRdGeneric (tool : Byte)
  | eventDefault (etype : Byte) (info : Word)
  deriving DecidableEq, Repr

/-- The requests that are answered (R68): a HOMEDONE report and the answer to the one blocking call. -/
inductive EngRspKind where
  | home | toolRdGeneric
  deriving DecidableEq, Repr

/-- The entries of the event trace (R14). `rsp` carries `rsp_deferred` (30_encoding.md R110) as its last argument. -/
inductive Event where
  | portWr (b : Byte)
  | strobe (v : Bool)
  | latch (b : Byte)
  | oe (claimed : Bool)
  | toolPin (name : ToolPin) (v : Byte)
  | engReq (r : EngReq)
  | engRsp (kind : EngRspKind) (ok : Bool) (data : Word)
  | cfgRd (field : CfgField) (a : Nat) (v : Word)
  | sample (p : InPin) (v : Bool)
  | rsp (port : CmdPort) (status : Status) (data : Word) (deferred : Bool)
  deriving DecidableEq, Repr

/-- The registers of one axis: `PHASE[a]`, `LEVEL[a]`, `STEPMODE[a]` (10_state.md R21 to R23). -/
structure AxisRegs where
  phase : BitVec 3
  level : Level
  stepMode : StepMode
  deriving DecidableEq, Repr

/-- The tool registers (10_state.md R38). -/
structure ToolRegs where
  spindle : Byte
  spdir : Bool
  coolant : Byte
  fan : Byte
  deriving DecidableEq, Repr

/-- Where a homing sequence stands (10_state.md R34). Code 3 is never held (93 U12). -/
inductive HomingPass where
  | idle | fast | slow
  deriving DecidableEq, Repr

/-- `HOMING` (10_state.md R34). `axis`, `toMin` and `port` are meaningless while `pass` is Idle. -/
structure Homing where
  pass : HomingPass
  axis : Byte
  toMin : Bool
  port : CmdPort
  deriving DecidableEq, Repr

/-- A blocking request in flight (20_memory.md R68): the command that waits and its port (log 8). -/
structure Call where
  port : CmdPort
  tool : Byte
  deriving DecidableEq, Repr

/-- An answer of the engine to a blocking request (R68): both parts are the collaborator's choice. -/
structure Answer where
  ok : Bool
  data : Word
  deriving DecidableEq, Repr

/-- What the outside world does between two segments (log 6): the pins take new levels, reset is asserted or released,
and commands, reports and answers arrive behind those already waiting. -/
structure Moment where
  pins : Pins
  rst : Bool
  portM : List Record
  portI : List Record
  reports : List Bool
  answers : List Answer
  deriving DecidableEq, Repr

/-- The inputs of the block as the outside presents them now, and the script of what comes next (log 6). Not state of the
block (10_state.md R40, R42): claims about every state are claims about every environment. -/
structure Ext where
  /-- The level of each input pin (20_memory.md R65). -/
  pins : Pins
  /-- The reset input is asserted (`rst_n` low, R43). -/
  rst : Bool
  /-- Commands offered on port M and not yet accepted, in order (R72). -/
  portM : List Record
  /-- Commands offered on port I and not yet accepted, in order (R72). -/
  portI : List Record
  /-- `HOMEDONE(ok)` reports not yet handled, in order (46_supervisor_homing.md R243). -/
  reports : List Bool
  /-- Answers the engine has for blocking requests, in order (R68). -/
  answers : List Answer
  /-- What changes before each later step; an empty script changes nothing more. -/
  script : List Moment
  deriving DecidableEq, Repr

/-- The state of the block. -/
structure State where
  /-- The parameters (R7, R42): constant. -/
  cfg : Config
  /-- `PHASE`, `LEVEL`, `STEPMODE`: one entry for each axis below `NAXIS` (R25). -/
  axes : List AxisRegs
  /-- `IDLE` (R29). -/
  idle : Level
  /-- `CLAIMED` (R30). -/
  claimed : Bool
  /-- `PORT`, the output-port register (R31). -/
  outPort : Byte
  /-- `STROBE` (R32). -/
  strobe : Bool
  /-- `CTLMODE` (R33). -/
  ctl : CtlMode
  /-- `DIAG_HOLD` (R36). -/
  diagHold : Bool
  /-- `DIAG_KILL` (R37). -/
  diagKill : Bool
  /-- `SPINDLE`, `SPDIR`, `COOLANT`, `FAN` (R38). -/
  tools : ToolRegs
  /-- `HOMING` (R34). -/
  homing : Homing
  /-- A TOOLRD that waits for the engine's answer (R68, R270). -/
  call : Option Call
  /-- The byte the driver chip holds for each axis, `none` while unknown (R41 (b), R286). -/
  chip : List (Option Byte)
  /-- The event trace, oldest first (R14). -/
  trace : List Event
  /-- The faults recorded so far, oldest first, never cleared (R13; log 4). -/
  faults : List Fault
  /-- MODEL'S OWN: the port whose command is running, where `Respond` goes (R110; log 15). -/
  curPort : CmdPort
  /-- MODEL'S OWN: which free byte comes next (log 10). -/
  freeIx : Nat
  /-- MODEL'S OWN: the outside world's inputs (log 6). -/
  ext : Ext
  deriving DecidableEq, Repr

/-- No input active and nothing offered. -/
def Ext.quiet : Ext where
  pins := ⟨false, false, false, false, false, false, false⟩
  rst := false
  portM := []
  portI := []
  reports := []
  answers := []
  script := []

/-- The state after reset (R43, R280) of a block with parameters `cfg`, whose `PORT` happens to hold `port` (R31: any
byte) and whose outside presents `ext`. -/
def State.resetOf (cfg : Config) (port : Byte) (ext : Ext) : State where
  cfg := cfg
  axes := cfg.axis.map fun p => ⟨0, .off, p.stepModeInit⟩
  idle := .low
  claimed := false
  outPort := port
  strobe := true
  ctl := .running
  diagHold := false
  diagKill := false
  tools := ⟨0, false, 0, 0⟩
  homing := ⟨.idle, 0, false, .M⟩
  call := none
  chip := cfg.axis.map fun _ => none
  trace := []
  faults := []
  curPort := .M
  freeIx := 0
  ext := ext

/-- The state right after reset. The parameters are TESTCFG (log 1) with `AUX_LINES` and `T_STROBE` filled in by the model
(log 23), `PORT` is 0 (log 2) and the outside is quiet (log 6): choices of the model that no claim rests on, since claims
about reset are made of `State.resetOf`. -/
def State.reset : State := State.resetOf Config.testCfg 0 Ext.quiet

end Sys2Proof.Machine
end

