-- ==== Sys2Proof/Machine/Operands.lean ====
section
/-! DEFINITION. Operand forms and pure computations: codes of the enumerated values (30_encoding.md R104), lanes of STEP
(R96), the phase arithmetic (41_sequencer_step.md R141, R145), the quantiser (42_sequencer_level.md R160), tool codes
(45_supervisor_tools.md R221) and the clamp of MOVEAWAY (43_sequencer_reference.md R180). -/

namespace Sys2Proof

/-- Level codes (R104). -/
def Level.code : Level → BitVec 2
  | .off => 0
  | .low => 1
  | .mid => 2
  | .max => 3

/-- StepMode codes (R104). -/
def StepMode.code : StepMode → BitVec 1
  | .full => 0
  | .half => 1

/-- CtlMode codes (R104). -/
def CtlMode.code : CtlMode → BitVec 2
  | .running => 0
  | .held => 1
  | .killed => 2

/-- The table size `T(m)` (00_scope.md R11). -/
def StepMode.tableSize : StepMode → Nat
  | .full => 4
  | .half => 8

/-- Tool codes (R104). -/
def Tool.code : Tool → Byte
  | .spindleCW => 0
  | .spindleCCW => 1
  | .probe => 2
  | .coolant => 3
  | .controllerFan => 4

/-- The tool a code names; codes 5 to 255 are not recognised by this board (R221). -/
def Tool.ofCode (c : Byte) : Option Tool :=
  match c.toNat with
  | 0 => some .spindleCW
  | 1 => some .spindleCCW
  | 2 => some .probe
  | 3 => some .coolant
  | 4 => some .controllerFan
  | _ => none

/-- `ETYPE` of the kill hook (R104). -/
abbrev etypeKill : Byte := 0

/-- `ETYPE` of the timer tick (R104). -/
abbrev etypeTick : Byte := 1

/-- `Quantize(v)` (R160): strict unsigned comparisons against 153, 51 and 0; Mid only when the build is not reduced. -/
def quantize (reduced : Bool) (v : Byte) : Level :=
  if v.toNat > Config.tMax then .max
  else if !reduced && decide (v.toNat > Config.tMid) then .mid
  else if v.toNat > Config.tLow then .low
  else .off

/-- The parameters of an axis; an axis at or above `NAXIS` has none and is never asked for. -/
def Config.axisParam (c : Config) (a : Nat) : AxisParam := c.axis.getD a ⟨0, .full, 0⟩

/-- `ADDR[a]` (10_state.md R24). -/
def Config.addr (c : Config) (a : Nat) : Byte := (c.axisParam a).addr

/-- `MAXTRAVEL[a]` (R7). -/
def Config.maxTravel (c : Config) (a : Nat) : Word := (c.axisParam a).maxTravel

/-- The table code for a mode, a level and a phase (R141): the index is the phase modulo the table size. -/
def Config.tableCode (c : Config) (m : StepMode) (l : Level) (phase : BitVec 3) : Byte :=
  match m with
  | .full => (c.lutFull.row l)[phase.toNat % 4]'(Nat.mod_lt _ (by decide))
  | .half => (c.lutHalf.row l)[phase.toNat % 8]'(Nat.mod_lt _ (by decide))

/-- The accumulator after a count (R145): up or down by the whole count, reduced modulo the table size. -/
def movePhase (m : StepMode) (up : Bool) (phase : BitVec 3) (count : Byte) : BitVec 3 :=
  let moved : Int := if up then (phase.toNat : Int) + count.toNat else (phase.toNat : Int) - count.toNat
  BitVec.ofNat 3 (moved % (m.tableSize : Int)).toNat

/-- `COUNT[a]` (R96); there are eight lanes. -/
def countLane (count : Vector Byte 8) (a : Nat) : Byte := if h : a < 8 then count[a] else 0

/-- Some lane below `NAXIS` has a non-zero count, so an emission would really be made (R145, 60_exceptions.md R258). -/
def anyCount (naxis : Nat) (count : Vector Byte 8) : Bool := (List.range naxis).any fun a => countLane count a != 0

/-- The distance of one fixed axis (R180): at most half the maximum travel, halved by floor division. -/
def clampTravel (dist maxTravel : Word) : Nat := min dist.toNat (maxTravel.toNat / 2)

/-- A negative distance is a refused form (R180, R256 form 3). -/
def negativeDist (dist : Word) : Bool := decide (dist.toInt < 0)

end Sys2Proof

namespace Sys2Proof.Machine

/-- Status codes (R104). -/
def Status.code : Status → BitVec 3
  | .ok => 0
  | .fallthrough => 1
  | .fail => 2
  | .illegal => 3
  | .notClaimed => 4

/-- The registers of an axis; an axis at or above `NAXIS` has none (R25) and its registers are never asked for. -/
def State.axisRegs (s : State) (a : Nat) : AxisRegs := s.axes.getD a ⟨0, .off, .full⟩

/-- `PHASE[a]`. -/
def State.phase (s : State) (a : Nat) : BitVec 3 := (s.axisRegs a).phase

/-- `LEVEL[a]`. -/
def State.level (s : State) (a : Nat) : Level := (s.axisRegs a).level

/-- `STEPMODE[a]`. -/
def State.stepMode (s : State) (a : Nat) : StepMode := (s.axisRegs a).stepMode

/-- `OutByte(a)` (R141): the table code plus the address bits, as an 8-bit addition. -/
def outByte (s : State) (a : Nat) : Byte :=
  s.cfg.tableCode (s.stepMode a) (s.level a) (s.phase a) + s.cfg.addr a

/-- The data of TOOLRD for a register tool (45_supervisor_tools.md R221, R228): the last level written; a spindle
identifier reads 0 when the spindle was last commanded in the other direction. A probe is not a register. -/
def toolRegData (t : ToolRegs) : Tool → Byte
  | .spindleCW => if t.spdir then 0 else t.spindle
  | .spindleCCW => if t.spdir then t.spindle else 0
  | .probe => 0
  | .coolant => t.coolant
  | .controllerFan => t.fan

/-- The tool registers after TOOLWR of a recognised tool (R222). A probe is an input: a write changes nothing. -/
def toolRegsWritten (t : ToolRegs) (level : Byte) : Tool → ToolRegs
  | .spindleCW => { t with spindle := level, spdir := false }
  | .spindleCCW => { t with spindle := level, spdir := true }
  | .probe => t
  | .coolant => { t with coolant := level }
  | .controllerFan => { t with fan := level }

/-- The tool registers that `KILL_TOOLS = force_off` leaves (44_supervisor_fsm.md R194): the levels 0, the direction kept. -/
def toolRegsOff (t : ToolRegs) : ToolRegs := { t with spindle := 0, coolant := 0, fan := 0 }

end Sys2Proof.Machine
end

