-- ==== Sys2Proof/WellFormed.lean ====
section
/-! DEFINITION. What must hold of a parameter set (00_scope.md R8, V1 to V6) and of a command's operands before the block
gives it a meaning of its own (60_exceptions.md R256, the forms that depend on the record and the parameters alone). -/

namespace Sys2Proof

/-- V1: the address patterns are pairwise different. -/
def Config.addrDistinct (c : Config) : Bool := decide ((c.axis.map (·.addr)).Nodup)

/-- V2: every address pattern lies inside `ADDR_FIELD`. -/
def Config.addrInField (c : Config) : Bool := c.axis.all fun p => p.addr &&& ~~~c.addrField == 0

/-- The levels a build has: Mid is left out of a reduced build (R8 V4, R12). -/
def Config.levels (c : Config) : List Level := if c.reduced then [.off, .low, .max] else [.off, .low, .mid, .max]

/-- V3: no table code of a row that exists touches `ADDR_FIELD`. -/
def Config.codesOutsideField (c : Config) : Bool :=
  c.levels.all fun l =>
    (c.lutFull.row l).toList.all (fun b => b &&& c.addrField == 0) &&
      (c.lutHalf.row l).toList.all (fun b => b &&& c.addrField == 0)

/-- V5: `1 <= NAXIS <= DRIVER_CAP <= 8`. -/
def Config.axisCountOk (c : Config) : Bool :=
  decide (1 ≤ c.naxis) && decide (c.naxis ≤ c.driverCap) && decide (c.driverCap ≤ 8)

/-- V6: `RATE_SLOW < RATE_FAST`. -/
def Config.ratesOk (c : Config) : Bool := decide (c.rateSlow < c.rateFast)

/-- A valid parameter set (R8). V4 says that nothing reads the Mid rows of a reduced build; it constrains the block,
not the data, and is a claim about the block. -/
def Config.valid (c : Config) : Bool :=
  c.addrDistinct && c.addrInField && c.codesOutsideField && c.axisCountOk && c.ratesOk

/-- The operand forms that R256 refuses whatever the state: MOVEAWAY with a negative distance (form 3) and GOREF out of
range (form 4). Every other term of `Instr` is a form with a meaning of its own. -/
def Instr.wellFormed (c : Config) : Instr → Bool
  | .moveaway _ dist _ => decide (0 ≤ dist.toInt)
  | .goref axis _ => decide (axis.toNat < c.naxis)
  | .init | .shutdown | .step _ _ | .setlevel _ _ _ | .getlevel _ | .isref | .setmode _ _ | .supinit | .poll
  | .iskilled | .toolwr _ _ | .toolrd _ | .event _ _ => true

end Sys2Proof
end

