-- ==== Sys2Proof/Machine/Ops.lean ====
section
/-! DEFINITION. The named operations every command is written over: the trace and the response (00_scope.md R10, R14,
30_encoding.md R110), the output space (20_memory.md R62 to R64), the input space (R65), the configuration space (R66),
delegation (R68), the emission (41_sequencer_step.md R142), the fault and the refused form (60_exceptions.md R252 to R258),
hardware reset (10_state.md R43) and configuration (00_scope.md R8). -/

namespace Sys2Proof.Machine

/-- `Log(event)` for each of a list, in order (R10). -/
def State.log (s : State) (es : List Event) : State := { s with trace := s.trace ++ es }

/-- `Respond(status, data)` on the port of the running command (R110). -/
def respond (st : Status) (data : Word) (s : State) : State := s.log [.rsp s.curPort st data false]

/-- The deferred response of a homing sequence (R110, R243). -/
def respondDeferred (port : CmdPort) (st : Status) (s : State) : State := s.log [.rsp port st 0 true]

/-- `EngPost(kind, args)` (R68): the request is logged and the block goes on. -/
def engPost (r : EngReq) (s : State) : State := s.log [.engReq r]

/-- The level of an input pin now. -/
def pinLevel (p : InPin) (s : State) : Bool := s.ext.pins.level p

/-- `Active(p)` (R65) of the level the pin has now. -/
def pinActive (p : InPin) (s : State) : Bool := pinLevel p s == s.cfg.active.level p

/-- The effect of `PinRead(p)` (R65): the sample is logged and nothing else changes. -/
def sample (p : InPin) (s : State) : State := s.log [.sample p (pinLevel p s)]

/-- The effect of `CfgRead(maxTravel, a)` (R66): the read is logged and nothing else changes. -/
def cfgReadMaxTravel (a : Nat) (s : State) : State := s.log [.cfgRd .maxTravel a (s.cfg.maxTravel a)]

/-- Writing the registers of an axis. -/
def State.setAxis (s : State) (a : Nat) (r : AxisRegs) : State := { s with axes := s.axes.set a r }

/-- `PHASE[a] <- v`. -/
def State.setPhase (s : State) (a : Nat) (v : BitVec 3) : State := s.setAxis a { s.axisRegs a with phase := v }

/-- `LEVEL[a] <- v`. -/
def State.setLevel (s : State) (a : Nat) (v : Level) : State := s.setAxis a { s.axisRegs a with level := v }

/-- `STEPMODE[a] <- v`. -/
def State.setStepMode (s : State) (a : Nat) (v : StepMode) : State := s.setAxis a { s.axisRegs a with stepMode := v }

/-- `MemWrite(OUT.PORT, 1, b)` (R62). -/
def memWritePort (b : Byte) (s : State) : State := { s.log [.portWr b] with outPort := b }

/-- The driver chip takes byte `b` for every axis whose address pattern stands in its address field (R41 (b), R286). -/
def chipAfter (cfg : Config) (b : Byte) (chip : List (Option Byte)) : List (Option Byte) :=
  chip.mapIdx fun a old => if b &&& cfg.addrField = cfg.addr a then some b else old

/-- The driver chip latches a byte (R64). -/
def latch (b : Byte) (s : State) : State := { s.log [.latch b] with chip := chipAfter s.cfg b s.chip }

/-- `PinWrite(OUT.STROBE, v)` (R63); a write of 1 over 0 completes a strobe pulse and the chip latches `PORT` (R64). -/
def pinWriteStrobe (v : Bool) (s : State) : State :=
  let written := { s.log [.strobe v] with strobe := v }
  if v && !s.strobe then latch s.outPort written else written

/-- `EMIT(a)` (R142), for a block whose lines are claimed: the callers make the NotClaimed test first (R254). -/
def emit (a : Nat) (s : State) : State :=
  pinWriteStrobe true (pinWriteStrobe false (memWritePort (outByte s a) s))

/-- `raise NotClaimed` (R252, R254): the command ends with status NOTCLAIMED and no register changes; the model records
the fault (R13; log 4). -/
def raiseNotClaimed (s : State) : State := respond .notClaimed 0 { s with faults := s.faults ++ [.notClaimed] }

/-- A refused form (R256): the hardware answers ILLEGAL and nothing else happens (log 5). -/
def refuseForm (s : State) : State := respond .illegal 0 s

/-- `spindle_on` (10_state.md R39). -/
def ToolRegs.spindleOn (t : ToolRegs) : Bool := t.spindle != 0

/-- `coolant_on` (R39). -/
def ToolRegs.coolantOn (t : ToolRegs) : Bool := t.coolant != 0

/-- A one-bit pin value as the trace shows it. -/
def bitByte (b : Bool) : Byte := if b then 1 else 0

/-- A one-bit result as response data: `zext_32` (R9). -/
def bitWord (b : Bool) : Word := if b then 1 else 0

/-- The level a tool pin shows (R39). -/
def ToolRegs.pin (t : ToolRegs) : ToolPin → Byte
  | .spindleOn => bitByte t.spindleOn
  | .spindleCcw => bitByte t.spdir
  | .coolantOn => bitByte t.coolantOn
  | .fanLevel => t.fan

/-- The tool pins in the order their changes are logged (45_supervisor_tools.md R222). -/
def toolPinOrder : List ToolPin := [.spindleOn, .spindleCcw, .coolantOn, .fanLevel]

/-- One `TOOLPIN` entry for every pin whose value changes, in pin order (R39, R222). -/
def toolPinChanges (old new : ToolRegs) : List Event :=
  (toolPinOrder.filter fun p => old.pin p != new.pin p).map fun p => .toolPin p (new.pin p)

/-- The tool registers take new values; the pins follow and their changes are logged (R39). -/
def setTools (t : ToolRegs) (s : State) : State := { s.log (toolPinChanges s.tools t) with tools := t }

/-- Hardware reset during a run (R43, R280, R281; log 9): every register takes its reset value, `PORT` a free value, the
lines are released and the tools go off. What the outside still offers, the trace and the recorded faults stay. -/
def hardwareReset (s : State) : State :=
  let fresh := State.resetOf s.cfg (Config.freeByte s.freeIx) s.ext
  { fresh with
    trace := s.trace ++ (if s.claimed then [.oe false] else []) ++ toolPinChanges s.tools fresh.tools
    faults := s.faults
    freeIx := s.freeIx + 1 }

/-- Configuration time (00_scope.md R8): an invalid parameter set is refused, a valid one gives a block at reset. -/
def configure (cfg : Config) (port : Byte) (ext : Ext) : Outcome State Fault Refusal :=
  if cfg.valid then .next (State.resetOf cfg port ext) else .refused .invalidParameters

end Sys2Proof.Machine
end

