-- ==== Sys2Proof/Machine/Flags.lean ====
section
/-! DEFINITION. The flags and the control mode: the kill condition and the kill latch (44_supervisor_fsm.md R194,
60_exceptions.md R260) and the hold and resume transitions of one POLL (R190, R191). The block has no condition codes
(10_state.md R35). -/

namespace Sys2Proof.Machine

/-- The kill condition (R194): either kill pin active, or the kill hook being delivered. -/
def killCondition (hook : Bool) (s : State) : Bool := pinActive .kill s || pinActive .intKill s || hook

/-- `KILL_TOOLS = force_off` acts on the transition into Killed only (R194). -/
def killForcesTools (s : State) : Bool := decide (s.cfg.killTools = .forceOff) && decide (s.ctl ≠ .killed)

/-- Entry to Killed (R194, R260): `CTLMODE` and `DIAG_KILL` are written, and under `force_off` the tool levels are zeroed on
the transition; nothing else. A kill found while Killed writes the same values again. -/
def enterKilled (s : State) : State :=
  { setTools (if killForcesTools s then toolRegsOff s.tools else s.tools) s with ctl := .killed, diagKill := true }

/-- `SampleKill()` (R194): both kill pins are sampled, whatever the mode is, then the latch is set if the condition holds.
`hook` says that the command is EVENT with `ETYPE = KillHook`. -/
def sampleKill (hook : Bool) (s : State) : State :=
  let sampled := sample .intKill (sample .kill s)
  if killCondition hook s then enterKilled sampled else sampled

/-- A resume-type input is active (00_scope.md R16). -/
def resumeActive (s : State) : Bool := pinActive .resume s || pinActive .holdResume s

/-- A hold-type input is active (R16). -/
def holdActive (s : State) : Bool := pinActive .hold s || pinActive .holdResume s

/-- The hold and resume transitions of POLL (R191, R200), on the mode as `SampleKill` left it: resume before hold, and at
most one of the two. -/
def holdResumeTransition (s : State) : State :=
  if s.ctl = .held ∧ resumeActive s then { s with ctl := .running, diagHold := false }
  else if s.ctl = .running ∧ holdActive s then { s with ctl := .held, diagHold := true }
  else s

end Sys2Proof.Machine
end

