-- ==== Sys2Proof/Machine/HomingCmds.lean ====
section
/-! DEFINITION. GOREF and the report HOMEDONE (46_supervisor_homing.md). -/

namespace Sys2Proof.Machine

/-- The first segment of an accepted GOREF (R241): the record is taken and the fast pass requested; no response yet. -/
def startHoming (axis : Byte) (toMin : Bool) (s : State) : State :=
  engPost (.home axis toMin s.cfg.rateFast) { s with homing := ⟨.fast, axis, toMin, s.curPort⟩ }

/-- GOREF (R241): an axis out of range or a sequence in flight is a refused form (R256 forms 4 and 5). -/
def execGoref (axis : Byte) (toMin : Bool) (s : State) : Outcome State Fault Refusal :=
  if s.cfg.naxis ≤ axis.toNat then .next (refuseForm s)
  else if s.homing.pass ≠ .idle then .next (refuseForm s)
  else .next (startHoming axis toMin s)

/-- The sequence ends: the record goes idle and the deferred response is sent on its port (R243). -/
def endHoming (st : Status) (s : State) : State :=
  respondDeferred s.homing.port st { s with homing := { s.homing with pass := .idle } }

/-- `HOMEDONE(ok)` (R243): logged, then handled by where the sequence stands; a report nobody asked for is dropped. -/
def homeDone (ok : Bool) (s : State) : State :=
  let reported := s.log [.engRsp .home ok 0]
  match s.homing.pass with
  | .idle => reported
  | .fast =>
    if ok then
      engPost (.home s.homing.axis s.homing.toMin s.cfg.rateSlow) { reported with homing := { s.homing with pass := .slow } }
    else endHoming .fail reported
  | .slow => endHoming (if ok then .ok else .fail) reported

end Sys2Proof.Machine
end

