-- ==== Sys2Proof/Machine/Levels.lean ====
section
/-! DEFINITION. The enable-level commands SETLEVEL and GETLEVEL (42_sequencer_level.md). -/

namespace Sys2Proof.Machine

/-- SETLEVEL (R162): the bounds test first, then NotClaimed if an emission is asked for, then the level, then the emission. -/
def execSetlevel (axis levelReq : Byte) (force : Bool) (s : State) : Outcome State Fault Refusal :=
  if axis.toNat < s.cfg.naxis then
    if force && !s.claimed then .next (raiseNotClaimed s)
    else
      let written := s.setLevel axis.toNat (quantize s.cfg.reduced levelReq)
      .next (respond .ok 0 (if force then emit axis.toNat written else written))
  else .next (respond .ok 0 s)

/-- GETLEVEL (R165): the code of the level register, Off for an axis out of range. -/
def execGetlevel (axis : Byte) (s : State) : Outcome State Fault Refusal :=
  .next (respond .ok (if axis.toNat < s.cfg.naxis then (s.level axis.toNat).code.setWidth 32 else 0) s)

end Sys2Proof.Machine
end

