-- ==== Sys2Proof/Machine/Reference.lean ====
section
/-! DEFINITION. The reference commands ISREF and MOVEAWAY (43_sequencer_reference.md). -/

namespace Sys2Proof.Machine

/-- ISREF (R176): one sample of the one shared reference pin. -/
def execIsref (s : State) : Outcome State Fault Refusal :=
  .next (respond .ok (bitWord (pinActive .ref s)) (sample .ref s))

/-- The distance of fixed axis `k` (R180): clamped if the axis exists, 0 otherwise. -/
def moveDistance (dist : Word) (s : State) (k : Nat) : Nat :=
  if k < s.cfg.naxis then clampTravel dist (s.cfg.maxTravel k) else 0

/-- The configuration reads of MOVEAWAY (R180): one for each fixed axis that exists, in order. -/
def readTravels (s : State) : State :=
  [0, 1, 2].foldl (fun t k => if k < s.cfg.naxis then cfgReadMaxTravel k t else t) s

/-- MOVEAWAY (R180): a negative distance is a refused form (R256 form 3); otherwise one posted request for the fixed axes
0, 1, 2, whatever `AXIS` says (C9). -/
def execMoveaway (_axis : Byte) (dist maxRate : Word) (s : State) : Outcome State Fault Refusal :=
  if negativeDist dist then .next (refuseForm s)
  else
    .next (respond .ok 0
      (engPost (.moveRel3 (moveDistance dist s 0) (moveDistance dist s 1) (moveDistance dist s 2) maxRate) (readTravels s)))

end Sys2Proof.Machine
end

