-- ==== Sys2Proof/Machine/Stepping.lean ====
section
/-! DEFINITION. STEP (41_sequencer_step.md R145). -/

namespace Sys2Proof.Machine

/-- One axis of STEP (R145): a zero count leaves it untouched; otherwise the accumulator moves and the axis is emitted. -/
def stepAxis (count : Vector Byte 8) (dirMask : Byte) (s : State) (a : Nat) : State :=
  let c := countLane count a
  if c = 0 then s
  else emit a (s.setPhase a (movePhase (s.stepMode a) (dirMask.getLsbD a) (s.phase a) c))

/-- The axes in ascending order (R145, 20_memory.md R73 (a)). -/
def stepAxes (count : Vector Byte 8) (dirMask : Byte) (s : State) : State :=
  (List.range s.cfg.naxis).foldl (stepAxis count dirMask) s

/-- STEP (R145): the NotClaimed test comes before any axis is touched. It does not read `CTLMODE` (60_exceptions.md R262). -/
def execStep (count : Vector Byte 8) (dirMask : Byte) (s : State) : Outcome State Fault Refusal :=
  if !s.claimed && anyCount s.cfg.naxis count then .next (raiseNotClaimed s)
  else .next (respond .ok 0 (stepAxes count dirMask s))

end Sys2Proof.Machine
end

