-- ==== Sys2Proof/Machine/Lifecycle.lean ====
section
/-! DEFINITION. The sequencer lifecycle commands INIT, SHUTDOWN and SETMODE (40_sequencer_lifecycle.md). -/

namespace Sys2Proof.Machine

/-- `if INIT_SPURIOUS_LATCH: Log(LATCH(any byte))` (R121, U15): one latch of a free byte. -/
def spuriousLatch (s : State) : State :=
  if s.cfg.initSpuriousLatch then { latch (Config.freeByte s.freeIx) s with freeIx := s.freeIx + 1 } else s

/-- All effects of INIT except its response (R121): the lines are claimed, the strobe rests high with no STROBE event, the
idle level, the accumulators, the levels and the step modes take their initial values. `PORT` keeps its value. -/
def initSequencer (s : State) : State :=
  let claimed := spuriousLatch { s.log [.oe true] with claimed := true, strobe := true }
  { claimed with
    idle := Config.idleDefault
    axes := s.cfg.axis.map fun p => ⟨0, .off, p.stepModeInit⟩ }

/-- INIT (R121). -/
def execInit (s : State) : Outcome State Fault Refusal := .next (respond .ok 0 (initSequencer s))

/-- SHUTDOWN (R124): the lines are released and every register keeps its value. -/
def execShutdown (s : State) : Outcome State Fault Refusal :=
  .next (respond .ok 0 { s.log [.oe false] with claimed := false })

/-- SETMODE (R126): the step mode of an axis below `NAXIS`; `PHASE` is not touched and nothing is emitted. -/
def execSetmode (axis : Byte) (half : Bool) (s : State) : Outcome State Fault Refusal :=
  .next (respond .ok 0
    (if axis.toNat < s.cfg.naxis then s.setStepMode axis.toNat (if half then .half else .full) else s))

end Sys2Proof.Machine
end

