-- ==== Sys2Proof/Machine/Supervisor.lean ====
section
/-! DEFINITION. The supervisor commands SUPINIT, POLL, ISKILLED and EVENT (44_supervisor_fsm.md). -/

namespace Sys2Proof.Machine

/-- `if CTLMODE != Killed: CTLMODE <- Running`, then `DIAG_HOLD <- 0` (R198). -/
def supervisorRunning (s : State) : State :=
  { s with ctl := if s.ctl = .killed then .killed else .running, diagHold := false }

/-- SUPINIT (R198): the configuration, the sequencer, then the motion engine. It samples nothing and never leaves Killed. -/
def execSupinit (s : State) : Outcome State Fault Refusal :=
  .next (respond .ok 0 (supervisorRunning (engPost .engInit (initSequencer (engPost .cfgLoad s)))))

/-- POLL (R200): the engine's poll, the kill sample, then the three other pins in order, then at most one transition. -/
def execPoll (s : State) : Outcome State Fault Refusal :=
  .next (respond .ok 0
    (holdResumeTransition (sample .holdResume (sample .hold (sample .resume (sampleKill false (engPost .engPoll s)))))))

/-- ISKILLED (R203): samples the kill condition, then answers whether the mode is Killed. -/
def execIskilled (s : State) : Outcome State Fault Refusal :=
  let t := sampleKill false s
  .next (respond .ok (bitWord (decide (t.ctl = .killed))) t)

/-- EVENT (R206): samples the kill condition, KillHook counting as one, then posts the default handling. The board-specific
bookkeeping has no architected effect (91 N8). -/
def execEvent (etype : Byte) (info : Word) (s : State) : Outcome State Fault Refusal :=
  .next (respond .ok 0 (engPost (.eventDefault etype info) (sampleKill (etype == etypeKill) s)))

end Sys2Proof.Machine
end

