-- ==== Sys2Proof/Machine/Tools.lean ====
section
/-! DEFINITION. The tool commands TOOLWR and TOOLRD (45_supervisor_tools.md) and the end of a TOOLRD that waited. -/

namespace Sys2Proof.Machine

/-- TOOLWR (R222): a recognised tool writes its register, a probe nothing, any other code goes to the engine. -/
def execToolwr (tool levelReq : Byte) (s : State) : Outcome State Fault Refusal :=
  match Tool.ofCode tool with
  | some t => .next (respond .ok 0 (setTools (toolRegsWritten s.tools levelReq t) s))
  | none => .next (respond .fallthrough 0 (engPost (.toolWrGeneric tool levelReq) s))

/-- The answer to the blocking request arrives (R68, R228): it is logged, and its data is the response; `ok` is ignored. -/
def finishCall (port : CmdPort) (a : Answer) (s : State) : State :=
  { s with call := none, curPort := port }.log [.engRsp .toolRdGeneric a.ok a.data, .rsp port .fallthrough a.data false]

/-- `EngCall(TOOLRD_GENERIC, TOOL)` (R68): the request is logged; with an answer at hand the command ends, otherwise it waits
inside the command and the block accepts nothing else (R72, R270; log 8). -/
def callToolRead (tool : Byte) (s : State) : State :=
  let asked := s.log [.engReq (.toolRdGeneric tool)]
  match s.ext.answers with
  | a :: rest => finishCall s.curPort a { asked with ext := { s.ext with answers := rest } }
  | [] => { asked with call := some ⟨s.curPort, tool⟩ }

/-- TOOLRD (R228). -/
def execToolrd (tool : Byte) (s : State) : Outcome State Fault Refusal :=
  match Tool.ofCode tool with
  | some .probe => .next (respond .ok (bitWord (pinActive .probe s)) (sample .probe s))
  | some t => .next (respond .ok ((toolRegData s.tools t).setWidth 32) s)
  | none => .next (callToolRead tool s)

end Sys2Proof.Machine
end

