-- ==== Sys2Proof/Machine/Dispatch.lean ====
section
/-! DEFINITION. One arm for each command: the call of its meaning. -/

namespace Sys2Proof.Machine

/-- What a command does on the port `curPort`. -/
def exec (i : Instr) (s : State) : Host.Outcome State Fault Refusal :=
  match i with
  | .init => Sys2Proof.Machine.execInit s
  | .shutdown => Sys2Proof.Machine.execShutdown s
  | .step count dirMask => Sys2Proof.Machine.execStep count dirMask s
  | .setlevel axis levelReq force => Sys2Proof.Machine.execSetlevel axis levelReq force s
  | .getlevel axis => Sys2Proof.Machine.execGetlevel axis s
  | .isref => Sys2Proof.Machine.execIsref s
  | .moveaway axis dist maxRate => Sys2Proof.Machine.execMoveaway axis dist maxRate s
  | .setmode axis half => Sys2Proof.Machine.execSetmode axis half s
  | .supinit => Sys2Proof.Machine.execSupinit s
  | .poll => Sys2Proof.Machine.execPoll s
  | .iskilled => Sys2Proof.Machine.execIskilled s
  | .toolwr tool levelReq => Sys2Proof.Machine.execToolwr tool levelReq s
  | .toolrd tool => Sys2Proof.Machine.execToolrd tool s
  | .goref axis toMin => Sys2Proof.Machine.execGoref axis toMin s
  | .event etype info => Sys2Proof.Machine.execEvent etype info s

end Sys2Proof.Machine
end

