-- ==== Sys2Proof/Machine/Schedule.lean ====
section
/-! DEFINITION. Which piece of work comes next (20_memory.md R72, 46_supervisor_homing.md R243, 60_exceptions.md R263) and
how it runs. One step is one whole command, one GOREF segment, one wait, or one reset. -/

namespace Sys2Proof.Machine

/-- What the block does next. -/
inductive Work where
  /-- Reset is asserted (R43). -/
  | reset
  /-- A TOOLRD waits for the engine and an answer is there (R68). -/
  | answer (call : Call) (a : Answer) (rest : List Answer)
  /-- A TOOLRD waits for the engine and no answer is there (R270, U16). -/
  | waiting
  /-- A HOMEDONE report is handled (R243). -/
  | report (ok : Bool) (rest : List Bool)
  /-- A record is accepted on a port (R72). -/
  | command (port : CmdPort) (r : Record) (rest : List Record)
  /-- Nothing is offered. -/
  | idle
  deriving DecidableEq, Repr

/-- The choice: reset, then the call in flight, then a report, then port I, then port M (R72, R243, R263). -/
def nextWork (s : State) : Work :=
  if s.ext.rst then .reset
  else
    match s.call, s.ext.answers, s.ext.reports, s.ext.portI, s.ext.portM with
    | some c, a :: rest, _, _, _ => .answer c a rest
    | some _, [], _, _, _ => .waiting
    | none, _, ok :: rest, _, _ => .report ok rest
    | none, _, [], r :: rest, _ => .command .I r rest
    | none, _, [], [], r :: rest => .command .M r rest
    | none, _, [], [], [] => .idle

/-- A record is taken off its port, which becomes the port of the running command. -/
def accept (port : CmdPort) (rest : List Record) (s : State) : State :=
  match port with
  | .I => { s with curPort := .I, ext := { s.ext with portI := rest } }
  | .M => { s with curPort := .M, ext := { s.ext with portM := rest } }

/-- The outside world moves on: the next moment of the script, if there is one, takes effect (log 6). -/
def arrive (s : State) : State :=
  match s.ext.script with
  | [] => s
  | m :: rest =>
    { s with ext :=
      { pins := m.pins, rst := m.rst, portM := s.ext.portM ++ m.portM, portI := s.ext.portI ++ m.portI,
        reports := s.ext.reports ++ m.reports, answers := s.ext.answers ++ m.answers, script := rest } }

/-- The outside world moves on after whatever ended in a next state. -/
def thenArrive : Outcome State Fault Refusal → Outcome State Fault Refusal
  | .next s => .next (arrive s)
  | .fault f => .fault f
  | .refused r => .refused r

/-- An accepted record (R105, R106): a record that spells no command is answered ILLEGAL, any other runs. -/
def runRecord (r : Record) (s : State) : Outcome State Fault Refusal :=
  match decodeRecord r with
  | .ok i => exec i s
  | .error _ => .next (refuseForm s)

/-- One piece of work. -/
def runWork (s : State) : Work → Outcome State Fault Refusal
  | .reset => .next (hardwareReset s)
  | .answer c a rest => .next (finishCall c.port a { s with ext := { s.ext with answers := rest } })
  | .waiting => .next s
  | .report ok rest => .next (homeDone ok { s with ext := { s.ext with reports := rest } })
  | .command port r rest => runRecord r (accept port rest s)
  | .idle => .next s

/-- One step of the block and its outside. -/
def stepOnce (s : State) : Outcome State Fault Refusal := thenArrive (runWork s (nextWork s))

/-- A record offered so that the very next step accepts it, on port M: no reset, no call and no report before it, and
nothing on port I. -/
def offer (r : Record) (s : State) : State :=
  { s with call := none, ext := { s.ext with rst := false, reports := [], portI := [], portM := r :: s.ext.portM } }

end Sys2Proof.Machine
end

