-- ==== Sys2Proof/Machine/Step.lean ====
section
/-! DEFINITION. The step function of the model, and the placing of one record where the next step accepts it. -/

namespace Sys2Proof.Machine

/-- One step (20_memory.md R72). -/
def step (s : State) : Host.Outcome State Fault Refusal := stepOnce s

/-- The state with a record offered on port M so that the next step accepts and runs exactly it (log 6). -/
def State.withFetchWord (s : State) (nbits w : Nat) : State := offer (BitVec.ofNat 96 (w % 2 ^ nbits)) s

end Sys2Proof.Machine
end

