-- ==== Sys2Proof/Machine/Pins.lean ====
section
/-! DEFINITION. What the block shows at its pins, as pure functions of the state: output lines with their output enable
(30_encoding.md R90, 40_sequencer_lifecycle.md R122), tool pins (10_state.md R39), status pins (R44), `cmd_ready` (R90). -/

namespace Sys2Proof.Machine

/-- The port pins: driven with `PORT` while claimed, high-impedance (`none`) otherwise (R31, R62). -/
def State.portOut (s : State) : Option Byte := if s.claimed then some s.outPort else none

/-- The strobe pin: driven with `STROBE` while claimed (R90). -/
def State.strobeOut (s : State) : Option Bool := if s.claimed then some s.strobe else none

/-- The auxiliary lines: driven to their static levels while claimed (R122). -/
def State.auxOut (s : State) : Option (List Bool) := if s.claimed then some s.cfg.auxLines else none

/-- The status pins (R44). -/
structure StatusPins where
  mode : BitVec 2
  diagHold : Bool
  diagKill : Bool
  idleLevel : BitVec 2
  claimed : Bool
  deriving DecidableEq, Repr

/-- What the status pins show (R44). -/
def State.statusPins (s : State) : StatusPins where
  mode := s.ctl.code
  diagHold := s.diagHold
  diagKill := s.diagKill
  idleLevel := s.idle.code
  claimed := s.claimed

/-- The level of a tool pin (R39). -/
def State.toolPinOut (s : State) (p : ToolPin) : Byte := s.tools.pin p

/-- The commands a port offers and the block has not accepted, in order (R72). -/
def State.offered (s : State) : CmdPort → List Record
  | .I => s.ext.portI
  | .M => s.ext.portM

/-- `cmd_valid` of a port between two steps (R90): it offers a command. -/
def State.cmdValid (s : State) (p : CmdPort) : Bool := !(s.offered p).isEmpty

/-- `cmd_ready` of a port between two steps. R90: 0 on both ports while a TOOLRD waits inside itself (R270), and a command is
accepted where valid and ready are both 1; so it is 0 also where R72 and R243 let the block accept nothing on that port: on
both while a HOMEDONE report waits, on port M while port I offers a command. DESIGN CHOICE (log 22): that it is 1 at every
other moment, and that it is 0 while reset is asserted. While a command or segment runs there is no such moment: it is one
step. -/
def State.cmdReady (s : State) (p : CmdPort) : Bool :=
  !s.ext.rst && s.call.isNone && s.ext.reports.isEmpty &&
    match p with
    | .I => true
    | .M => !s.cmdValid .I

end Sys2Proof.Machine
end

