-- ==== Sys2Proof/Safety.lean ====
section
/-! DEFINITION. What counts as a safe state and a safe trace, in the terms claims use: the invariant of every state a run
from reset reaches, the bytes the chip may be given (41_sequencer_step.md R147 P2), the clamp of every relative move
(43_sequencer_reference.md R181) and the book-keeping of homing sequences (46_supervisor_homing.md R244). -/

namespace Sys2Proof.Machine

/-- The four trace entries of one emission of byte `b` (R142). -/
def emission (b : Byte) : List Event := [.portWr b, .strobe false, .strobe true, .latch b]

/-- The response of the running command. -/
def reply (s : State) (st : Status) (data : Word) : Event := .rsp s.curPort st data false

/-- The input pin `p` reads at its active level (20_memory.md R65), as data of the state. -/
def reads (s : State) (p : InPin) : Bool := s.ext.pins.level p == s.cfg.active.level p

/-- The trace entry of sampling `p` now. -/
def sampled (s : State) (p : InPin) : Event := .sample p (s.ext.pins.level p)

/-- The invariant of the block. Each field is a sentence of the spec about every state. -/
structure BlockInv (s : State) : Prop where
  /-- The parameter set is valid (R8). -/
  valid : s.cfg.valid = true
  /-- Exactly `NAXIS` axes (R25). -/
  axesLength : s.axes.length = s.cfg.naxis
  /-- The chip's view has one entry for each axis (R41). -/
  chipLength : s.chip.length = s.cfg.naxis
  /-- The strobe rests high between commands (R32). -/
  strobeHigh : s.strobe = true
  /-- Nothing ever changes `IDLE` from Low (R29). -/
  idleLow : s.idle = .low
  /-- `DIAG_KILL` is set exactly while the mode is Killed (R37, R194). -/
  killShown : s.diagKill = decide (s.ctl = .killed)
  /-- Unless Killed, `DIAG_HOLD` is set exactly while the mode is Held (R36). -/
  holdShown : s.ctl ≠ .killed → s.diagHold = decide (s.ctl = .held)
  /-- No register holds Mid in a reduced build (R12, R22). -/
  noMid : s.cfg.reduced = true → ∀ a < s.cfg.naxis, s.level a ≠ .mid
  /-- A sequence in flight is for an axis that exists (R241). -/
  homingAxis : s.homing.pass ≠ .idle → s.homing.axis.toNat < s.cfg.naxis
  /-- What the chip holds for an axis carries that axis's address bits (R41). -/
  chipAddr : ∀ a < s.cfg.naxis, ∀ b ∈ s.chip.getD a none, b &&& s.cfg.addrField = s.cfg.addr a
  /-- Only an unrecognised tool code waits for the engine (R228). -/
  callTool : ∀ c ∈ s.call, Tool.ofCode c.tool = none

/-- A byte some axis, mode, level and index give (R147 P2): no other byte may reach the chip. -/
def LegalByte (c : Config) (b : Byte) : Prop :=
  ∃ a < c.naxis, ∃ m : StepMode, ∃ l ∈ c.levels, ∃ i : BitVec 3, b = c.tableCode m l i + c.addr a

/-- Every byte latched so far is legal (R147 P2, 93 U1). -/
def LatchesLegal (s : State) : Prop := ∀ b, Event.latch b ∈ s.trace → LegalByte s.cfg b

/-- The bound on the distance of a fixed axis: half its travel if it exists, 0 otherwise (R180, R181). -/
def travelBound (c : Config) (k : Nat) : Nat := if k < c.naxis then (c.maxTravel k).toNat / 2 else 0

/-- Every relative move requested so far keeps the bound on each fixed axis (R181). -/
def MovesClamped (s : State) : Prop :=
  ∀ d0 d1 d2 rate, Event.engReq (.moveRel3 d0 d1 d2 rate) ∈ s.trace →
    d0 ≤ travelBound s.cfg 0 ∧ d1 ≤ travelBound s.cfg 1 ∧ d2 ≤ travelBound s.cfg 2

/-- A request for a homing pass at a rate. -/
def Event.isHomeAt (rate : Nat) : Event → Bool
  | .engReq (.home _ _ r) => r == rate
  | _ => false

/-- A deferred response. -/
def Event.isDeferred : Event → Bool
  | .rsp _ _ _ deferred => deferred
  | _ => false

/-- A response. -/
def Event.isResponse : Event → Bool
  | .rsp _ _ _ _ => true
  | _ => false

/-- A sample of a pin. -/
def Event.isSampleOf (p : InPin) : Event → Bool
  | .sample q _ => q == p
  | _ => false

/-- The books of homing (R244): the fast passes requested are the deferred responses sent and the one sequence in flight,
and every slow pass belongs to a sequence of its own that has left its fast pass. -/
def HomingBooks (s : State) : Prop :=
  s.trace.countP (Event.isHomeAt s.cfg.rateFast) =
      s.trace.countP Event.isDeferred + (if s.homing.pass = .idle then 0 else 1) ∧
    s.trace.countP (Event.isHomeAt s.cfg.rateSlow) + (if s.homing.pass = .fast then 1 else 0) ≤
      s.trace.countP (Event.isHomeAt s.cfg.rateFast)

/-- Commands run one after the other on the port of the state, from the first to the last. -/
def execAll : List Instr → State → Outcome State Fault Refusal
  | [], s => .next s
  | i :: rest, s =>
    match exec i s with
    | .next t => execAll rest t
    | .fault f => .fault f
    | .refused r => .refused r

/-- A safe state: the invariant holds, and unless the board admits a spurious latch, only legal bytes were latched. -/
def Safe (s : State) : Prop := BlockInv s ∧ (s.cfg.initSpuriousLatch = false → LatchesLegal s)

end Sys2Proof.Machine

namespace Sys2Proof

/-- The command writes the register behind a coolant or fan code. -/
def Instr.writesTool (t : Tool) : Instr → Bool
  | .toolwr tool _ => Tool.ofCode tool == some t
  | _ => false

/-- The commands of the Phase Sequencer that can change a sequencer register or a line (10_state.md R26, R30). -/
def Instr.drivesSequencer : Instr → Bool
  | .init | .shutdown | .step _ _ | .setlevel _ _ _ | .setmode _ _ | .supinit => true
  | .getlevel _ | .isref | .moveaway _ _ _ | .poll | .iskilled | .toolwr _ _ | .toolrd _ | .goref _ _ | .event _ _ => false

/-- The commands that read or write the control mode (R194, R198). -/
def Instr.usesMode : Instr → Bool
  | .supinit | .poll | .iskilled | .event _ _ => true
  | .init | .shutdown | .step _ _ | .setlevel _ _ _ | .getlevel _ | .isref | .moveaway _ _ _ | .setmode _ _
  | .toolwr _ _ | .toolrd _ | .goref _ _ => false

end Sys2Proof
end

