-- ==== Sys2Proof/Certificates/Slice0/Obligations.lean ====
section
/-! DEFINITION. The statements for the provers, each a sentence of the spec about the machine. Results are given as the
whole next state, so that each statement is at once the result, the completion and the frame of its command. -/

open Sys2Proof Sys2Proof.Machine

/-! ### Configuration and reset -/

/-- 00_scope.md R8: a parameter set that meets V1, V2, V3, V5 and V6 is configured, any other is refused. -/
def Obligations.OnlyValidParametersAreConfigured : Prop :=
  ∀ (c : Config) (port : Byte) (ext : Ext),
    let v1 := ∀ a b, a < c.naxis → b < c.naxis → a ≠ b → c.addr a ≠ c.addr b
    let v2 := ∀ a < c.naxis, c.addr a &&& ~~~c.addrField = 0
    let v3 := ∀ l : Level, (c.reduced = true → l ≠ .mid) → ∀ (m : StepMode) (i : BitVec 3), c.tableCode m l i &&& c.addrField = 0
    let v5 := 1 ≤ c.naxis ∧ c.naxis ≤ c.driverCap ∧ c.driverCap ≤ 8
    let v6 := c.rateSlow < c.rateFast
    ((v1 ∧ v2 ∧ v3 ∧ v5 ∧ v6) → configure c port ext = .next (State.resetOf c port ext)) ∧
      (¬(v1 ∧ v2 ∧ v3 ∧ v5 ∧ v6) → configure c port ext = .refused .invalidParameters)

/-- 70_reset_and_hazards.md R280, its table: what reset leaves, for every parameter set, whatever `PORT` holds and whatever
the outside presents. The fields of HOMING besides `pass` are meaningless there and not claimed (log 3). -/
def Obligations.ResetLeavesTheStatedValues : Prop :=
  ∀ (c : Config) (port : Byte) (ext : Ext),
    let s := State.resetOf c port ext
    (∀ a < c.naxis, s.phase a = 0 ∧ s.level a = .off ∧ s.stepMode a = (c.axisParam a).stepModeInit ∧
        s.chip[a]? = some none) ∧
      s.axes.length = c.naxis ∧ s.chip.length = c.naxis ∧
      s.idle = .low ∧ s.claimed = false ∧ s.portOut = none ∧ s.strobeOut = none ∧ s.auxOut = none ∧ s.outPort = port ∧
      s.strobe = true ∧ s.ctl = .running ∧ s.diagHold = false ∧ s.diagKill = false ∧
      s.tools = ⟨0, false, 0, 0⟩ ∧ (∀ p, s.toolPinOut p = 0) ∧ s.homing.pass = .idle ∧ s.cfg = c

/-- The invariant holds at reset, for every valid parameter set. -/
def Obligations.ResetMeetsTheInvariant : Prop :=
  ∀ (c : Config) (port : Byte) (ext : Ext), c.valid = true → BlockInv (State.resetOf c port ext)

/-- The three running claims (what was latched, what was moved, the books of homing) start true at reset. -/
def Obligations.ResetStartsTheRunningClaims : Prop :=
  ∀ (c : Config) (port : Byte) (ext : Ext),
    let s := State.resetOf c port ext
    LatchesLegal s ∧ MovesClamped s ∧ HomingBooks s

/-- 10_state.md R43, 70_reset_and_hazards.md R281: asserting reset between two commands, or while a command waits for the
engine, gives every register its reset value (`PORT` any byte), whatever the state was; a waiting command and an owed
homing response are dropped, the trace gains only the release of the lines and the tool pins going off, and recorded faults
stay. The trace entries at reset are the model's reading (log 9). -/
def Obligations.HardwareResetRestoresTheResetState : Prop :=
  ∀ s : State, s.ext.rst = true →
    ∃ (port : Byte) (es : List Event),
      step s = .next (arrive { State.resetOf s.cfg port s.ext with
        trace := s.trace ++ es, faults := s.faults, freeIx := s.freeIx + 1 }) ∧
      ∀ e ∈ es, e = .oe false ∨ ∃ p, e = .toolPin p 0

/-! ### Encoding -/

/-- A few of the records of 95_test_vectors.md E1 decode to the command they spell. -/
def Obligations.SpecRecordsDecode : Prop :=
  decodeRecord (Record.ofWords 0x10000000#32 0#32 0#32) = .ok .init ∧
    decodeRecord (Record.ofWords 0x300000FF#32 0x04030201#32 0x08070605#32) = .ok (.step #v[1, 2, 3, 4, 5, 6, 7, 8] 0xFF) ∧
    decodeRecord (Record.ofWords 0x40014600#32 0#32 0#32) = .ok (.setlevel 0 70 true) ∧
    decodeRecord (Record.ofWords 0x70000000#32 0x3E8#32 0x1F4#32) = .ok (.moveaway 0 1000 500) ∧
    decodeRecord (Record.ofWords 0xC0006401#32 0#32 0#32) = .ok (.toolwr 1 100) ∧
    decodeRecord (Record.ofWords 0xE0000100#32 0#32 0#32) = .ok (.goref 0 true) ∧
    decodeRecord (Record.ofWords 0xF0000007#32 0x1234#32 0#32) = .ok (.event 7 0x1234)

/-- Every command, with every operand at every value, is read back from its record. -/
def Obligations.DecodeInvertsEncode : Prop := ∀ i : Instr, decodeRecord (encode i) = .ok i

/-- A record that decodes is the record of its command, up to the words its format does not use (30_encoding.md R91, R93). -/
def Obligations.EncodeInvertsDecode : Prop :=
  ∀ (r : Record) (i : Instr), decodeRecord r = .ok i →
    encodeW0 i = r.w0 ∧
      (match i with
        | .step _ _ | .moveaway _ _ _ => encodeW1 i = r.w1 ∧ encodeW2 i = r.w2
        | .event _ _ => encodeW1 i = r.w1
        | _ => True)

/-- 30_encoding.md R94: a record spells a command exactly when `(W0 & mask) == match` for the command's row. -/
def Obligations.RecordSpellsTheRowItMatches : Prop :=
  ∀ r : Record,
    (r.w0 &&& 0xFFFFFFFF#32 = 0x10000000#32 ↔ decodeRecord r = .ok .init) ∧
      (r.w0 &&& 0xFFFFFFFF#32 = 0x20000000#32 ↔ decodeRecord r = .ok .shutdown) ∧
      (r.w0 &&& 0xFFFFFF00#32 = 0x30000000#32 ↔ ∃ c d, decodeRecord r = .ok (.step c d)) ∧
      (r.w0 &&& 0xFFFE0000#32 = 0x40000000#32 ↔ ∃ a l f, decodeRecord r = .ok (.setlevel a l f)) ∧
      (r.w0 &&& 0xFFFFFF00#32 = 0x50000000#32 ↔ ∃ a, decodeRecord r = .ok (.getlevel a)) ∧
      (r.w0 &&& 0xFFFFFFFF#32 = 0x60000000#32 ↔ decodeRecord r = .ok .isref) ∧
      (r.w0 &&& 0xFFFFFF00#32 = 0x70000000#32 ↔ ∃ a d m, decodeRecord r = .ok (.moveaway a d m)) ∧
      (r.w0 &&& 0xFFFFFE00#32 = 0x80000000#32 ↔ ∃ a h, decodeRecord r = .ok (.setmode a h)) ∧
      (r.w0 &&& 0xFFFFFFFF#32 = 0x90000000#32 ↔ decodeRecord r = .ok .supinit) ∧
      (r.w0 &&& 0xFFFFFFFF#32 = 0xA0000000#32 ↔ decodeRecord r = .ok .poll) ∧
      (r.w0 &&& 0xFFFFFFFF#32 = 0xB0000000#32 ↔ decodeRecord r = .ok .iskilled) ∧
      (r.w0 &&& 0xFFFF0000#32 = 0xC0000000#32 ↔ ∃ t l, decodeRecord r = .ok (.toolwr t l)) ∧
      (r.w0 &&& 0xFFFFFF00#32 = 0xD0000000#32 ↔ ∃ t, decodeRecord r = .ok (.toolrd t)) ∧
      (r.w0 &&& 0xFFFFFE00#32 = 0xE0000000#32 ↔ ∃ a m, decodeRecord r = .ok (.goref a m)) ∧
      (r.w0 &&& 0xFFFFFF00#32 = 0xF0000000#32 ↔ ∃ e n, decodeRecord r = .ok (.event e n))

/-- 30_encoding.md R105, R106: an accepted record that spells no command is answered ILLEGAL on its port and nothing else
happens. That the model goes on with the hardware's answer is log 5. -/
def Obligations.RecordThatSpellsNothingIsAnsweredIllegal : Prop :=
  ∀ (s : State) (r : Record) (rest : List Record) (why : DecodeReject),
    decodeRecord r = .error why → s.ext.rst = false → s.call = none → s.ext.reports = [] →
      (s.ext.portI = r :: rest →
        step s = .next (arrive { s with
          curPort := .I, ext := { s.ext with portI := rest }, trace := s.trace ++ [.rsp .I .illegal 0 false] })) ∧
      (s.ext.portI = [] → s.ext.portM = r :: rest →
        step s = .next (arrive { s with
          curPort := .M, ext := { s.ext with portM := rest }, trace := s.trace ++ [.rsp .M .illegal 0 false] })) ∧
      ((r.w0.toNat / 2 ^ 28 = 0 ∧ why = .reservedOpcode) ∨
        (r.w0.toNat / 2 ^ 28 ≠ 0 ∧ ∃ op, why = .reservedBits op ∧ op.toNat = r.w0.toNat / 2 ^ 28))

/-! ### Steps and the order of work -/

/-- A step accepts the record at the head of a port's stream and runs the command it spells, then the outside moves on. -/
def Obligations.StepRunsTheDecodedCommand : Prop :=
  ∀ (s : State) (r : Record) (rest : List Record) (i : Instr),
    decodeRecord r = .ok i → s.ext.rst = false → s.call = none → s.ext.reports = [] →
      (s.ext.portI = r :: rest →
        step s = thenArrive (exec i { s with curPort := .I, ext := { s.ext with portI := rest } })) ∧
      (s.ext.portI = [] → s.ext.portM = r :: rest →
        step s = thenArrive (exec i { s with curPort := .M, ext := { s.ext with portM := rest } }))

/-- 46_supervisor_homing.md R243, its pseudocode: a HOMEDONE report is handled before any waiting command, whatever the
ports offer, and does what the stage of the sequence says. -/
def Obligations.HomedoneReportIsHandledFirst : Prop :=
  ∀ (s : State) (ok : Bool) (rest : List Bool),
    s.ext.rst = false → s.call = none → s.ext.reports = ok :: rest →
      let logged := s.trace ++ [Event.engRsp .home ok 0]
      let h := s.homing
      let taken := { s.ext with reports := rest }
      (h.pass = .idle → step s = .next (arrive { s with ext := taken, trace := logged })) ∧
      (h.pass = .fast → ok = true → step s = .next (arrive { s with
        ext := taken, homing := { h with pass := .slow },
        trace := logged ++ [.engReq (.home h.axis h.toMin s.cfg.rateSlow)] })) ∧
      (h.pass = .fast → ok = false → step s = .next (arrive { s with
        ext := taken, homing := { h with pass := .idle }, trace := logged ++ [.rsp h.port .fail 0 true] })) ∧
      (h.pass = .slow → step s = .next (arrive { s with
        ext := taken, homing := { h with pass := .idle },
        trace := logged ++ [.rsp h.port (if ok then .ok else .fail) 0 true] }))

/-- 20_memory.md R68, R72: while a TOOLRD waits, an answer ends it on its own port before anything else; without one the
step accepts nothing and reports nothing (how a waiting call stands in the state is log 8). That a step with nothing to do
leaves the block as it is, is the model's choice (log 20). -/
def Obligations.WaitingCallOrIdleBlockAcceptsNothing : Prop :=
  ∀ s : State, s.ext.rst = false →
    (∀ c a rest, s.call = some c → s.ext.answers = a :: rest →
      step s = .next (arrive { s with
        call := none, curPort := c.port, ext := { s.ext with answers := rest },
        trace := s.trace ++ [.engRsp .toolRdGeneric a.ok a.data, .rsp c.port .fallthrough a.data false] })) ∧
    (∀ c, s.call = some c → s.ext.answers = [] → step s = .next (arrive s)) ∧
    (s.call = none → s.ext.reports = [] → s.ext.portI = [] → s.ext.portM = [] → step s = .next (arrive s))

/-- 60_exceptions.md R270, 93 U16: if the engine never answers and no reset comes, the block accepts no further command on
either port, for ever: however many steps pass, the waiting call, the registers and the trace stay as they are. -/
def Obligations.UnansweredCallBlocksForEver : Prop :=
  ∀ (k : Nat) (s : State) (c : Call),
    s.call = some c → s.ext.rst = false → s.ext.answers = [] →
      (∀ m ∈ s.ext.script, m.rst = false ∧ m.answers = []) →
        ∃ ext', core.run k s = .next { s with ext := ext' }

/-- 30_encoding.md R110: every command ends with exactly one undeferred response, on the port it came from, except an
accepted GOREF, which has given none yet. The second exception, a TOOLRD that waits for the engine, is the model's reading of
R68 and R270, deduced (log 8); that a refused form goes on with its ILLEGAL response is the model's choice (log 5), and so is
the NOTCLAIMED response as a next state (log 4). -/
def Obligations.CommandGivesOneResponseOnItsPort : Prop :=
  ∀ (i : Instr) (s : State), ∃ (t : State) (es : List Event),
    exec i s = .next t ∧
      ((t.trace = s.trace ++ es ∧ es.countP Event.isResponse = 0 ∧
          ((∃ a m, i = .goref a m ∧ s.homing.pass = .idle ∧ t.homing.pass = .fast) ∨
            ∃ tool, i = .toolrd tool ∧ s.ext.answers = [] ∧ t.call = some ⟨s.curPort, tool⟩)) ∨
        ∃ st data, t.trace = s.trace ++ es ++ [.rsp s.curPort st data false] ∧ es.countP Event.isResponse = 0 ∧
          st ≠ .fail ∧ (s.call = none → t.call = none) ∧ t.homing = s.homing)

/-- 20_memory.md R65: a command samples each pin at most once, and every sample shows the level of its pin, which
does not move within one command (log 7). -/
def Obligations.EachPinIsSampledAtMostOnce : Prop :=
  ∀ (i : Instr) (s t : State), exec i s = .next t →
    ∃ es, t.trace = s.trace ++ es ∧
      ∀ p, es.countP (Event.isSampleOf p) ≤ 1 ∧ ∀ v, Event.sample p v ∈ es → v = s.ext.pins.level p

/-- 30_encoding.md R90: a command is accepted on a port exactly where that port's valid and ready are both 1: there the step
takes the head of the port's stream and runs it on that port, and otherwise no step takes anything off that port; both are
not accepted at once; and ready is 0 on both ports while a TOOLRD waits. That ready is 0 while reset is asserted, and 1 at
every other moment at which the block would accept, is the model's choice (log 22). -/
def Obligations.AcceptedExactlyWhereValidAndReady : Prop :=
  ∀ (s : State) (p : CmdPort),
    (∀ r rest, s.cmdReady p = true → s.offered p = r :: rest → step s = thenArrive (runRecord r (accept p rest s))) ∧
    ((s.cmdReady p && s.cmdValid p) = false → ∀ t, step s = .next t → ∃ more, t.offered p = s.offered p ++ more) ∧
    (s.cmdReady .M && s.cmdValid .M && (s.cmdReady .I && s.cmdValid .I)) = false ∧
    (s.call ≠ none ∨ s.ext.rst = true → s.cmdReady p = false) ∧
    (s.call = none → s.ext.rst = false → s.ext.reports = [] → s.cmdReady .I = true ∧
      (s.ext.portI = [] → s.cmdReady .M = true))

/-! ### Lifecycle -/

/-- 40_sequencer_lifecycle.md R121, the pseudocode of INIT. That under `INIT_SPURIOUS_LATCH` each INIT latches exactly one
byte, where R286 says that it may, is the model's choice (log 10); which byte it is stays open. -/
def Obligations.InitResult : Prop :=
  ∀ s : State,
    let axes := s.cfg.axis.map fun p => (⟨0, .off, p.stepModeInit⟩ : AxisRegs)
    (s.cfg.initSpuriousLatch = false →
      exec .init s = .next { s with
        claimed := true, strobe := true, idle := .low, axes := axes,
        trace := s.trace ++ [.oe true, reply s .ok 0] }) ∧
    (s.cfg.initSpuriousLatch = true →
      ∃ b, exec .init s = .next { s with
        claimed := true, strobe := true, idle := .low, axes := axes, chip := chipAfter s.cfg b s.chip,
        freeIx := s.freeIx + 1, trace := s.trace ++ [.oe true, .latch b, reply s .ok 0] })

/-- 40_sequencer_lifecycle.md R124, the pseudocode of SHUTDOWN: only `CLAIMED` changes, and every output line is
high-impedance. -/
def Obligations.ShutdownResult : Prop :=
  ∀ s : State,
    let t := { s with claimed := false, trace := s.trace ++ [.oe false, reply s .ok 0] }
    exec .shutdown s = .next t ∧ t.portOut = none ∧ t.strobeOut = none ∧ t.auxOut = none

/-- 40_sequencer_lifecycle.md R126, 10_state.md R27: SETMODE changes the step mode of its axis, leaves every accumulator bit
for bit as it was, and emits nothing; an axis out of range changes nothing. -/
def Obligations.SetmodeResult : Prop :=
  ∀ (axis : Byte) (half : Bool) (s : State), s.axes.length = s.cfg.naxis →
    ∃ t, exec (.setmode axis half) s = .next t ∧
      t = { s with axes := t.axes, trace := s.trace ++ [reply s .ok 0] } ∧ t.axes.length = s.cfg.naxis ∧
      ∀ a < s.cfg.naxis, t.phase a = s.phase a ∧ t.level a = s.level a ∧
        t.stepMode a = if a = axis.toNat then (if half then .half else .full) else s.stepMode a

/-! ### STEP and the emission -/

/-- 41_sequencer_step.md R145, R147 (P1): STEP moves each accumulator below `NAXIS` with a non-zero count by the count, up or
down by its direction bit, modulo the table size of its step mode, leaves every other one untouched, changes no level and no
step mode, and apart from the output lines, the chip and the trace changes nothing. -/
def Obligations.StepMovesTheAccumulators : Prop :=
  ∀ (count : Vector Byte 8) (dirMask : Byte) (s : State), s.axes.length = s.cfg.naxis → s.cfg.naxis ≤ 8 →
    (s.claimed = true ∨ ∀ a (h : a < 8), a < s.cfg.naxis → count[a] = 0) →
      ∃ t, exec (.step count dirMask) s = .next t ∧
        t = { s with axes := t.axes, outPort := t.outPort, strobe := t.strobe, chip := t.chip, trace := t.trace } ∧
        t.axes.length = s.cfg.naxis ∧
        ∀ a (h : a < 8), a < s.cfg.naxis →
          t.level a = s.level a ∧ t.stepMode a = s.stepMode a ∧
            (count[a] = 0 → t.phase a = s.phase a) ∧
            (count[a] ≠ 0 → ((t.phase a).toNat : Int) =
              (if dirMask.getLsbD a then ((s.phase a).toNat : Int) + count[a].toNat
                else ((s.phase a).toNat : Int) - count[a].toNat) %
                (match s.stepMode a with | .full => 4 | .half => 8))

/-- 41_sequencer_step.md R145, 20_memory.md R73 (a), (b), (d): STEP emits every axis below `NAXIS` with a non-zero count
exactly once, in ascending order, each after its own accumulator update, with the byte of the axis's table, level and new
phase plus its address bits; `PORT` is left at the last byte and the strobe high. -/
def Obligations.StepEmitsMovedAxesInOrder : Prop :=
  ∀ (count : Vector Byte 8) (dirMask : Byte) (s t : State), s.axes.length = s.cfg.naxis → s.claimed = true →
    exec (.step count dirMask) s = .next t →
      let byte := fun a => s.cfg.tableCode (s.stepMode a) (s.level a) (t.phase a) + s.cfg.addr a
      let moved := (List.range s.cfg.naxis).filter fun a => countLane count a != 0
      t.trace = s.trace ++ (moved.flatMap fun a => emission (byte a)) ++ [reply s .ok 0] ∧
        t.outPort = (moved.map byte).getLastD s.outPort ∧
        t.strobe = (s.strobe || !moved.isEmpty)

/-- 41_sequencer_step.md R146 (a), (f): a STEP whose counts below `NAXIS` are all zero, whatever its direction bits and its
other lanes say and whether or not the lines are claimed, does nothing but answer OK. -/
def Obligations.StepWithoutInRangeCountsDoesNothing : Prop :=
  ∀ (count : Vector Byte 8) (dirMask : Byte) (s : State), (∀ a (h : a < 8), a < s.cfg.naxis → count[a] = 0) →
    exec (.step count dirMask) s = .next { s with trace := s.trace ++ [reply s .ok 0] }

/-- 41_sequencer_step.md R143, 70_reset_and_hazards.md R286: in a valid block, after a STEP the chip holds the byte just
emitted for every axis that moved, and what it held before for every other axis. -/
def Obligations.StepUpdatesTheChipForMovedAxesOnly : Prop :=
  ∀ (count : Vector Byte 8) (dirMask : Byte) (s t : State), BlockInv s → s.claimed = true →
    exec (.step count dirMask) s = .next t →
      ∀ a < s.cfg.naxis,
        t.chip[a]? = if countLane count a = 0 then s.chip[a]?
          else some (some (s.cfg.tableCode (s.stepMode a) (s.level a) (t.phase a) + s.cfg.addr a))

/-- 41_sequencer_step.md R141, D16: in a valid block the addition of the address bits never carries: it is their bitwise OR,
and the address field of every such byte is the axis's pattern. -/
def Obligations.AddingTheAddressBitsIsOr : Prop :=
  ∀ (c : Config) (a : Nat) (m : StepMode) (l : Level) (i : BitVec 3), c.valid = true → a < c.naxis → l ∈ c.levels →
    c.tableCode m l i + c.addr a = c.tableCode m l i ||| c.addr a ∧
      (c.tableCode m l i + c.addr a) &&& c.addrField = c.addr a ∧
      (c.tableCode m l i + c.addr a) &&& ~~~c.addrField = c.tableCode m l i

/-- 60_exceptions.md R252, R254: the fault NotClaimed is raised by a STEP with a non-zero in-range count and by a forced
in-range SETLEVEL while the lines are released, and by nothing else; the faulting command answers NOTCLAIMED and changes
nothing but the model's record of the fault (log 4). -/
def Obligations.NotClaimedIsRaisedExactlyForEmissions : Prop :=
  ∀ (i : Instr) (s : State),
    let wantsEmission : Prop := match i with
      | .step count _ => ∃ a, ∃ h : a < 8, a < s.cfg.naxis ∧ count[a] ≠ 0
      | .setlevel axis _ force => force = true ∧ axis.toNat < s.cfg.naxis
      | _ => False
    (wantsEmission ∧ s.claimed = false →
      exec i s = .next { s with faults := s.faults ++ [.notClaimed], trace := s.trace ++ [reply s .notClaimed 0] }) ∧
    (¬(wantsEmission ∧ s.claimed = false) →
      ∃ t es, exec i s = .next t ∧ t.faults = s.faults ∧ t.trace = s.trace ++ es ∧
        ∀ p d data, Event.rsp p .notClaimed data d ∉ es)

/-! ### Levels -/

/-- 42_sequencer_level.md R160: the quantiser, by its strict unsigned thresholds. -/
def Obligations.QuantizeFollowsTheThresholds : Prop :=
  ∀ (reduced : Bool) (v : Byte),
    (v.toNat > 153 → quantize reduced v = .max) ∧
      (v.toNat ≤ 153 → v.toNat > 51 → reduced = false → quantize reduced v = .mid) ∧
      (v.toNat ≤ 153 → v.toNat > 0 → (v.toNat ≤ 51 ∨ reduced = true) → quantize reduced v = .low) ∧
      (v.toNat = 0 → quantize reduced v = .off)

/-- 42_sequencer_level.md R161: the quantiser never decreases, and never gives Mid in a reduced build. -/
def Obligations.QuantizeIsMonotoneWithoutMidWhenReduced : Prop :=
  ∀ (reduced : Bool) (v w : Byte),
    (v.toNat ≤ w.toNat → (quantize reduced v).code.toNat ≤ (quantize reduced w).code.toNat) ∧ quantize true v ≠ .mid

/-- 42_sequencer_level.md R162, R163 (a), (d): without force only the level register of an axis in range changes; an axis out
of range changes nothing, forced or not, claimed or not. -/
def Obligations.SetlevelWritesOnlyTheLevel : Prop :=
  ∀ (axis levelReq : Byte) (force : Bool) (s : State), s.axes.length = s.cfg.naxis →
    (s.cfg.naxis ≤ axis.toNat →
      exec (.setlevel axis levelReq force) s = .next { s with trace := s.trace ++ [reply s .ok 0] }) ∧
    (axis.toNat < s.cfg.naxis → force = false →
      ∃ t, exec (.setlevel axis levelReq force) s = .next t ∧
        t = { s with axes := t.axes, trace := s.trace ++ [reply s .ok 0] } ∧ t.axes.length = s.cfg.naxis ∧
        ∀ a < s.cfg.naxis, t.phase a = s.phase a ∧ t.stepMode a = s.stepMode a ∧
          t.level a = if a = axis.toNat then quantize s.cfg.reduced levelReq else s.level a)

/-- 42_sequencer_level.md R162, 41_sequencer_step.md R142: a forced SETLEVEL of an axis in range, on claimed lines, writes the
level and emits the axis once with the new level's byte; phases and step modes are read and never written. -/
def Obligations.ForcedSetlevelEmitsTheNewLevel : Prop :=
  ∀ (axis levelReq : Byte) (s : State), s.axes.length = s.cfg.naxis → axis.toNat < s.cfg.naxis → s.claimed = true →
    let a := axis.toNat
    let l := quantize s.cfg.reduced levelReq
    let b := s.cfg.tableCode (s.stepMode a) l (s.phase a) + s.cfg.addr a
    ∃ t, exec (.setlevel axis levelReq true) s = .next t ∧
      t = { s with
        axes := t.axes, outPort := b, strobe := true, chip := chipAfter s.cfg b s.chip,
        trace := s.trace ++ emission b ++ [reply s .ok 0] } ∧
      t.axes.length = s.cfg.naxis ∧
      ∀ k < s.cfg.naxis, t.phase k = s.phase k ∧ t.stepMode k = s.stepMode k ∧
        t.level k = if k = a then l else s.level k

/-- 42_sequencer_level.md R165: GETLEVEL answers the code of the level register, Off for an axis out of range, and changes
nothing. -/
def Obligations.GetlevelAnswersTheLevelCode : Prop :=
  ∀ (axis : Byte) (s : State),
    exec (.getlevel axis) s = .next { s with trace := s.trace ++ [reply s .ok
      (if axis.toNat < s.cfg.naxis then
        (match s.level axis.toNat with | .off => 0 | .low => 1 | .mid => 2 | .max => 3)
      else 0)] }

/-! ### Reference sensor and retreat -/

/-- 43_sequencer_reference.md R176: ISREF samples the shared pin once, answers whether it is active, and changes nothing. -/
def Obligations.IsrefAnswersTheSharedPin : Prop :=
  ∀ s : State, exec .isref s = .next { s with
    trace := s.trace ++ [sampled s .ref, reply s .ok (if reads s .ref then 1 else 0)] }

/-- 43_sequencer_reference.md R180: MOVEAWAY with a distance that is not negative reads the travels of the fixed axes that
exist and posts one relative move, each distance clamped to half the travel, whatever `AXIS` is; a negative distance is
refused with ILLEGAL, with which the model goes on (log 5). No register changes either way. -/
def Obligations.MoveawayPostsOneClampedMove : Prop :=
  ∀ (axis dist maxRate) (s : State),
    let d := fun k => if k < s.cfg.naxis then min dist.toNat ((s.cfg.maxTravel k).toNat / 2) else 0
    let travelReads := ((List.range 3).filter fun k => k < s.cfg.naxis).map fun k => Event.cfgRd .maxTravel k (s.cfg.maxTravel k)
    (0 ≤ dist.toInt → exec (.moveaway axis dist maxRate) s = .next { s with
      trace := s.trace ++ travelReads ++ [.engReq (.moveRel3 (d 0) (d 1) (d 2) maxRate), reply s .ok 0] }) ∧
    (dist.toInt < 0 → exec (.moveaway axis dist maxRate) s = .next { s with trace := s.trace ++ [reply s .illegal 0] })

/-- 43_sequencer_reference.md R181, the source's law: along every run, no relative move the block requests goes beyond half
the travel of any of the fixed axes. -/
def Obligations.StepKeepsMovesClamped : Prop :=
  ∀ s t : State, step s = .next t → MovesClamped s → MovesClamped t

/-! ### Supervisor -/

/-- 44_supervisor_fsm.md R198: SUPINIT loads the configuration, initialises the sequencer, then the engine, sets Running
unless Killed, clears the hold diagnostic, samples nothing and leaves the kill diagnostic, the tools and HOMING alone. That
its INIT part latches exactly one byte under `INIT_SPURIOUS_LATCH` is the model's choice (log 10). -/
def Obligations.SupinitResult : Prop :=
  ∀ s : State,
    let axes := s.cfg.axis.map fun p => (⟨0, .off, p.stepModeInit⟩ : AxisRegs)
    let mode : CtlMode := if s.ctl = .killed then .killed else .running
    (s.cfg.initSpuriousLatch = false →
      exec .supinit s = .next { s with
        claimed := true, strobe := true, idle := .low, axes := axes, ctl := mode, diagHold := false,
        trace := s.trace ++ [.engReq .cfgLoad, .oe true, .engReq .engInit, reply s .ok 0] }) ∧
    (s.cfg.initSpuriousLatch = true →
      ∃ b, exec .supinit s = .next { s with
        claimed := true, strobe := true, idle := .low, axes := axes, ctl := mode, diagHold := false,
        chip := chipAfter s.cfg b s.chip, freeIx := s.freeIx + 1,
        trace := s.trace ++ [.engReq .cfgLoad, .oe true, .latch b, .engReq .engInit, reply s .ok 0] })

/-- 44_supervisor_fsm.md R191: the transition table of one POLL, row by row, from every state whose kill diagnostic shows the
mode (which every reachable state's does, R37). -/
def Obligations.PollFollowsTheTransitionTable : Prop :=
  ∀ s : State, s.diagKill = decide (s.ctl = .killed) →
    let k := reads s .kill || reads s .intKill
    let r := reads s .resume || reads s .holdResume
    let h := reads s .hold || reads s .holdResume
    ∃ t, exec .poll s = .next t ∧
      (t.ctl, t.diagHold, t.diagKill) =
        (match s.ctl, k, r, h with
          | .killed, _, _, _ => (CtlMode.killed, s.diagHold, true)
          | _, true, _, _ => (.killed, s.diagHold, true)
          | .held, false, true, _ => (.running, false, s.diagKill)
          | .held, false, false, _ => (.held, s.diagHold, s.diagKill)
          | .running, false, _, true => (.held, true, s.diagKill)
          | .running, false, _, false => (.running, s.diagHold, s.diagKill))

/-- 44_supervisor_fsm.md R200, R194: what POLL shows and leaves alone: the engine's poll, the two kill samples, the tool pins
that a forced-off transition changes, the three other samples, the response; and no register besides the mode, the two
diagnostics and the tool levels. -/
def Obligations.PollTraceAndFrame : Prop :=
  ∀ s : State,
    let k := reads s .kill || reads s .intKill
    let off := k = true ∧ s.cfg.killTools = .forceOff ∧ s.ctl ≠ .killed
    let tools := if off then { s.tools with spindle := 0, coolant := 0, fan := 0 } else s.tools
    ∃ t, exec .poll s = .next t ∧
      t = { s with ctl := t.ctl, diagHold := t.diagHold, diagKill := t.diagKill, tools := tools, trace := t.trace } ∧
      t.trace = s.trace ++ [.engReq .engPoll, sampled s .kill, sampled s .intKill] ++
        (if off then
          (if s.tools.spindle ≠ 0 then [.toolPin .spindleOn 0] else []) ++
          (if s.tools.coolant ≠ 0 then [.toolPin .coolantOn 0] else []) ++
          (if s.tools.fan ≠ 0 then [.toolPin .fanLevel 0] else [])
        else []) ++
        [sampled s .resume, sampled s .hold, sampled s .holdResume, reply s .ok 0]

/-- 44_supervisor_fsm.md R203, R194: ISKILLED samples the two kill pins, sets the latch if either is active, turns the tools
off under `force_off` on the transition, each pin that changes logged in pin order, and answers 1 exactly when the mode is then
Killed. -/
def Obligations.IskilledAnswersTheLatch : Prop :=
  ∀ s : State,
    let k := reads s .kill || reads s .intKill
    let off := k = true ∧ s.cfg.killTools = .forceOff ∧ s.ctl ≠ .killed
    exec .iskilled s = .next { s with
      ctl := if k then .killed else s.ctl, diagKill := if k then true else s.diagKill,
      tools := if off then { s.tools with spindle := 0, coolant := 0, fan := 0 } else s.tools,
      trace := s.trace ++ [sampled s .kill, sampled s .intKill] ++
        (if off then
          (if s.tools.spindle ≠ 0 then [.toolPin .spindleOn 0] else []) ++
          (if s.tools.coolant ≠ 0 then [.toolPin .coolantOn 0] else []) ++
          (if s.tools.fan ≠ 0 then [.toolPin .fanLevel 0] else [])
        else []) ++
        [reply s .ok (if k = true ∨ s.ctl = .killed then 1 else 0)] }

/-- 44_supervisor_fsm.md R206, R194: EVENT samples the two kill pins, sets the latch if either is active or the event is the
kill hook, turns the tools off under `force_off` on the transition, each pin that changes logged in pin order, then posts the
default handling with its operands untouched. -/
def Obligations.EventSamplesKillThenForwards : Prop :=
  ∀ (etype info) (s : State),
    let k := reads s .kill || reads s .intKill || etype == 0
    let off := k = true ∧ s.cfg.killTools = .forceOff ∧ s.ctl ≠ .killed
    exec (.event etype info) s = .next { s with
      ctl := if k then .killed else s.ctl, diagKill := if k then true else s.diagKill,
      tools := if off then { s.tools with spindle := 0, coolant := 0, fan := 0 } else s.tools,
      trace := s.trace ++ [sampled s .kill, sampled s .intKill] ++
        (if off then
          (if s.tools.spindle ≠ 0 then [.toolPin .spindleOn 0] else []) ++
          (if s.tools.coolant ≠ 0 then [.toolPin .coolantOn 0] else []) ++
          (if s.tools.fan ≠ 0 then [.toolPin .fanLevel 0] else [])
        else []) ++
        [.engReq (.eventDefault etype info), reply s .ok 0] }

/-- 44_supervisor_fsm.md R190, R194: Killed is terminal: whatever the block does next, short of reset, it stays Killed and
shows it. -/
def Obligations.KilledIsTerminal : Prop :=
  ∀ s t : State, s.ext.rst = false → s.ctl = .killed → s.diagKill = true → step s = .next t →
    t.ctl = .killed ∧ t.diagKill = true

/-- 44_supervisor_fsm.md R190, R198: the mode changes only in the commands the spec names: into Held only from Running in
POLL, into Running only from Held in POLL or SUPINIT, into Killed only in POLL, ISKILLED or EVENT on a kill condition. -/
def Obligations.ModeChangesOnlyWhereTheSpecSays : Prop :=
  ∀ (i : Instr) (s t : State), exec i s = .next t → t.ctl ≠ s.ctl →
    (t.ctl = .held ∧ s.ctl = .running ∧ i = .poll ∧ (reads s .hold || reads s .holdResume) = true) ∨
      (t.ctl = .running ∧ s.ctl = .held ∧
        (i = .supinit ∨ (i = .poll ∧ (reads s .resume || reads s .holdResume) = true))) ∨
      (t.ctl = .killed ∧
        (((i = .poll ∨ i = .iskilled ∨ ∃ e n, i = .event e n) ∧ (reads s .kill || reads s .intKill) = true) ∨
          ∃ n, i = .event 0 n))

/-- 60_exceptions.md R262: no command but SUPINIT, POLL, ISKILLED and EVENT reads or writes the mode or the diagnostics: with
any other values of the three the same command does the same. -/
def Obligations.ModeGatesNothing : Prop :=
  ∀ (i : Instr) (s t : State) (mode : CtlMode) (hold kill : Bool), i.usesMode = false → exec i s = .next t →
    t.ctl = s.ctl ∧ t.diagHold = s.diagHold ∧ t.diagKill = s.diagKill ∧
      exec i { s with ctl := mode, diagHold := hold, diagKill := kill } =
        .next { t with ctl := mode, diagHold := hold, diagKill := kill }

/-- 10_state.md R26, 60_exceptions.md R266: no command but the sequencer's own (and SUPINIT, which issues INIT) touches the
accumulators, levels, step modes, the idle level, the claim, the port, the strobe or the chip; and the sequencer's own touch
no supervisor register: neither the mode, the two diagnostics, the tools nor HOMING. SUPINIT, which is both, leaves the kill
diagnostic, the tools and HOMING alone. -/
def Obligations.OwnershipOfTheRegisters : Prop :=
  ∀ (i : Instr) (s t : State), exec i s = .next t →
    (i.drivesSequencer = false → t.axes = s.axes ∧ t.idle = s.idle ∧ t.claimed = s.claimed ∧ t.outPort = s.outPort ∧
      t.strobe = s.strobe ∧ t.chip = s.chip) ∧
    (i.drivesSequencer = true → t.tools = s.tools ∧ t.homing = s.homing ∧ t.call = s.call ∧ t.diagKill = s.diagKill) ∧
    (i.drivesSequencer = true → i ≠ .supinit → t.ctl = s.ctl ∧ t.diagHold = s.diagHold) ∧
    t.cfg = s.cfg ∧ t.curPort = s.curPort ∧ ((∀ tool, i ≠ .toolrd tool) → t.ext = s.ext)

/-- 41_sequencer_step.md R142, 20_memory.md R62: the port is written only by an emission, that is by STEP or a forced
SETLEVEL, and only while the lines are claimed. -/
def Obligations.OnlyEmissionsWriteThePort : Prop :=
  ∀ (i : Instr) (s t : State), exec i s = .next t →
    ∃ es, t.trace = s.trace ++ es ∧
      ((∃ b, Event.portWr b ∈ es) ∨ t.outPort ≠ s.outPort →
        s.claimed = true ∧ ((∃ c d, i = .step c d) ∨ ∃ a l, i = .setlevel a l true))

/-! ### Tools -/

/-- 45_supervisor_tools.md R222: TOOLWR of each recognised code writes its register as it stands and logs the pins that
change, in pin order; a probe write changes nothing; any other code goes to the engine with status FALLTHROUGH. -/
def Obligations.ToolwrResult : Prop :=
  ∀ (tool level : Byte) (s : State),
    let onPin := if decide (s.tools.spindle ≠ 0) = decide (level ≠ 0) then [] else
      [Event.toolPin .spindleOn (if level = 0 then 0 else 1)]
    (tool = 0 → exec (.toolwr tool level) s = .next { s with
      tools := { s.tools with spindle := level, spdir := false },
      trace := s.trace ++ onPin ++ (if s.tools.spdir then [.toolPin .spindleCcw 0] else []) ++ [reply s .ok 0] }) ∧
    (tool = 1 → exec (.toolwr tool level) s = .next { s with
      tools := { s.tools with spindle := level, spdir := true },
      trace := s.trace ++ onPin ++ (if s.tools.spdir then [] else [.toolPin .spindleCcw 1]) ++ [reply s .ok 0] }) ∧
    (tool = 2 → exec (.toolwr tool level) s = .next { s with trace := s.trace ++ [reply s .ok 0] }) ∧
    (tool = 3 → exec (.toolwr tool level) s = .next { s with
      tools := { s.tools with coolant := level },
      trace := s.trace ++ (if decide (s.tools.coolant ≠ 0) = decide (level ≠ 0) then [] else
        [.toolPin .coolantOn (if level = 0 then 0 else 1)]) ++ [reply s .ok 0] }) ∧
    (tool = 4 → exec (.toolwr tool level) s = .next { s with
      tools := { s.tools with fan := level },
      trace := s.trace ++ (if s.tools.fan = level then [] else [.toolPin .fanLevel level]) ++ [reply s .ok 0] }) ∧
    (5 ≤ tool.toNat → exec (.toolwr tool level) s = .next { s with
      trace := s.trace ++ [.engReq (.toolWrGeneric tool level), reply s .fallthrough 0] })

/-- 45_supervisor_tools.md R228, its pseudocode: TOOLRD answers the register (a spindle identifier 0 when the spindle was last
commanded the other way), or one sample of the probe, and changes nothing; an unrecognised code asks the engine: with an
answer at hand it responds FALLTHROUGH with the answer's data, whatever the answer's `ok`, and without one it waits inside
the command (20_memory.md R68; how a waiting call stands in the state is log 8). -/
def Obligations.ToolrdResult : Prop :=
  ∀ (tool : Byte) (s : State),
    let answer := fun w : Byte => exec (.toolrd tool) s = .next { s with trace := s.trace ++ [reply s .ok (w.setWidth 32)] }
    let asked := Event.engReq (.toolRdGeneric tool)
    (tool = 0 → answer (if s.tools.spdir then 0 else s.tools.spindle)) ∧
    (tool = 1 → answer (if s.tools.spdir then s.tools.spindle else 0)) ∧
    (tool = 2 → exec (.toolrd tool) s = .next { s with
      trace := s.trace ++ [sampled s .probe, reply s .ok (if reads s .probe then 1 else 0)] }) ∧
    (tool = 3 → answer s.tools.coolant) ∧ (tool = 4 → answer s.tools.fan) ∧
    (∀ a rest, 5 ≤ tool.toNat → s.ext.answers = a :: rest → exec (.toolrd tool) s = .next { s with
      call := none, ext := { s.ext with answers := rest },
      trace := s.trace ++ [asked, .engRsp .toolRdGeneric a.ok a.data, reply s .fallthrough a.data] }) ∧
    (5 ≤ tool.toNat → s.ext.answers = [] → exec (.toolrd tool) s = .next { s with
      call := some ⟨s.curPort, tool⟩, trace := s.trace ++ [asked] })

/-- 45_supervisor_tools.md R231: TOOLWR of coolant or fan, then any commands with no TOOLWR to the same tool and, under
`force_off`, no kill, then TOOLRD answers what was written; and a spindle write is read back by its own identifier while
the other identifier reads 0. -/
def Obligations.ToolWriteIsReadBack : Prop :=
  ∀ (x : Byte) (s : State),
    (∀ (tool : Tool) (between : List Instr) (t u : State), tool = .coolant ∨ tool = .controllerFan →
      exec (.toolwr tool.code x) s = .next t → execAll between t = .next u →
        (∀ i ∈ between, i.writesTool tool = false) →
        (s.cfg.killTools = .retain ∨ u.ctl ≠ .killed ∨ t.ctl = .killed) →
          exec (.toolrd tool.code) u = .next { u with trace := u.trace ++ [reply u .ok (x.setWidth 32)] }) ∧
    (∀ t, exec (.toolwr 0 x) s = .next t →
      exec (.toolrd 0) t = .next { t with trace := t.trace ++ [reply t .ok (x.setWidth 32)] } ∧
        exec (.toolrd 1) t = .next { t with trace := t.trace ++ [reply t .ok 0] }) ∧
    (∀ t, exec (.toolwr 1 x) s = .next t →
      exec (.toolrd 1) t = .next { t with trace := t.trace ++ [reply t .ok (x.setWidth 32)] } ∧
        exec (.toolrd 0) t = .next { t with trace := t.trace ++ [reply t .ok 0] })

/-! ### Homing -/

/-- 46_supervisor_homing.md R241: GOREF of an axis in range, with no sequence in flight, takes the record and requests the fast
pass, with no response yet; out of range, or with a sequence in flight, it answers ILLEGAL and changes nothing (log 5). -/
def Obligations.GorefStartsOneSequence : Prop :=
  ∀ (axis : Byte) (toMin : Bool) (s : State),
    (axis.toNat < s.cfg.naxis → s.homing.pass = .idle → exec (.goref axis toMin) s = .next { s with
      homing := ⟨.fast, axis, toMin, s.curPort⟩, trace := s.trace ++ [.engReq (.home axis toMin s.cfg.rateFast)] }) ∧
    (s.cfg.naxis ≤ axis.toNat ∨ s.homing.pass ≠ .idle →
      exec (.goref axis toMin) s = .next { s with trace := s.trace ++ [reply s .illegal 0] })

/-- 46_supervisor_homing.md R244: along every run without a reset, each accepted GOREF makes one request at the fast rate and
at most one at the slow rate, and is answered by exactly one deferred response once its sequence has ended. -/
def Obligations.StepKeepsTheHomingBooks : Prop :=
  ∀ s t : State, s.cfg.rateSlow < s.cfg.rateFast → s.ext.rst = false → step s = .next t → HomingBooks s → HomingBooks t

/-! ### Whole-machine claims -/

/-- Every step of a state that meets the invariant gives a state that meets it. -/
def Obligations.StepKeepsTheInvariant : Prop := ∀ s t : State, BlockInv s → step s = .next t → BlockInv t

/-- 41_sequencer_step.md R147 (P2), 93 U1: along every run of a block without a spurious latch, every byte the chip latches is
a table byte of some axis, mode, level and index plus that axis's address bits. -/
def Obligations.StepLatchesOnlyLegalBytes : Prop :=
  ∀ s t : State, BlockInv s → s.cfg.initSpuriousLatch = false → step s = .next t → LatchesLegal s → LatchesLegal t

/-- Every step answers a next state, the parameters never change, and the trace and the recorded faults only grow: that
no step stops, and that both are kept, is the model's choice (logs 4, 5 and 11). -/
def Obligations.EveryStepGoesOnAndTheTraceOnlyGrows : Prop :=
  ∀ s : State, ∃ t es fs, step s = .next t ∧ t.cfg = s.cfg ∧ t.trace = s.trace ++ es ∧ t.faults = s.faults ++ fs

/-- 00_scope.md R8 (V4), R12: nothing reads the Mid rows of a reduced build: with any other codes in them, every command does
the same. -/
def Obligations.ReducedBuildNeverReadsTheMidRows : Prop :=
  ∀ (i : Instr) (s t : State) (full : Vector Byte 4) (half : Vector Byte 8), BlockInv s → s.cfg.reduced = true →
    exec i s = .next t →
      let cfg' := { s.cfg with lutFull := { s.cfg.lutFull with mid := full }, lutHalf := { s.cfg.lutHalf with mid := half } }
      exec i { s with cfg := cfg' } = .next { t with cfg := cfg' }

/-- 30_encoding.md R111, 60_exceptions.md R266: either port accepts every command, and no register but the port of a homing
sequence or of a waiting call depends on which it came from. -/
def Obligations.PortDoesNotChangeTheEffect : Prop :=
  ∀ (i : Instr) (s t : State) (p : CmdPort), exec i s = .next t →
    ∃ t', exec i { s with curPort := p } = .next t' ∧
      t' = { t with
        curPort := p, trace := t'.trace,
        homing := { t.homing with port := t'.homing.port }, call := t.call.map fun c => { c with port := (t'.call.getD c).port } }
end

