-- ==== Sys2Proof/Laws/State.lean ====
section
/-! SUPPORT. One lemma for each field of each basic update, true by unfolding, so that no later proof unfolds a record
update. -/

namespace Sys2Proof.Machine

/-- `Respond` is one entry of the trace. -/
theorem respond_eq (st : Status) (d : Word) (s : State) : respond st d s = s.log [reply s st d] := rfl

/-- A posted request is one entry of the trace. -/
theorem engPost_eq (r : EngReq) (s : State) : engPost r s = s.log [.engReq r] := rfl

/-- A sample is one entry of the trace. -/
theorem sample_eq (p : InPin) (s : State) : sample p s = s.log [sampled s p] := rfl

/-- A refused form is one ILLEGAL response. -/
theorem refuseForm_eq (s : State) : refuseForm s = s.log [reply s .illegal 0] := rfl

/-- A pin is active exactly when it reads so. -/
theorem pinActive_eq (p : InPin) (s : State) : pinActive p s = reads s p := rfl

/-- Two runs of entries are one. -/
@[simp] theorem log_log (s : State) (es fs : List Event) : (s.log es).log fs = s.log (es ++ fs) := by
  simp [State.log, List.append_assoc]

/-- An emission (R142), as one update. -/
theorem emit_eq (a : Nat) (s : State) :
    emit a s = { s with
      outPort := outByte s a, strobe := true, chip := chipAfter s.cfg (outByte s a) s.chip,
      trace := s.trace ++ emission (outByte s a) } := by
  simp [emit, pinWriteStrobe, memWritePort, latch, State.log, emission]

@[simp] theorem log_cfg (s : State) (es : List Event) : (s.log es).cfg = s.cfg := rfl
@[simp] theorem log_axes (s : State) (es : List Event) : (s.log es).axes = s.axes := rfl
@[simp] theorem log_idle (s : State) (es : List Event) : (s.log es).idle = s.idle := rfl
@[simp] theorem log_claimed (s : State) (es : List Event) : (s.log es).claimed = s.claimed := rfl
@[simp] theorem log_outPort (s : State) (es : List Event) : (s.log es).outPort = s.outPort := rfl
@[simp] theorem log_strobe (s : State) (es : List Event) : (s.log es).strobe = s.strobe := rfl
@[simp] theorem log_ctl (s : State) (es : List Event) : (s.log es).ctl = s.ctl := rfl
@[simp] theorem log_diagHold (s : State) (es : List Event) : (s.log es).diagHold = s.diagHold := rfl
@[simp] theorem log_diagKill (s : State) (es : List Event) : (s.log es).diagKill = s.diagKill := rfl
@[simp] theorem log_tools (s : State) (es : List Event) : (s.log es).tools = s.tools := rfl
@[simp] theorem log_homing (s : State) (es : List Event) : (s.log es).homing = s.homing := rfl
@[simp] theorem log_call (s : State) (es : List Event) : (s.log es).call = s.call := rfl
@[simp] theorem log_chip (s : State) (es : List Event) : (s.log es).chip = s.chip := rfl
@[simp] theorem log_trace (s : State) (es : List Event) : (s.log es).trace = s.trace ++ es := rfl
@[simp] theorem log_faults (s : State) (es : List Event) : (s.log es).faults = s.faults := rfl
@[simp] theorem log_curPort (s : State) (es : List Event) : (s.log es).curPort = s.curPort := rfl
@[simp] theorem log_freeIx (s : State) (es : List Event) : (s.log es).freeIx = s.freeIx := rfl
@[simp] theorem log_ext (s : State) (es : List Event) : (s.log es).ext = s.ext := rfl

@[simp] theorem setAxis_cfg (s : State) (a : Nat) (r : AxisRegs) : (s.setAxis a r).cfg = s.cfg := rfl
@[simp] theorem setAxis_axes (s : State) (a : Nat) (r : AxisRegs) : (s.setAxis a r).axes = s.axes.set a r := rfl
@[simp] theorem setAxis_idle (s : State) (a : Nat) (r : AxisRegs) : (s.setAxis a r).idle = s.idle := rfl
@[simp] theorem setAxis_claimed (s : State) (a : Nat) (r : AxisRegs) : (s.setAxis a r).claimed = s.claimed := rfl
@[simp] theorem setAxis_outPort (s : State) (a : Nat) (r : AxisRegs) : (s.setAxis a r).outPort = s.outPort := rfl
@[simp] theorem setAxis_strobe (s : State) (a : Nat) (r : AxisRegs) : (s.setAxis a r).strobe = s.strobe := rfl
@[simp] theorem setAxis_ctl (s : State) (a : Nat) (r : AxisRegs) : (s.setAxis a r).ctl = s.ctl := rfl
@[simp] theorem setAxis_diagHold (s : State) (a : Nat) (r : AxisRegs) : (s.setAxis a r).diagHold = s.diagHold := rfl
@[simp] theorem setAxis_diagKill (s : State) (a : Nat) (r : AxisRegs) : (s.setAxis a r).diagKill = s.diagKill := rfl
@[simp] theorem setAxis_tools (s : State) (a : Nat) (r : AxisRegs) : (s.setAxis a r).tools = s.tools := rfl
@[simp] theorem setAxis_homing (s : State) (a : Nat) (r : AxisRegs) : (s.setAxis a r).homing = s.homing := rfl
@[simp] theorem setAxis_call (s : State) (a : Nat) (r : AxisRegs) : (s.setAxis a r).call = s.call := rfl
@[simp] theorem setAxis_chip (s : State) (a : Nat) (r : AxisRegs) : (s.setAxis a r).chip = s.chip := rfl
@[simp] theorem setAxis_trace (s : State) (a : Nat) (r : AxisRegs) : (s.setAxis a r).trace = s.trace := rfl
@[simp] theorem setAxis_faults (s : State) (a : Nat) (r : AxisRegs) : (s.setAxis a r).faults = s.faults := rfl
@[simp] theorem setAxis_curPort (s : State) (a : Nat) (r : AxisRegs) : (s.setAxis a r).curPort = s.curPort := rfl
@[simp] theorem setAxis_freeIx (s : State) (a : Nat) (r : AxisRegs) : (s.setAxis a r).freeIx = s.freeIx := rfl
@[simp] theorem setAxis_ext (s : State) (a : Nat) (r : AxisRegs) : (s.setAxis a r).ext = s.ext := rfl

@[simp] theorem latch_cfg (s : State) (b : Byte) : (latch b s).cfg = s.cfg := rfl
@[simp] theorem latch_axes (s : State) (b : Byte) : (latch b s).axes = s.axes := rfl
@[simp] theorem latch_idle (s : State) (b : Byte) : (latch b s).idle = s.idle := rfl
@[simp] theorem latch_claimed (s : State) (b : Byte) : (latch b s).claimed = s.claimed := rfl
@[simp] theorem latch_outPort (s : State) (b : Byte) : (latch b s).outPort = s.outPort := rfl
@[simp] theorem latch_strobe (s : State) (b : Byte) : (latch b s).strobe = s.strobe := rfl
@[simp] theorem latch_ctl (s : State) (b : Byte) : (latch b s).ctl = s.ctl := rfl
@[simp] theorem latch_diagHold (s : State) (b : Byte) : (latch b s).diagHold = s.diagHold := rfl
@[simp] theorem latch_diagKill (s : State) (b : Byte) : (latch b s).diagKill = s.diagKill := rfl
@[simp] theorem latch_tools (s : State) (b : Byte) : (latch b s).tools = s.tools := rfl
@[simp] theorem latch_homing (s : State) (b : Byte) : (latch b s).homing = s.homing := rfl
@[simp] theorem latch_call (s : State) (b : Byte) : (latch b s).call = s.call := rfl
@[simp] theorem latch_chip (s : State) (b : Byte) : (latch b s).chip = chipAfter s.cfg b s.chip := rfl
@[simp] theorem latch_trace (s : State) (b : Byte) : (latch b s).trace = s.trace ++ [.latch b] := rfl
@[simp] theorem latch_faults (s : State) (b : Byte) : (latch b s).faults = s.faults := rfl
@[simp] theorem latch_curPort (s : State) (b : Byte) : (latch b s).curPort = s.curPort := rfl
@[simp] theorem latch_freeIx (s : State) (b : Byte) : (latch b s).freeIx = s.freeIx := rfl
@[simp] theorem latch_ext (s : State) (b : Byte) : (latch b s).ext = s.ext := rfl

@[simp] theorem memWritePort_cfg (s : State) (b : Byte) : (memWritePort b s).cfg = s.cfg := rfl
@[simp] theorem memWritePort_axes (s : State) (b : Byte) : (memWritePort b s).axes = s.axes := rfl
@[simp] theorem memWritePort_idle (s : State) (b : Byte) : (memWritePort b s).idle = s.idle := rfl
@[simp] theorem memWritePort_claimed (s : State) (b : Byte) : (memWritePort b s).claimed = s.claimed := rfl
@[simp] theorem memWritePort_outPort (s : State) (b : Byte) : (memWritePort b s).outPort = b := rfl
@[simp] theorem memWritePort_strobe (s : State) (b : Byte) : (memWritePort b s).strobe = s.strobe := rfl
@[simp] theorem memWritePort_ctl (s : State) (b : Byte) : (memWritePort b s).ctl = s.ctl := rfl
@[simp] theorem memWritePort_diagHold (s : State) (b : Byte) : (memWritePort b s).diagHold = s.diagHold := rfl
@[simp] theorem memWritePort_diagKill (s : State) (b : Byte) : (memWritePort b s).diagKill = s.diagKill := rfl
@[simp] theorem memWritePort_tools (s : State) (b : Byte) : (memWritePort b s).tools = s.tools := rfl
@[simp] theorem memWritePort_homing (s : State) (b : Byte) : (memWritePort b s).homing = s.homing := rfl
@[simp] theorem memWritePort_call (s : State) (b : Byte) : (memWritePort b s).call = s.call := rfl
@[simp] theorem memWritePort_chip (s : State) (b : Byte) : (memWritePort b s).chip = s.chip := rfl
@[simp] theorem memWritePort_trace (s : State) (b : Byte) : (memWritePort b s).trace = s.trace ++ [.portWr b] := rfl
@[simp] theorem memWritePort_faults (s : State) (b : Byte) : (memWritePort b s).faults = s.faults := rfl
@[simp] theorem memWritePort_curPort (s : State) (b : Byte) : (memWritePort b s).curPort = s.curPort := rfl
@[simp] theorem memWritePort_freeIx (s : State) (b : Byte) : (memWritePort b s).freeIx = s.freeIx := rfl
@[simp] theorem memWritePort_ext (s : State) (b : Byte) : (memWritePort b s).ext = s.ext := rfl

@[simp] theorem setTools_cfg (s : State) (t : ToolRegs) : (setTools t s).cfg = s.cfg := rfl
@[simp] theorem setTools_axes (s : State) (t : ToolRegs) : (setTools t s).axes = s.axes := rfl
@[simp] theorem setTools_idle (s : State) (t : ToolRegs) : (setTools t s).idle = s.idle := rfl
@[simp] theorem setTools_claimed (s : State) (t : ToolRegs) : (setTools t s).claimed = s.claimed := rfl
@[simp] theorem setTools_outPort (s : State) (t : ToolRegs) : (setTools t s).outPort = s.outPort := rfl
@[simp] theorem setTools_strobe (s : State) (t : ToolRegs) : (setTools t s).strobe = s.strobe := rfl
@[simp] theorem setTools_ctl (s : State) (t : ToolRegs) : (setTools t s).ctl = s.ctl := rfl
@[simp] theorem setTools_diagHold (s : State) (t : ToolRegs) : (setTools t s).diagHold = s.diagHold := rfl
@[simp] theorem setTools_diagKill (s : State) (t : ToolRegs) : (setTools t s).diagKill = s.diagKill := rfl
@[simp] theorem setTools_tools (s : State) (t : ToolRegs) : (setTools t s).tools = t := rfl
@[simp] theorem setTools_homing (s : State) (t : ToolRegs) : (setTools t s).homing = s.homing := rfl
@[simp] theorem setTools_call (s : State) (t : ToolRegs) : (setTools t s).call = s.call := rfl
@[simp] theorem setTools_chip (s : State) (t : ToolRegs) : (setTools t s).chip = s.chip := rfl
@[simp] theorem setTools_trace (s : State) (t : ToolRegs) : (setTools t s).trace = s.trace ++ toolPinChanges s.tools t := rfl
@[simp] theorem setTools_faults (s : State) (t : ToolRegs) : (setTools t s).faults = s.faults := rfl
@[simp] theorem setTools_curPort (s : State) (t : ToolRegs) : (setTools t s).curPort = s.curPort := rfl
@[simp] theorem setTools_freeIx (s : State) (t : ToolRegs) : (setTools t s).freeIx = s.freeIx := rfl
@[simp] theorem setTools_ext (s : State) (t : ToolRegs) : (setTools t s).ext = s.ext := rfl

@[simp] theorem emit_cfg (s : State) (a : Nat) : (emit a s).cfg = s.cfg := by rw [emit_eq]
@[simp] theorem emit_axes (s : State) (a : Nat) : (emit a s).axes = s.axes := by rw [emit_eq]
@[simp] theorem emit_idle (s : State) (a : Nat) : (emit a s).idle = s.idle := by rw [emit_eq]
@[simp] theorem emit_claimed (s : State) (a : Nat) : (emit a s).claimed = s.claimed := by rw [emit_eq]
@[simp] theorem emit_outPort (s : State) (a : Nat) : (emit a s).outPort = outByte s a := by rw [emit_eq]
@[simp] theorem emit_strobe (s : State) (a : Nat) : (emit a s).strobe = true := by rw [emit_eq]
@[simp] theorem emit_ctl (s : State) (a : Nat) : (emit a s).ctl = s.ctl := by rw [emit_eq]
@[simp] theorem emit_diagHold (s : State) (a : Nat) : (emit a s).diagHold = s.diagHold := by rw [emit_eq]
@[simp] theorem emit_diagKill (s : State) (a : Nat) : (emit a s).diagKill = s.diagKill := by rw [emit_eq]
@[simp] theorem emit_tools (s : State) (a : Nat) : (emit a s).tools = s.tools := by rw [emit_eq]
@[simp] theorem emit_homing (s : State) (a : Nat) : (emit a s).homing = s.homing := by rw [emit_eq]
@[simp] theorem emit_call (s : State) (a : Nat) : (emit a s).call = s.call := by rw [emit_eq]
@[simp] theorem emit_chip (s : State) (a : Nat) : (emit a s).chip = chipAfter s.cfg (outByte s a) s.chip := by rw [emit_eq]
@[simp] theorem emit_trace (s : State) (a : Nat) : (emit a s).trace = s.trace ++ emission (outByte s a) := by rw [emit_eq]
@[simp] theorem emit_faults (s : State) (a : Nat) : (emit a s).faults = s.faults := by rw [emit_eq]
@[simp] theorem emit_curPort (s : State) (a : Nat) : (emit a s).curPort = s.curPort := by rw [emit_eq]
@[simp] theorem emit_freeIx (s : State) (a : Nat) : (emit a s).freeIx = s.freeIx := by rw [emit_eq]
@[simp] theorem emit_ext (s : State) (a : Nat) : (emit a s).ext = s.ext := by rw [emit_eq]

end Sys2Proof.Machine
end

