-- ==== Sys2Proof/Laws/Ops.lean ====
section
/-! SUPPORT. What each shared operation can do, said once: the per-axis registers, the chip's view, the tool pins, the kill
latch and the initialisation of the sequencer. -/

namespace Sys2Proof.Machine

/-! ### Per-axis registers -/

/-- Reading an axis after writing one. -/
theorem axisRegs_setAxis (s : State) (a b : Nat) (r : AxisRegs) :
    (s.setAxis a r).axisRegs b = if b = a ∧ a < s.axes.length then r else s.axisRegs b := by
  simp only [State.axisRegs, setAxis_axes, List.getD_eq_getElem?_getD, List.getElem?_set]
  split_ifs with h1 h2 h3 <;> simp_all

/-- Writing an axis keeps the number of axes. -/
@[simp] theorem setAxis_axes_length (s : State) (a : Nat) (r : AxisRegs) : (s.setAxis a r).axes.length = s.axes.length := by
  simp

/-- The accumulators after `PHASE[a] <- v`. -/
theorem phase_setPhase (s : State) (a b : Nat) (v : BitVec 3) :
    (s.setPhase a v).phase b = if b = a ∧ a < s.axes.length then v else s.phase b := by
  simp only [State.phase, State.setPhase, axisRegs_setAxis]; split_ifs <;> rfl

/-- `PHASE[a] <- v` changes no level. -/
@[simp] theorem level_setPhase (s : State) (a b : Nat) (v : BitVec 3) : (s.setPhase a v).level b = s.level b := by
  simp only [State.level, State.setPhase, axisRegs_setAxis]; split_ifs with h
  · obtain ⟨rfl, -⟩ := h; rfl
  · rfl

/-- `PHASE[a] <- v` changes no step mode. -/
@[simp] theorem stepMode_setPhase (s : State) (a b : Nat) (v : BitVec 3) : (s.setPhase a v).stepMode b = s.stepMode b := by
  simp only [State.stepMode, State.setPhase, axisRegs_setAxis]; split_ifs with h
  · obtain ⟨rfl, -⟩ := h; rfl
  · rfl

/-- The levels after `LEVEL[a] <- v`. -/
theorem level_setLevel (s : State) (a b : Nat) (v : Level) :
    (s.setLevel a v).level b = if b = a ∧ a < s.axes.length then v else s.level b := by
  simp only [State.level, State.setLevel, axisRegs_setAxis]; split_ifs <;> rfl

/-- `LEVEL[a] <- v` changes no accumulator. -/
@[simp] theorem phase_setLevel (s : State) (a b : Nat) (v : Level) : (s.setLevel a v).phase b = s.phase b := by
  simp only [State.phase, State.setLevel, axisRegs_setAxis]; split_ifs with h
  · obtain ⟨rfl, -⟩ := h; rfl
  · rfl

/-- `LEVEL[a] <- v` changes no step mode. -/
@[simp] theorem stepMode_setLevel (s : State) (a b : Nat) (v : Level) : (s.setLevel a v).stepMode b = s.stepMode b := by
  simp only [State.stepMode, State.setLevel, axisRegs_setAxis]; split_ifs with h
  · obtain ⟨rfl, -⟩ := h; rfl
  · rfl

/-- The step modes after `STEPMODE[a] <- v`. -/
theorem stepMode_setStepMode (s : State) (a b : Nat) (v : StepMode) :
    (s.setStepMode a v).stepMode b = if b = a ∧ a < s.axes.length then v else s.stepMode b := by
  simp only [State.stepMode, State.setStepMode, axisRegs_setAxis]; split_ifs <;> rfl

/-- `STEPMODE[a] <- v` changes no accumulator (R27). -/
@[simp] theorem phase_setStepMode (s : State) (a b : Nat) (v : StepMode) : (s.setStepMode a v).phase b = s.phase b := by
  simp only [State.phase, State.setStepMode, axisRegs_setAxis]; split_ifs with h
  · obtain ⟨rfl, -⟩ := h; rfl
  · rfl

/-- `STEPMODE[a] <- v` changes no level. -/
@[simp] theorem level_setStepMode (s : State) (a b : Nat) (v : StepMode) : (s.setStepMode a v).level b = s.level b := by
  simp only [State.level, State.setStepMode, axisRegs_setAxis]; split_ifs with h
  · obtain ⟨rfl, -⟩ := h; rfl
  · rfl

/-! The registers of an axis after an operation that does not write them. -/

@[simp] theorem axisRegs_log (s : State) (es : List Event) (a : Nat) : (s.log es).axisRegs a = s.axisRegs a := rfl
@[simp] theorem axisRegs_emit (s : State) (a b : Nat) : (emit a s).axisRegs b = s.axisRegs b := by
  simp only [State.axisRegs, emit_axes]
@[simp] theorem axisRegs_setTools (s : State) (t : ToolRegs) (a : Nat) : (setTools t s).axisRegs a = s.axisRegs a := rfl
@[simp] theorem phase_log (s : State) (es : List Event) (a : Nat) : (s.log es).phase a = s.phase a := rfl
@[simp] theorem phase_emit (s : State) (a b : Nat) : (emit a s).phase b = s.phase b := by
  simp only [State.phase, State.axisRegs, emit_axes]
@[simp] theorem phase_setTools (s : State) (t : ToolRegs) (a : Nat) : (setTools t s).phase a = s.phase a := rfl
@[simp] theorem level_log (s : State) (es : List Event) (a : Nat) : (s.log es).level a = s.level a := rfl
@[simp] theorem level_emit (s : State) (a b : Nat) : (emit a s).level b = s.level b := by
  simp only [State.level, State.axisRegs, emit_axes]
@[simp] theorem level_setTools (s : State) (t : ToolRegs) (a : Nat) : (setTools t s).level a = s.level a := rfl
@[simp] theorem stepMode_log (s : State) (es : List Event) (a : Nat) : (s.log es).stepMode a = s.stepMode a := rfl
@[simp] theorem stepMode_emit (s : State) (a b : Nat) : (emit a s).stepMode b = s.stepMode b := by
  simp only [State.stepMode, State.axisRegs, emit_axes]
@[simp] theorem stepMode_setTools (s : State) (t : ToolRegs) (a : Nat) : (setTools t s).stepMode a = s.stepMode a := rfl

/-- The initial registers hold no level but Off. -/
theorem level_initial {s : State} (h : s.axes = s.cfg.axis.map fun p => ⟨0, .off, p.stepModeInit⟩) (a : Nat) :
    s.level a = .off := by
  simp only [State.level, State.axisRegs, h, List.getD_eq_getElem?_getD, List.getElem?_map]
  cases s.cfg.axis[a]? <;> rfl

/-! ### The chip's view -/

/-- A latch keeps the number of axes the chip's view has. -/
@[simp] theorem chipAfter_length (c : Config) (b : Byte) (chip : List (Option Byte)) :
    (chipAfter c b chip).length = chip.length := by simp [chipAfter]

/-- What the chip holds for an axis after a latch. -/
theorem chipAfter_getElem? (c : Config) (b : Byte) (chip : List (Option Byte)) (a : Nat) :
    (chipAfter c b chip)[a]? =
      chip[a]?.map fun old => if b &&& c.addrField = c.addr a then some b else old := by
  simp [chipAfter, List.getElem?_mapIdx]

/-- A latch gives an axis only a byte that carries its address bits. -/
theorem mem_chipAfter {c : Config} {b x : Byte} {chip : List (Option Byte)} {a : Nat}
    (h : x ∈ (chipAfter c b chip).getD a none) : x &&& c.addrField = c.addr a ∨ x ∈ chip.getD a none := by
  simp only [List.getD_eq_getElem?_getD, chipAfter_getElem?] at h ⊢
  cases hc : chip[a]? with
  | none => simp [hc] at h
  | some old =>
    simp only [hc, Option.map_some, Option.getD_some] at h
    split_ifs at h with hb
    · left; simp at h; rw [← h]; exact hb
    · right; simpa using h

/-! ### Tool pins -/

/-- The codes the board does not recognise (R221). -/
theorem ofCode_of_ge {c : Byte} (h : 5 ≤ c.toNat) : Tool.ofCode c = none := by
  unfold Tool.ofCode; split <;> first | rfl | omega

/-- The codes of the five tools (R104). -/
@[simp] theorem ofCode_code (t : Tool) : Tool.ofCode t.code = some t := by cases t <;> rfl


/-- The entries of a tool change are tool pins at their new levels. -/
theorem mem_toolPinChanges {old new : ToolRegs} {e : Event} (h : e ∈ toolPinChanges old new) :
    ∃ p, e = .toolPin p (new.pin p) := by
  simp only [toolPinChanges, List.mem_map] at h
  obtain ⟨p, -, rfl⟩ := h
  exact ⟨p, rfl⟩

/-- Nothing changes, nothing is logged (R223 (g)). -/
@[simp] theorem toolPinChanges_self (t : ToolRegs) : toolPinChanges t t = [] := by simp [toolPinChanges, toolPinOrder]

/-- One entry for each pin that changes, in pin order (R222). -/
theorem toolPinChanges_eq (old new : ToolRegs) :
    toolPinChanges old new =
      (if old.pin .spindleOn = new.pin .spindleOn then [] else [.toolPin .spindleOn (new.pin .spindleOn)]) ++
        (if old.pin .spindleCcw = new.pin .spindleCcw then [] else [.toolPin .spindleCcw (new.pin .spindleCcw)]) ++
        (if old.pin .coolantOn = new.pin .coolantOn then [] else [.toolPin .coolantOn (new.pin .coolantOn)]) ++
        (if old.pin .fanLevel = new.pin .fanLevel then [] else [.toolPin .fanLevel (new.pin .fanLevel)]) := by
  simp only [toolPinChanges, toolPinOrder, List.filter_cons, List.filter_nil, bne_iff_ne, ne_eq, ite_not]
  split_ifs <;> rfl

/-- A one-bit pin shows 0 or 1. -/
theorem bitByte_eq_iff (a b : Bool) : bitByte a = bitByte b ↔ a = b := by cases a <;> cases b <;> decide

/-- The entries of a kill under `force_off` (R194): the pins of the levels that were not 0, going off. -/
theorem toolPinChanges_off (t : ToolRegs) :
    toolPinChanges t (toolRegsOff t) =
      (if t.spindle ≠ 0 then [.toolPin .spindleOn 0] else []) ++
        (if t.coolant ≠ 0 then [.toolPin .coolantOn 0] else []) ++
        (if t.fan ≠ 0 then [.toolPin .fanLevel 0] else []) := by
  rw [toolPinChanges_eq]
  simp only [ToolRegs.pin, toolRegsOff, ToolRegs.spindleOn, ToolRegs.coolantOn, bitByte_eq_iff]
  by_cases h1 : t.spindle = 0#8 <;> by_cases h2 : t.coolant = 0#8 <;> by_cases h3 : t.fan = 0#8 <;> simp [h1, h2, h3, bitByte]

/-! ### The kill latch -/

/-- The kill condition (R194) in terms of what the pins read. -/
theorem killCondition_eq (hook : Bool) (s : State) :
    killCondition hook s = (reads s .kill || reads s .intKill || hook) := rfl

/-- A kill turns the tools off: the condition, `force_off`, and a mode that is not yet Killed (R194). -/
def killOff (hook : Bool) (s : State) : Prop :=
  killCondition hook s = true ∧ s.cfg.killTools = .forceOff ∧ s.ctl ≠ .killed

/-- `SampleKill()` (R194) as one update, when the tools go off. -/
theorem sampleKill_off {hook : Bool} {s : State} (h : killOff hook s) :
    sampleKill hook s = { s with
      ctl := .killed, diagKill := true, tools := toolRegsOff s.tools,
      trace := s.trace ++ ([sampled s .kill, sampled s .intKill] ++ toolPinChanges s.tools (toolRegsOff s.tools)) } := by
  have h2 : killForcesTools (sample .intKill (sample .kill s)) = true := by
    simp [killForcesTools, sample, h.2.1, h.2.2]
  simp only [sampleKill, h.1, enterKilled, h2, if_true]
  simp [setTools, sample, State.log, sampled, pinLevel]

/-- `SampleKill()` (R194) as one update, when the tools stay. -/
theorem sampleKill_keep {hook : Bool} {s : State} (h : ¬killOff hook s) :
    sampleKill hook s = { s with
      ctl := if killCondition hook s then .killed else s.ctl,
      diagKill := if killCondition hook s then true else s.diagKill,
      trace := s.trace ++ [sampled s .kill, sampled s .intKill] } := by
  by_cases h1 : killCondition hook s = true
  · have h2 : killForcesTools (sample .intKill (sample .kill s)) = false := by
      by_contra hf
      simp only [Bool.not_eq_false, killForcesTools, sample, log_cfg, log_ctl, Bool.and_eq_true] at hf
      exact h ⟨h1, of_decide_eq_true hf.1, of_decide_eq_true hf.2⟩
    simp only [sampleKill, h1, enterKilled, h2, if_true, Bool.false_eq_true, if_false]
    simp [setTools, sample, State.log, sampled, pinLevel]
  · simp [sampleKill, h1, sample, State.log, sampled, pinLevel]

/-- `SampleKill()` as one update: what it writes, and a run of tool pins going off behind the two samples. -/
theorem sampleKill_eq (hook : Bool) (s : State) :
    ∃ (tools : ToolRegs) (es : List Event),
      sampleKill hook s = { s with
        ctl := if killCondition hook s then .killed else s.ctl,
        diagKill := if killCondition hook s then true else s.diagKill, tools := tools,
        trace := s.trace ++ ([sampled s .kill, sampled s .intKill] ++ es) } ∧
      (¬killOff hook s → tools = s.tools ∧ es = []) ∧
      (killOff hook s → tools = toolRegsOff s.tools ∧ es = toolPinChanges s.tools (toolRegsOff s.tools)) := by
  by_cases h : killOff hook s
  · refine ⟨_, _, ?_, fun h' => absurd h h', fun _ => ⟨rfl, rfl⟩⟩
    rw [sampleKill_off h]; simp [h.1]
  · refine ⟨s.tools, [], ?_, fun _ => ⟨rfl, rfl⟩, fun h' => absurd h' h⟩
    rw [sampleKill_keep h]; simp

/-- The entries of a kill are tool pins going off. -/
theorem killPins_off {s : State} {e : Event} (h : e ∈ toolPinChanges s.tools (toolRegsOff s.tools)) :
    ∃ p, e = .toolPin p 0 := by
  rw [toolPinChanges_off] at h
  simp only [List.mem_append] at h
  rcases h with (h | h) | h <;> split_ifs at h <;> simp at h <;> exact ⟨_, h⟩

/-! The registers the kill sample leaves alone. -/

@[simp] theorem sampleKill_cfg (hook : Bool) (s : State) : (sampleKill hook s).cfg = s.cfg := by 
  obtain ⟨tools, es, h, -⟩ := sampleKill_eq hook s; rw [h]
@[simp] theorem sampleKill_axes (hook : Bool) (s : State) : (sampleKill hook s).axes = s.axes := by 
  obtain ⟨tools, es, h, -⟩ := sampleKill_eq hook s; rw [h]
@[simp] theorem sampleKill_idle (hook : Bool) (s : State) : (sampleKill hook s).idle = s.idle := by 
  obtain ⟨tools, es, h, -⟩ := sampleKill_eq hook s; rw [h]
@[simp] theorem sampleKill_claimed (hook : Bool) (s : State) : (sampleKill hook s).claimed = s.claimed := by 
  obtain ⟨tools, es, h, -⟩ := sampleKill_eq hook s; rw [h]
@[simp] theorem sampleKill_outPort (hook : Bool) (s : State) : (sampleKill hook s).outPort = s.outPort := by 
  obtain ⟨tools, es, h, -⟩ := sampleKill_eq hook s; rw [h]
@[simp] theorem sampleKill_strobe (hook : Bool) (s : State) : (sampleKill hook s).strobe = s.strobe := by 
  obtain ⟨tools, es, h, -⟩ := sampleKill_eq hook s; rw [h]
@[simp] theorem sampleKill_diagHold (hook : Bool) (s : State) : (sampleKill hook s).diagHold = s.diagHold := by 
  obtain ⟨tools, es, h, -⟩ := sampleKill_eq hook s; rw [h]
@[simp] theorem sampleKill_homing (hook : Bool) (s : State) : (sampleKill hook s).homing = s.homing := by 
  obtain ⟨tools, es, h, -⟩ := sampleKill_eq hook s; rw [h]
@[simp] theorem sampleKill_call (hook : Bool) (s : State) : (sampleKill hook s).call = s.call := by 
  obtain ⟨tools, es, h, -⟩ := sampleKill_eq hook s; rw [h]
@[simp] theorem sampleKill_chip (hook : Bool) (s : State) : (sampleKill hook s).chip = s.chip := by 
  obtain ⟨tools, es, h, -⟩ := sampleKill_eq hook s; rw [h]
@[simp] theorem sampleKill_faults (hook : Bool) (s : State) : (sampleKill hook s).faults = s.faults := by 
  obtain ⟨tools, es, h, -⟩ := sampleKill_eq hook s; rw [h]
@[simp] theorem sampleKill_curPort (hook : Bool) (s : State) : (sampleKill hook s).curPort = s.curPort := by 
  obtain ⟨tools, es, h, -⟩ := sampleKill_eq hook s; rw [h]
@[simp] theorem sampleKill_freeIx (hook : Bool) (s : State) : (sampleKill hook s).freeIx = s.freeIx := by 
  obtain ⟨tools, es, h, -⟩ := sampleKill_eq hook s; rw [h]
@[simp] theorem sampleKill_ext (hook : Bool) (s : State) : (sampleKill hook s).ext = s.ext := by 
  obtain ⟨tools, es, h, -⟩ := sampleKill_eq hook s; rw [h]

/-- The mode after the kill sample (R194). -/
theorem sampleKill_ctl (hook : Bool) (s : State) :
    (sampleKill hook s).ctl = if killCondition hook s then .killed else s.ctl := by
  obtain ⟨tools, es, h, -⟩ := sampleKill_eq hook s; rw [h]

/-- The kill diagnostic after the kill sample (R194). -/
theorem sampleKill_diagKill (hook : Bool) (s : State) :
    (sampleKill hook s).diagKill = if killCondition hook s then true else s.diagKill := by
  obtain ⟨tools, es, h, -⟩ := sampleKill_eq hook s; rw [h]

/-! The registers the hold and resume transitions leave alone. -/

@[simp] theorem holdResumeTransition_cfg (s : State) : (holdResumeTransition s).cfg = s.cfg := by 
  unfold holdResumeTransition; split_ifs <;> rfl
@[simp] theorem holdResumeTransition_axes (s : State) : (holdResumeTransition s).axes = s.axes := by 
  unfold holdResumeTransition; split_ifs <;> rfl
@[simp] theorem holdResumeTransition_idle (s : State) : (holdResumeTransition s).idle = s.idle := by 
  unfold holdResumeTransition; split_ifs <;> rfl
@[simp] theorem holdResumeTransition_claimed (s : State) : (holdResumeTransition s).claimed = s.claimed := by 
  unfold holdResumeTransition; split_ifs <;> rfl
@[simp] theorem holdResumeTransition_outPort (s : State) : (holdResumeTransition s).outPort = s.outPort := by 
  unfold holdResumeTransition; split_ifs <;> rfl
@[simp] theorem holdResumeTransition_strobe (s : State) : (holdResumeTransition s).strobe = s.strobe := by 
  unfold holdResumeTransition; split_ifs <;> rfl
@[simp] theorem holdResumeTransition_diagKill (s : State) : (holdResumeTransition s).diagKill = s.diagKill := by 
  unfold holdResumeTransition; split_ifs <;> rfl
@[simp] theorem holdResumeTransition_tools (s : State) : (holdResumeTransition s).tools = s.tools := by 
  unfold holdResumeTransition; split_ifs <;> rfl
@[simp] theorem holdResumeTransition_homing (s : State) : (holdResumeTransition s).homing = s.homing := by 
  unfold holdResumeTransition; split_ifs <;> rfl
@[simp] theorem holdResumeTransition_call (s : State) : (holdResumeTransition s).call = s.call := by 
  unfold holdResumeTransition; split_ifs <;> rfl
@[simp] theorem holdResumeTransition_chip (s : State) : (holdResumeTransition s).chip = s.chip := by 
  unfold holdResumeTransition; split_ifs <;> rfl
@[simp] theorem holdResumeTransition_trace (s : State) : (holdResumeTransition s).trace = s.trace := by 
  unfold holdResumeTransition; split_ifs <;> rfl
@[simp] theorem holdResumeTransition_faults (s : State) : (holdResumeTransition s).faults = s.faults := by 
  unfold holdResumeTransition; split_ifs <;> rfl
@[simp] theorem holdResumeTransition_curPort (s : State) : (holdResumeTransition s).curPort = s.curPort := by 
  unfold holdResumeTransition; split_ifs <;> rfl
@[simp] theorem holdResumeTransition_freeIx (s : State) : (holdResumeTransition s).freeIx = s.freeIx := by 
  unfold holdResumeTransition; split_ifs <;> rfl
@[simp] theorem holdResumeTransition_ext (s : State) : (holdResumeTransition s).ext = s.ext := by 
  unfold holdResumeTransition; split_ifs <;> rfl

/-! ### Initialisation -/

/-- The effects of INIT (R121) as one update: with a spurious latch, one byte and its place in the trace. -/
theorem initSequencer_eq (s : State) :
    ∃ (b : Byte) (es : List Event),
      initSequencer s = { s with
        claimed := true, strobe := true, idle := .low,
        axes := s.cfg.axis.map fun p => ⟨0, .off, p.stepModeInit⟩,
        chip := if s.cfg.initSpuriousLatch then chipAfter s.cfg b s.chip else s.chip,
        freeIx := if s.cfg.initSpuriousLatch then s.freeIx + 1 else s.freeIx,
        trace := s.trace ++ ([.oe true] ++ es) } ∧
      es = if s.cfg.initSpuriousLatch then [.latch b] else [] := by
  refine ⟨Config.freeByte s.freeIx, _, ?_, rfl⟩
  by_cases h : s.cfg.initSpuriousLatch <;> simp [initSequencer, spuriousLatch, State.log, latch, h]

/-! The registers INIT leaves alone. -/

@[simp] theorem initSequencer_cfg (s : State) : (initSequencer s).cfg = s.cfg := by 
  obtain ⟨b, es, h, -⟩ := initSequencer_eq s; rw [h]
@[simp] theorem initSequencer_outPort (s : State) : (initSequencer s).outPort = s.outPort := by 
  obtain ⟨b, es, h, -⟩ := initSequencer_eq s; rw [h]
@[simp] theorem initSequencer_ctl (s : State) : (initSequencer s).ctl = s.ctl := by 
  obtain ⟨b, es, h, -⟩ := initSequencer_eq s; rw [h]
@[simp] theorem initSequencer_diagHold (s : State) : (initSequencer s).diagHold = s.diagHold := by 
  obtain ⟨b, es, h, -⟩ := initSequencer_eq s; rw [h]
@[simp] theorem initSequencer_diagKill (s : State) : (initSequencer s).diagKill = s.diagKill := by 
  obtain ⟨b, es, h, -⟩ := initSequencer_eq s; rw [h]
@[simp] theorem initSequencer_tools (s : State) : (initSequencer s).tools = s.tools := by 
  obtain ⟨b, es, h, -⟩ := initSequencer_eq s; rw [h]
@[simp] theorem initSequencer_homing (s : State) : (initSequencer s).homing = s.homing := by 
  obtain ⟨b, es, h, -⟩ := initSequencer_eq s; rw [h]
@[simp] theorem initSequencer_call (s : State) : (initSequencer s).call = s.call := by 
  obtain ⟨b, es, h, -⟩ := initSequencer_eq s; rw [h]
@[simp] theorem initSequencer_faults (s : State) : (initSequencer s).faults = s.faults := by 
  obtain ⟨b, es, h, -⟩ := initSequencer_eq s; rw [h]
@[simp] theorem initSequencer_curPort (s : State) : (initSequencer s).curPort = s.curPort := by 
  obtain ⟨b, es, h, -⟩ := initSequencer_eq s; rw [h]
@[simp] theorem initSequencer_ext (s : State) : (initSequencer s).ext = s.ext := by 
  obtain ⟨b, es, h, -⟩ := initSequencer_eq s; rw [h]

end Sys2Proof.Machine
end

