-- ==== Sys2Proof/Laws/Config.lean ====
section
/-! SUPPORT. What a valid parameter set gives (00_scope.md R8), and the bytes it makes (41_sequencer_step.md R141). -/

namespace Sys2Proof

/-- The parameters of an axis that exists are an entry of the list. -/
theorem Config.axisParam_of_lt {c : Config} {a : Nat} (h : a < c.naxis) : c.axisParam a = c.axis[a]'h := by
  simp only [Config.naxis] at h
  simp [Config.axisParam, h]

/-- V1. -/
theorem Config.addr_injective {c : Config} (hv : c.valid = true) {a b : Nat} (ha : a < c.naxis) (hb : b < c.naxis)
    (h : c.addr a = c.addr b) : a = b := by
  simp only [Config.valid, Config.addrDistinct, Bool.and_eq_true, decide_eq_true_eq] at hv
  have hn := hv.1.1.1.1
  simp only [Config.addr, Config.axisParam_of_lt ha, Config.axisParam_of_lt hb] at h
  exact (List.Nodup.getElem_inj_iff hn (i := a) (hi := by simpa [Config.naxis] using ha) (j := b)
    (hj := by simpa [Config.naxis] using hb)).mp (by rw [List.getElem_map, List.getElem_map]; exact h)

/-- V2. -/
theorem Config.addr_in_field {c : Config} (hv : c.valid = true) {a : Nat} (ha : a < c.naxis) :
    c.addr a &&& ~~~c.addrField = 0 := by
  simp only [Config.valid, Bool.and_eq_true] at hv
  have h := hv.1.1.1.2
  simp only [Config.addrInField, List.all_eq_true, beq_iff_eq] at h
  rw [Config.addr, Config.axisParam_of_lt ha]
  exact h _ (List.getElem_mem _)

/-- V3. -/
theorem Config.tableCode_outside_field {c : Config} (hv : c.valid = true) {l : Level} (hl : l ∈ c.levels) (m : StepMode)
    (i : BitVec 3) : c.tableCode m l i &&& c.addrField = 0 := by
  simp only [Config.valid, Bool.and_eq_true] at hv
  have h := hv.1.1.2
  simp only [Config.codesOutsideField, List.all_eq_true, Bool.and_eq_true, beq_iff_eq] at h
  cases m
  · exact (h l hl).1 _ (by simp [Config.tableCode])
  · exact (h l hl).2 _ (by simp [Config.tableCode])

/-- V5. -/
theorem Config.naxis_le_eight {c : Config} (hv : c.valid = true) : 1 ≤ c.naxis ∧ c.naxis ≤ 8 := by
  simp only [Config.valid, Config.axisCountOk, Bool.and_eq_true, decide_eq_true_eq] at hv
  omega

/-- V6. -/
theorem Config.slow_lt_fast {c : Config} (hv : c.valid = true) : c.rateSlow < c.rateFast := by
  simp only [Config.valid, Config.ratesOk, Bool.and_eq_true, decide_eq_true_eq] at hv
  exact hv.2

/-- The levels of a build: all but Mid when it is reduced. -/
theorem Config.mem_levels (c : Config) (l : Level) : l ∈ c.levels ↔ (c.reduced = true → l ≠ .mid) := by
  cases h : c.reduced <;> cases l <;> simp [Config.levels, h]

/-- Two bytes with no bit in common add without a carry. -/
theorem byte_add_eq_or {x y : Byte} (h : x &&& y = 0) : x + y = x ||| y := BitVec.add_eq_or_of_and_eq_zero x y h

/-- A byte outside a field and one inside it have no bit in common. -/
theorem byte_split {x y f : Byte} (hx : x &&& f = 0) (hy : y &&& ~~~f = 0) :
    x &&& y = 0 ∧ (x ||| y) &&& f = y ∧ (x ||| y) &&& ~~~f = x := by
  have h0 : ∀ i, (0 : Byte).getLsbD i = false := fun _ => BitVec.getLsbD_zero
  have hx' : ∀ i, (x.getLsbD i && f.getLsbD i) = false := fun i => by
    simpa only [BitVec.getLsbD_and, h0] using congrArg (BitVec.getLsbD · i) hx
  have hy' : ∀ i < 8, (y.getLsbD i && !f.getLsbD i) = false := fun i hi => by
    simpa only [BitVec.getLsbD_and, BitVec.getLsbD_not, hi, decide_true, Bool.true_and, h0] using
      congrArg (BitVec.getLsbD · i) hy
  refine ⟨?_, ?_, ?_⟩ <;> apply BitVec.eq_of_getLsbD_eq <;> intro i hi <;> have h1 := hx' i <;> have h2 := hy' i hi <;>
    simp only [BitVec.getLsbD_and, BitVec.getLsbD_or, BitVec.getLsbD_not, h0, hi, decide_true,
      Bool.true_and] <;>
    revert h1 h2 <;> cases x.getLsbD i <;> cases y.getLsbD i <;> cases f.getLsbD i <;> decide

/-- The quantiser never gives Mid in a reduced build (R161). -/
theorem quantize_mem_levels (c : Config) (v : Byte) : quantize c.reduced v ∈ c.levels := by
  rw [Config.mem_levels]
  intro h
  simp only [quantize, h]
  split_ifs <;> simp_all

end Sys2Proof
end

