-- ==== Sys2Proof/Laws/Decode.lean ====
section
/-! SUPPORT. The opcode map names one row for a record (30_encoding.md R92 to R94), and the fields the encoder lays out are
the fields the decoder reads. -/

namespace Sys2Proof

/-- No two rows of the map share an opcode (R94). -/
theorem opcodeTable_distinct : ∀ p ∈ opcodeTable, ∀ q ∈ opcodeTable, opcodeField p.pattern = opcodeField q.pattern → p = q := by
  decide

/-- Every mask covers the opcode field (R105). -/
theorem opcodeTable_mask : ∀ p ∈ opcodeTable, opcodeField p.mask = 0xF := by decide

/-- No row has opcode 0 (R106). -/
theorem opcodeTable_ne_zero : ∀ p ∈ opcodeTable, opcodeField p.pattern ≠ 0 := by decide

/-- The opcode field of a bitwise AND. -/
theorem opcodeField_and (x y : Word) : opcodeField (x &&& y) = opcodeField x &&& opcodeField y := BitVec.extractLsb'_and ..

/-- A record that spells a row carries the row's opcode (R92). -/
theorem opcodeField_of_spells {row : OpRow} (hm : row ∈ opcodeTable) {w0 : Word} (h : row.spells w0 = true) :
    opcodeField w0 = opcodeField row.pattern := by
  have := congrArg opcodeField (beq_iff_eq.mp h)
  rw [opcodeField_and, opcodeTable_mask row hm] at this
  rw [← this]
  exact (BitVec.and_allOnes (x := opcodeField w0)).symm

/-- A record spells at most one row (R92). -/
theorem spells_unique {p q : OpRow} (hp : p ∈ opcodeTable) (hq : q ∈ opcodeTable) {w0 : Word} (h1 : p.spells w0 = true)
    (h2 : q.spells w0 = true) : p = q :=
  opcodeTable_distinct p hp q hq ((opcodeField_of_spells hp h1).symm.trans (opcodeField_of_spells hq h2))

/-- A record that spells a row decodes to that row's command. -/
theorem decodeRecord_of_spells {r : Record} {row : OpRow} (hm : row ∈ opcodeTable) (h : row.spells r.w0 = true) :
    decodeRecord r = .ok (operandsOf r row.op) := by
  simp only [decodeRecord]
  cases hf : opcodeTable.find? (·.spells r.w0) with
  | none => exact absurd h (by simpa using List.find?_eq_none.mp hf row hm)
  | some row' =>
    have hr : row'.spells r.w0 = true := by simpa using List.find?_some hf
    rw [spells_unique hm (List.mem_of_find?_eq_some hf) h hr]

/-- A record that decodes spells the row of its command. -/
theorem spells_of_decodeRecord {r : Record} {i : Instr} (h : decodeRecord r = .ok i) :
    ∃ row ∈ opcodeTable, row.spells r.w0 = true ∧ i = operandsOf r row.op := by
  simp only [decodeRecord] at h
  cases hf : opcodeTable.find? (·.spells r.w0) with
  | none => simp [hf] at h
  | some row =>
    simp only [hf, Except.ok.injEq] at h
    exact ⟨row, List.mem_of_find?_eq_some hf, by simpa using List.find?_some hf, h.symm⟩

/-- A bit of a record made of words. -/
theorem Record.getLsbD_ofWords (a b d : Word) (i : Nat) :
    (Record.ofWords a b d).getLsbD i =
      if i < 32 then a.getLsbD i else if i < 64 then b.getLsbD (i - 32) else d.getLsbD (i - 64) := by
  have h1 := BitVec.getLsbD_append (x := d ++ b) (y := a) (i := i)
  have h2 := BitVec.getLsbD_append (x := d) (y := b) (i := i - 32)
  rw [h2] at h1
  refine h1.trans ?_
  by_cases h : i < 32
  · simp [h]
  · by_cases h' : i < 64
    · simp [h, h', show i - 32 < 32 by omega]
    · simp [h, h', show ¬i - 32 < 32 by omega, show i - 32 - 32 = i - 64 by omega]

/-- The first word of a record made of words. -/
@[simp] theorem Record.w0_ofWords (a b d : Word) : (Record.ofWords a b d).w0 = a := by
  apply BitVec.eq_of_getLsbD_eq; intro i hi
  simp only [Record.w0, BitVec.getLsbD_extractLsb', hi, decide_true, Bool.true_and, Record.getLsbD_ofWords,
    Nat.zero_add, if_true]

/-- The second word. -/
@[simp] theorem Record.w1_ofWords (a b d : Word) : (Record.ofWords a b d).w1 = b := by
  apply BitVec.eq_of_getLsbD_eq; intro i hi
  simp only [Record.w1, BitVec.getLsbD_extractLsb', hi, decide_true, Bool.true_and, Record.getLsbD_ofWords]
  rw [if_neg (by omega), if_pos (by omega), show 32 + i - 32 = i by omega]

/-- The third word. -/
@[simp] theorem Record.w2_ofWords (a b d : Word) : (Record.ofWords a b d).w2 = d := by
  apply BitVec.eq_of_getLsbD_eq; intro i hi
  simp only [Record.w2, BitVec.getLsbD_extractLsb', hi, decide_true, Bool.true_and, Record.getLsbD_ofWords]
  rw [if_neg (by omega), if_neg (by omega), show 64 + i - 64 = i by omega]

/-- The bits of a short operand laid at a place. -/
theorem getLsbD_byteAt (k : Nat) (b : Byte) (j : Nat) :
    (byteAt k b).getLsbD j = (decide (j < 32) && decide (k ≤ j) && b.getLsbD (j - k)) := by
  simp only [byteAt, BitVec.getLsbD_shiftLeft, BitVec.getLsbD_setWidth]
  by_cases h1 : j < 32
  · by_cases h2 : k ≤ j <;> simp [h1, h2, show j - k < 32 by omega]
  · simp [h1]

/-- The bits of a flag laid at a place. -/
theorem getLsbD_flagAt (k : Nat) (b : Bool) (j : Nat) :
    (flagAt k b).getLsbD j = (decide (j < 32) && decide (j = k) && b) := by
  cases b with
  | false => simp [flagAt]
  | true =>
    simp only [flagAt, if_true, BitVec.getLsbD_shiftLeft, BitVec.getLsbD_one]
    by_cases h1 : j < 32 <;> by_cases h2 : j = k <;> simp [h1, h2]
    all_goals omega

/-- A short operand laid at a place is read back there. -/
theorem extract_byteAt (k : Nat) (b : Byte) (hk : k + 8 ≤ 32) : (byteAt k b).extractLsb' k 8 = b := by
  apply BitVec.eq_of_getLsbD_eq; intro i hi
  simp only [BitVec.getLsbD_extractLsb', getLsbD_byteAt, hi, decide_true, Bool.true_and]
  simp [show k + i < 32 by omega]

/-- A short operand laid at one place is nothing at another. -/
theorem extract_byteAt_other (j k : Nat) (b : Byte) (h : j + 8 ≤ k ∨ k + 8 ≤ j) : (byteAt k b).extractLsb' j 8 = 0 := by
  apply BitVec.eq_of_getLsbD_eq; intro i hi
  simp only [BitVec.getLsbD_extractLsb', getLsbD_byteAt, hi, decide_true, Bool.true_and]
  by_cases hk : k ≤ j + i
  · have : b.getLsbD (j + i - k) = false := BitVec.getLsbD_of_ge b _ (by omega)
    simp [this]
  · simp [hk]

/-- A flag above a field is nothing in it. -/
theorem extract_flagAt (j k : Nat) (b : Bool) (h : j + 8 ≤ k) : (flagAt k b).extractLsb' j 8 = 0 := by
  apply BitVec.eq_of_getLsbD_eq; intro i hi
  simp only [BitVec.getLsbD_extractLsb', getLsbD_flagAt, hi, decide_true, Bool.true_and]
  simp [show ¬j + i = k by omega]

/-- A short operand below a bit is nothing at it. -/
theorem getLsbD_byteAt_above (j k : Nat) (b : Byte) (h : k + 8 ≤ j) : (byteAt k b).getLsbD j = false := by
  rw [getLsbD_byteAt, BitVec.getLsbD_of_ge b _ (by omega), Bool.and_false]

/-- A short operand outside a mask. -/
theorem byteAt_and (k : Nat) (b : Byte) (m : Word) (h : byteAt k 0xFF &&& m = 0) : byteAt k b &&& m = 0 := by
  apply BitVec.eq_of_getLsbD_eq; intro i hi
  have hff : ∀ j < 8, (0xFF : Byte).getLsbD j = true := by decide
  have h1 := congrArg (BitVec.getLsbD · i) h
  simp only [BitVec.getLsbD_and, getLsbD_byteAt] at h1 ⊢
  by_cases h8 : i - k < 8
  · rw [hff _ h8, Bool.and_true] at h1
    revert h1
    cases b.getLsbD (i - k) <;> simp
  · rw [BitVec.getLsbD_of_ge b _ (by omega)]; simp

/-- A flag outside a mask. -/
theorem flagAt_and (k : Nat) (b : Bool) (m : Word) (h : flagAt k true &&& m = 0) : flagAt k b &&& m = 0 := by
  cases b
  · simp [flagAt]
  · exact h

/-- One lane of a word made of four lanes. -/
theorem extract_lanes (w x y z : Byte) :
    (lanes w x y z).extractLsb' 0 8 = w ∧ (lanes w x y z).extractLsb' 8 8 = x ∧ (lanes w x y z).extractLsb' 16 8 = y ∧
      (lanes w x y z).extractLsb' 24 8 = z := by
  have h1 := fun i => BitVec.getLsbD_append (x := z ++ y ++ x) (y := w) (i := i)
  have h2 := fun i => BitVec.getLsbD_append (x := z ++ y) (y := x) (i := i)
  have h3 := fun i => BitVec.getLsbD_append (x := z) (y := y) (i := i)
  refine ⟨?_, ?_, ?_, ?_⟩ <;> apply BitVec.eq_of_getLsbD_eq <;> intro i hi <;>
    simp only [BitVec.getLsbD_extractLsb', hi, decide_true, Bool.true_and] <;> refine (h1 _).trans ?_ <;>
    simp only [h2, h3]
  · simp [hi]
  · simp [hi, show ¬8 + i < 8 by omega]
  · simp [hi, show ¬16 + i < 8 by omega, show 16 + i - 8 = 8 + i by omega, show ¬8 + i < 8 by omega]
  · simp [show ¬24 + i < 8 by omega, show 24 + i - 8 = 16 + i by omega, show ¬16 + i < 8 by omega,
      show 16 + i - 8 = 8 + i by omega, show ¬8 + i < 8 by omega]

/-- The count lanes of two words made of lanes (R96). -/
theorem countsOf_lanes (v : Vector Byte 8) :
    countsOf (lanes v[0] v[1] v[2] v[3]) (lanes v[4] v[5] v[6] v[7]) = v := by
  have h1 := extract_lanes v[0] v[1] v[2] v[3]
  have h2 := extract_lanes v[4] v[5] v[6] v[7]
  simp only [countsOf, h1.1, h1.2.1, h1.2.2.1, h1.2.2.2, h2.1, h2.2.1, h2.2.2.1, h2.2.2.2]
  ext i hi
  match i, hi with
  | 0, _ | 1, _ | 2, _ | 3, _ | 4, _ | 5, _ | 6, _ | 7, _ => rfl

end Sys2Proof
end

