-- ==== Sys2Proof/Laws/Stepping.lean ====
section
/-! SUPPORT. What STEP does, axis by axis and over the whole loop (41_sequencer_step.md R145): the frame, the registers of
each axis, the emissions in order, and the chip's view. -/

namespace Sys2Proof.Machine

/-- The new accumulator of an axis that moves (R145). -/
def newPhase (count : Vector Byte 8) (dirMask : Byte) (s : State) (a : Nat) : BitVec 3 :=
  movePhase (s.stepMode a) (dirMask.getLsbD a) (s.phase a) (countLane count a)

/-- The byte emitted for an axis that moves: its table, its level and its new accumulator, plus its address bits (R141). -/
def newByte (count : Vector Byte 8) (dirMask : Byte) (s : State) (a : Nat) : Byte :=
  s.cfg.tableCode (s.stepMode a) (s.level a) (newPhase count dirMask s a) + s.cfg.addr a

/-- An axis that moves: its count is not zero. -/
def moves (count : Vector Byte 8) (a : Nat) : Bool := countLane count a != 0

/-- The byte emitted once the accumulator is written. -/
theorem outByte_setPhase (s : State) (a : Nat) (v : BitVec 3) (h : a < s.axes.length) :
    outByte (s.setPhase a v) a = s.cfg.tableCode (s.stepMode a) (s.level a) v + s.cfg.addr a := by
  have hp : (s.setPhase a v).phase a = v := by rw [phase_setPhase, if_pos ⟨rfl, h⟩]
  rw [outByte, stepMode_setPhase, level_setPhase, hp]; rfl

/-- One axis of STEP as one update. -/
theorem stepAxis_eq (count : Vector Byte 8) (dirMask : Byte) (s : State) (a : Nat) (h : a < s.axes.length) :
    stepAxis count dirMask s a =
      if moves count a then { s.setPhase a (newPhase count dirMask s a) with
        outPort := newByte count dirMask s a, strobe := true, chip := chipAfter s.cfg (newByte count dirMask s a) s.chip,
        trace := s.trace ++ emission (newByte count dirMask s a) }
      else s := by
  by_cases hc : countLane count a = 0
  · simp [stepAxis, moves, hc]
  · have hm : moves count a = true := by simpa [moves] using hc
    simp only [stepAxis, hc, if_false, hm, if_true]
    rw [emit_eq, outByte_setPhase _ _ _ h]; rfl

/-- What the loop of STEP does over a list of axes without repeats (R145). -/
theorem stepAxes_fold (count : Vector Byte 8) (dirMask : Byte) (l : List Nat) (s : State) (hn : l.Nodup)
    (hl : ∀ a ∈ l, a < s.axes.length) :
    let t := l.foldl (stepAxis count dirMask) s
    let moved := l.filter (moves count)
    t = { s with axes := t.axes, outPort := t.outPort, strobe := t.strobe, chip := t.chip, trace := t.trace } ∧
      t.axes.length = s.axes.length ∧
      (∀ a, t.level a = s.level a ∧ t.stepMode a = s.stepMode a ∧
        t.phase a = if a ∈ moved then newPhase count dirMask s a else s.phase a) ∧
      t.trace = s.trace ++ moved.flatMap (fun a => emission (newByte count dirMask s a)) ∧
      t.outPort = (moved.map (newByte count dirMask s)).getLastD s.outPort ∧
      t.strobe = (s.strobe || !moved.isEmpty) ∧
      t.chip = moved.foldl (fun chip a => chipAfter s.cfg (newByte count dirMask s a) chip) s.chip := by
  induction l generalizing s with
  | nil => simp
  | cons a l ih =>
    have ha : a < s.axes.length := hl a (by simp)
    have hnl : a ∉ l ∧ l.Nodup := by simpa using hn
    simp only [List.foldl_cons]
    rw [stepAxis_eq count dirMask s a ha]
    cases hm : moves count a with
    | false =>
      have := ih s hnl.2 fun b hb => hl b (by simp [hb])
      simpa [hm] using this
    | true =>
      simp only [if_true]
      generalize hs1 : ({ s.setPhase a (newPhase count dirMask s a) with
        outPort := newByte count dirMask s a, strobe := true, chip := chipAfter s.cfg (newByte count dirMask s a) s.chip,
        trace := s.trace ++ emission (newByte count dirMask s a) } : State) = s1
      have hlev : ∀ b, s1.level b = s.level b := fun b => by
        rw [← hs1]; exact level_setPhase s a b _
      have hmode : ∀ b, s1.stepMode b = s.stepMode b := fun b => by
        rw [← hs1]; exact stepMode_setPhase s a b _
      have hph : ∀ b, s1.phase b = if b = a then newPhase count dirMask s a else s.phase b := fun b => by
        rw [← hs1]; exact (phase_setPhase s a b _).trans (by simp [ha])
      have hcfg : s1.cfg = s.cfg := by rw [← hs1]; rfl
      have hlen : s1.axes.length = s.axes.length := by rw [← hs1]; simp [State.setPhase]
      have hnew : ∀ b, b ≠ a → newPhase count dirMask s1 b = newPhase count dirMask s b := fun b hb => by
        simp only [newPhase, hmode, hph, hb, if_false]
      have hbyte : ∀ b, b ≠ a → newByte count dirMask s1 b = newByte count dirMask s b := fun b hb => by
        simp only [newByte, hmode, hlev, hnew b hb, hcfg]
      have hne : ∀ b ∈ l.filter (moves count), b ≠ a := fun b hb he => hnl.1 (he ▸ (List.mem_filter.mp hb).1)
      obtain ⟨h1, h2, h3, h4, h5, h6, h7⟩ := ih s1 hnl.2 fun b hb => by rw [hlen]; exact hl b (by simp [hb])
      have hmap : (l.filter (moves count)).map (newByte count dirMask s1) =
          (l.filter (moves count)).map (newByte count dirMask s) := List.map_congr_left fun b hb => hbyte b (hne b hb)
      refine ⟨?_, h2.trans hlen, fun b => ⟨(h3 b).1.trans (hlev b), (h3 b).2.1.trans (hmode b), ?_⟩, ?_, ?_, ?_, ?_⟩
      · rw [h1, ← hs1]; rfl
      · rw [(h3 b).2.2, List.filter_cons_of_pos hm]
        by_cases hb : b = a
        · have : b ∉ l.filter (moves count) := fun h => hne b h hb
          rw [if_neg this, hph, if_pos hb, hb, if_pos (by simp)]
        · simp only [List.mem_cons, hb, false_or, hph, if_false, hnew b hb]
      · rw [h4, List.filter_cons_of_pos hm, List.flatMap_cons, ← List.append_assoc, ← hs1]
        congr 1
        rw [hs1]
        exact List.flatMap_congr fun b hb => by rw [hbyte b (hne b hb)]
      · rw [h5, hmap, List.filter_cons_of_pos hm, List.map_cons, List.getLastD_cons, ← hs1]
      · rw [h6, List.filter_cons_of_pos hm, ← hs1]; simp
      · rw [h7, List.filter_cons_of_pos hm, List.foldl_cons, hcfg,
          show s1.chip = chipAfter s.cfg (newByte count dirMask s a) s.chip by rw [← hs1]]
        refine List.foldl_ext _ _ _ fun chip b hb => ?_
        rw [hbyte b (hne b hb)]

/-- What STEP does before its response, on a state with `NAXIS` axes. -/
theorem stepAxes_eq (count : Vector Byte 8) (dirMask : Byte) (s : State) (h : s.axes.length = s.cfg.naxis) :
    let t := stepAxes count dirMask s
    let moved := (List.range s.cfg.naxis).filter (moves count)
    t = { s with axes := t.axes, outPort := t.outPort, strobe := t.strobe, chip := t.chip, trace := t.trace } ∧
      t.axes.length = s.axes.length ∧
      (∀ a, t.level a = s.level a ∧ t.stepMode a = s.stepMode a ∧
        t.phase a = if a ∈ moved then newPhase count dirMask s a else s.phase a) ∧
      t.trace = s.trace ++ moved.flatMap (fun a => emission (newByte count dirMask s a)) ∧
      t.outPort = (moved.map (newByte count dirMask s)).getLastD s.outPort ∧
      t.strobe = (s.strobe || !moved.isEmpty) ∧
      t.chip = moved.foldl (fun chip a => chipAfter s.cfg (newByte count dirMask s a) chip) s.chip :=
  stepAxes_fold count dirMask _ s List.nodup_range fun a ha => by rw [h]; exact List.mem_range.mp ha

/-- What one axis of STEP leaves alone, in any state. -/
theorem stepAxis_frame (count : Vector Byte 8) (dirMask : Byte) (s : State) (a : Nat) :
    let t := stepAxis count dirMask s a
    t = { s with axes := t.axes, outPort := t.outPort, strobe := t.strobe, chip := t.chip, trace := t.trace } := by
  simp only [stepAxis]
  split
  · rfl
  · rw [emit_eq]; rfl

/-- What the loop of STEP leaves alone, in any state. -/
theorem stepAxes_frame (count : Vector Byte 8) (dirMask : Byte) (s : State) :
    let t := stepAxes count dirMask s
    t = { s with axes := t.axes, outPort := t.outPort, strobe := t.strobe, chip := t.chip, trace := t.trace } := by
  simp only [stepAxes]
  generalize List.range s.cfg.naxis = l
  induction l generalizing s with
  | nil => rfl
  | cons a l ih =>
    have h1 := stepAxis_frame count dirMask s a
    have h2 := ih (stepAxis count dirMask s a)
    simp only at h1 h2
    rw [List.foldl_cons, h2, h1]

/-! The registers the loop of STEP leaves alone. -/

@[simp] theorem stepAxes_cfg (c : Vector Byte 8) (d : Byte) (s : State) : (stepAxes c d s).cfg = s.cfg := by
  have h := congrArg State.cfg (stepAxes_frame c d s); exact h
@[simp] theorem stepAxes_idle (c : Vector Byte 8) (d : Byte) (s : State) : (stepAxes c d s).idle = s.idle := by
  have h := congrArg State.idle (stepAxes_frame c d s); exact h
@[simp] theorem stepAxes_claimed (c : Vector Byte 8) (d : Byte) (s : State) : (stepAxes c d s).claimed = s.claimed := by
  have h := congrArg State.claimed (stepAxes_frame c d s); exact h
@[simp] theorem stepAxes_ctl (c : Vector Byte 8) (d : Byte) (s : State) : (stepAxes c d s).ctl = s.ctl := by
  have h := congrArg State.ctl (stepAxes_frame c d s); exact h
@[simp] theorem stepAxes_diagHold (c : Vector Byte 8) (d : Byte) (s : State) : (stepAxes c d s).diagHold = s.diagHold := by
  have h := congrArg State.diagHold (stepAxes_frame c d s); exact h
@[simp] theorem stepAxes_diagKill (c : Vector Byte 8) (d : Byte) (s : State) : (stepAxes c d s).diagKill = s.diagKill := by
  have h := congrArg State.diagKill (stepAxes_frame c d s); exact h
@[simp] theorem stepAxes_tools (c : Vector Byte 8) (d : Byte) (s : State) : (stepAxes c d s).tools = s.tools := by
  have h := congrArg State.tools (stepAxes_frame c d s); exact h
@[simp] theorem stepAxes_homing (c : Vector Byte 8) (d : Byte) (s : State) : (stepAxes c d s).homing = s.homing := by
  have h := congrArg State.homing (stepAxes_frame c d s); exact h
@[simp] theorem stepAxes_call (c : Vector Byte 8) (d : Byte) (s : State) : (stepAxes c d s).call = s.call := by
  have h := congrArg State.call (stepAxes_frame c d s); exact h
@[simp] theorem stepAxes_faults (c : Vector Byte 8) (d : Byte) (s : State) : (stepAxes c d s).faults = s.faults := by
  have h := congrArg State.faults (stepAxes_frame c d s); exact h
@[simp] theorem stepAxes_curPort (c : Vector Byte 8) (d : Byte) (s : State) : (stepAxes c d s).curPort = s.curPort := by
  have h := congrArg State.curPort (stepAxes_frame c d s); exact h
@[simp] theorem stepAxes_freeIx (c : Vector Byte 8) (d : Byte) (s : State) : (stepAxes c d s).freeIx = s.freeIx := by
  have h := congrArg State.freeIx (stepAxes_frame c d s); exact h
@[simp] theorem stepAxes_ext (c : Vector Byte 8) (d : Byte) (s : State) : (stepAxes c d s).ext = s.ext := by
  have h := congrArg State.ext (stepAxes_frame c d s); exact h

/-- With no lane in range moving, the loop does nothing. -/
theorem stepAxes_of_not_moves (count : Vector Byte 8) (dirMask : Byte) (s : State)
    (h : anyCount s.cfg.naxis count = false) : stepAxes count dirMask s = s := by
  have h' : ∀ a ∈ List.range s.cfg.naxis, countLane count a = 0 := by simpa [anyCount] using h
  simp only [stepAxes]
  generalize List.range s.cfg.naxis = l at h'
  induction l with
  | nil => rfl
  | cons a l ih =>
    rw [List.foldl_cons, show stepAxis count dirMask s a = s by simp [stepAxis, h' a (by simp)]]
    exact ih fun b hb => h' b (by simp [hb])

/-- Some lane in range moves. -/
theorem anyCount_iff (n : Nat) (count : Vector Byte 8) :
    anyCount n count = true ↔ ∃ a, ∃ h : a < 8, a < n ∧ count[a] ≠ 0 := by
  simp only [anyCount, List.any_eq_true, List.mem_range, bne_iff_ne, ne_eq]
  constructor
  · rintro ⟨a, ha, hc⟩
    by_cases h8 : a < 8
    · exact ⟨a, h8, ha, by simpa [countLane, h8] using hc⟩
    · exact absurd (by simp [countLane, h8]) hc
  · rintro ⟨a, h8, ha, hc⟩
    exact ⟨a, ha, by simpa [countLane, h8] using hc⟩

/-- A lane the record has. -/
theorem countLane_of_lt (count : Vector Byte 8) {a : Nat} (h : a < 8) : countLane count a = count[a] := by
  simp [countLane, h]

/-- STEP without the fault (R145). -/
theorem execStep_of_not_fault {count : Vector Byte 8} {s : State} (dirMask : Byte)
    (h : ¬(s.claimed = false ∧ anyCount s.cfg.naxis count = true)) :
    execStep count dirMask s = .next (respond .ok 0 (stepAxes count dirMask s)) := by
  have : (!s.claimed && anyCount s.cfg.naxis count) = false := by cases hc : s.claimed <;> simp_all
  simp [execStep, this]

/-- STEP with the fault (R254). -/
theorem execStep_of_fault {count : Vector Byte 8} {s : State} (dirMask : Byte) (h1 : s.claimed = false)
    (h2 : anyCount s.cfg.naxis count = true) : execStep count dirMask s = .next (raiseNotClaimed s) := by
  simp [execStep, h1, h2]

/-- The accumulator after a count, as an integer (R145). -/
theorem movePhase_toNat (m : StepMode) (up : Bool) (phase : BitVec 3) (count : Byte) :
    ((movePhase m up phase count).toNat : Int) =
      (if up then (phase.toNat : Int) + count.toNat else (phase.toNat : Int) - count.toNat) % m.tableSize := by
  simp only [movePhase]
  generalize (if up then (phase.toNat : Int) + count.toNat else (phase.toNat : Int) - count.toNat) = z
  have hT : (m.tableSize : Int) = 4 ∨ (m.tableSize : Int) = 8 := by cases m <;> simp [StepMode.tableSize]
  rw [BitVec.toNat_ofNat]
  rcases hT with h | h <;> rw [h] <;> omega

/-- The bytes of different axes of a valid block go to different axes of the chip. -/
theorem chip_foldl (c : Config) (f : Nat → Byte) (l : List Nat) (chip : List (Option Byte)) (a : Nat) (hn : l.Nodup)
    (hf : ∀ b ∈ l, f b &&& c.addrField = c.addr b) (hinj : ∀ b ∈ l, c.addr b = c.addr a → b = a)
    (ha : a < chip.length) :
    (l.foldl (fun chip b => chipAfter c (f b) chip) chip)[a]? = if a ∈ l then some (some (f a)) else chip[a]? := by
  induction l generalizing chip with
  | nil => simp
  | cons b l ih =>
    have hnl : b ∉ l ∧ l.Nodup := by simpa using hn
    rw [List.foldl_cons, ih _ hnl.2 (fun d hd => hf d (by simp [hd])) (fun d hd => hinj d (by simp [hd])) (by simpa)]
    have hb := hf b (by simp)
    have hi := hinj b (by simp)
    by_cases hal : a ∈ l
    · simp [hal]
    · simp only [hal, if_false, List.mem_cons, or_false, chipAfter_getElem?, hb]
      by_cases hab : a = b
      · subst hab; simp [ha]
      · rw [if_neg hab]
        have : ¬c.addr b = c.addr a := fun h => hab (hi h).symm
        simp [this]

end Sys2Proof.Machine
end

