-- ==== Sys2Proof/Laws/Schedule.lean ====
section
/-! SUPPORT. One step as what it can do: the choice of work (20_memory.md R72, 60_exceptions.md R263), and the outside world
moving on, which touches no register. -/

namespace Sys2Proof.Machine

/-- The outside world's turn touches only the inputs. -/
theorem arrive_eq (s : State) : ∃ e, arrive s = { s with ext := e } := by
  simp only [arrive]
  cases s.ext.script with
  | nil => exact ⟨s.ext, rfl⟩
  | cons m rest => exact ⟨_, rfl⟩

/-! The registers the outside world's turn leaves alone. -/

@[simp] theorem arrive_cfg (s : State) : (arrive s).cfg = s.cfg := by obtain ⟨e, h⟩ := arrive_eq s; rw [h]
@[simp] theorem arrive_axes (s : State) : (arrive s).axes = s.axes := by obtain ⟨e, h⟩ := arrive_eq s; rw [h]
@[simp] theorem arrive_idle (s : State) : (arrive s).idle = s.idle := by obtain ⟨e, h⟩ := arrive_eq s; rw [h]
@[simp] theorem arrive_claimed (s : State) : (arrive s).claimed = s.claimed := by obtain ⟨e, h⟩ := arrive_eq s; rw [h]
@[simp] theorem arrive_outPort (s : State) : (arrive s).outPort = s.outPort := by obtain ⟨e, h⟩ := arrive_eq s; rw [h]
@[simp] theorem arrive_strobe (s : State) : (arrive s).strobe = s.strobe := by obtain ⟨e, h⟩ := arrive_eq s; rw [h]
@[simp] theorem arrive_ctl (s : State) : (arrive s).ctl = s.ctl := by obtain ⟨e, h⟩ := arrive_eq s; rw [h]
@[simp] theorem arrive_diagHold (s : State) : (arrive s).diagHold = s.diagHold := by obtain ⟨e, h⟩ := arrive_eq s; rw [h]
@[simp] theorem arrive_diagKill (s : State) : (arrive s).diagKill = s.diagKill := by obtain ⟨e, h⟩ := arrive_eq s; rw [h]
@[simp] theorem arrive_tools (s : State) : (arrive s).tools = s.tools := by obtain ⟨e, h⟩ := arrive_eq s; rw [h]
@[simp] theorem arrive_homing (s : State) : (arrive s).homing = s.homing := by obtain ⟨e, h⟩ := arrive_eq s; rw [h]
@[simp] theorem arrive_call (s : State) : (arrive s).call = s.call := by obtain ⟨e, h⟩ := arrive_eq s; rw [h]
@[simp] theorem arrive_chip (s : State) : (arrive s).chip = s.chip := by obtain ⟨e, h⟩ := arrive_eq s; rw [h]
@[simp] theorem arrive_trace (s : State) : (arrive s).trace = s.trace := by obtain ⟨e, h⟩ := arrive_eq s; rw [h]
@[simp] theorem arrive_faults (s : State) : (arrive s).faults = s.faults := by obtain ⟨e, h⟩ := arrive_eq s; rw [h]
@[simp] theorem arrive_curPort (s : State) : (arrive s).curPort = s.curPort := by obtain ⟨e, h⟩ := arrive_eq s; rw [h]
@[simp] theorem arrive_freeIx (s : State) : (arrive s).freeIx = s.freeIx := by obtain ⟨e, h⟩ := arrive_eq s; rw [h]

/-- Accepting a record changes the inputs and the port of the running command only. -/
theorem accept_eq (port : CmdPort) (rest : List Record) (s : State) :
    ∃ e, accept port rest s = { s with curPort := port, ext := e } := by
  cases port <;> exact ⟨_, rfl⟩

/-- What one piece of work can be. -/
theorem nextWork_cases (s : State) :
    (s.ext.rst = true ∧ nextWork s = .reset) ∨
      (s.ext.rst = false ∧
        ((∃ c a rest, s.call = some c ∧ s.ext.answers = a :: rest ∧ nextWork s = .answer c a rest) ∨
          (∃ c, s.call = some c ∧ s.ext.answers = [] ∧ nextWork s = .waiting) ∨
          (∃ ok rest, s.call = none ∧ s.ext.reports = ok :: rest ∧ nextWork s = .report ok rest) ∨
          (∃ r rest, s.call = none ∧ s.ext.reports = [] ∧ s.ext.portI = r :: rest ∧ nextWork s = .command .I r rest) ∨
          (∃ r rest, s.call = none ∧ s.ext.reports = [] ∧ s.ext.portI = [] ∧ s.ext.portM = r :: rest ∧
            nextWork s = .command .M r rest) ∨
          (s.call = none ∧ s.ext.reports = [] ∧ s.ext.portI = [] ∧ s.ext.portM = [] ∧ nextWork s = .idle))) := by
  cases hr : s.ext.rst with
  | true => exact .inl ⟨rfl, by simp [nextWork, hr]⟩
  | false =>
    refine .inr ⟨rfl, ?_⟩
    cases hc : s.call with
    | some c =>
      cases ha : s.ext.answers with
      | nil => exact .inr (.inl ⟨c, rfl, rfl, by simp [nextWork, hr, hc, ha]⟩)
      | cons a rest => exact .inl ⟨c, a, rest, rfl, rfl, by simp [nextWork, hr, hc, ha]⟩
    | none =>
      refine .inr (.inr ?_)
      cases hp : s.ext.reports with
      | cons ok rest => exact .inl ⟨ok, rest, rfl, rfl, by simp [nextWork, hr, hc, hp]⟩
      | nil =>
        refine .inr ?_
        cases hI : s.ext.portI with
        | cons r rest => exact .inl ⟨r, rest, rfl, rfl, rfl, by simp [nextWork, hr, hc, hp, hI]⟩
        | nil =>
          refine .inr ?_
          cases hM : s.ext.portM with
          | cons r rest => exact .inl ⟨r, rest, rfl, rfl, rfl, rfl, by simp [nextWork, hr, hc, hp, hI, hM]⟩
          | nil => exact .inr ⟨rfl, rfl, rfl, rfl, by simp [nextWork, hr, hc, hp, hI, hM]⟩

/-- A step that answers a next state, by the work it did, before the outside world's turn. -/
theorem step_cases {s t : State} (h : step s = .next t) :
    ∃ u, t = arrive u ∧
      ((s.ext.rst = true ∧ u = hardwareReset s) ∨ u = s ∨
        (∃ c a rest, s.call = some c ∧ u = finishCall c.port a { s with ext := { s.ext with answers := rest } }) ∨
        (∃ ok rest, s.call = none ∧ u = homeDone ok { s with ext := { s.ext with reports := rest } }) ∨
        (∃ port e, s.call = none ∧ u = refuseForm { s with curPort := port, ext := e }) ∨
        ∃ port e i, s.call = none ∧ exec i { s with curPort := port, ext := e } = .next u) := by
  have run : ∀ port r rest, s.call = none → nextWork s = .command port r rest →
      ∃ u, t = arrive u ∧ ((∃ port e, s.call = none ∧ u = refuseForm { s with curPort := port, ext := e }) ∨
        ∃ port e i, s.call = none ∧ exec i { s with curPort := port, ext := e } = .next u) := by
    intro port r rest hc hw
    obtain ⟨e, he⟩ := accept_eq port rest s
    simp only [step, stepOnce, hw, runWork, runRecord, he] at h
    cases hd : decodeRecord r with
    | error w =>
      simp only [hd, thenArrive, Host.Outcome.next.injEq] at h
      exact ⟨_, h.symm, .inl ⟨port, e, hc, rfl⟩⟩
    | ok i =>
      simp only [hd] at h
      cases hx : exec i { s with curPort := port, ext := e } with
      | next u =>
        simp only [hx, thenArrive, Host.Outcome.next.injEq] at h
        exact ⟨u, h.symm, .inr ⟨port, e, i, hc, hx⟩⟩
      | fault f => simp [hx, thenArrive] at h
      | refused f => simp [hx, thenArrive] at h
  rcases nextWork_cases s with ⟨hr, hw⟩ | ⟨-, hw⟩
  · simp only [step, stepOnce, hw, runWork, thenArrive, Host.Outcome.next.injEq] at h
    exact ⟨_, h.symm, .inl ⟨hr, rfl⟩⟩
  · rcases hw with ⟨c, a, rest, hc, -, hw⟩ | ⟨c, -, -, hw⟩ | ⟨ok, rest, hc, -, hw⟩ | ⟨r, rest, hc, -, -, hw⟩ |
      ⟨r, rest, hc, -, -, -, hw⟩ | ⟨-, -, -, -, hw⟩
    · simp only [step, stepOnce, hw, runWork, thenArrive, Host.Outcome.next.injEq] at h
      exact ⟨_, h.symm, .inr (.inr (.inl ⟨c, a, rest, hc, rfl⟩))⟩
    · simp only [step, stepOnce, hw, runWork, thenArrive, Host.Outcome.next.injEq] at h
      exact ⟨_, h.symm, .inr (.inl rfl)⟩
    · simp only [step, stepOnce, hw, runWork, thenArrive, Host.Outcome.next.injEq] at h
      exact ⟨_, h.symm, .inr (.inr (.inr (.inl ⟨ok, rest, hc, rfl⟩)))⟩
    · obtain ⟨u, hu, hu'⟩ := run _ _ _ hc hw
      exact ⟨u, hu, .inr (.inr (.inr (.inr hu')))⟩
    · obtain ⟨u, hu, hu'⟩ := run _ _ _ hc hw
      exact ⟨u, hu, .inr (.inr (.inr (.inr hu')))⟩
    · simp only [step, stepOnce, hw, runWork, thenArrive, Host.Outcome.next.injEq] at h
      exact ⟨_, h.symm, .inr (.inl rfl)⟩

/-- No command stops (60_exceptions.md R252, R256: every stop of the block is a response). -/
theorem exec_next (i : Instr) (s : State) : ∃ t, exec i s = .next t := by
  cases i <;>
    simp only [exec, execInit, execShutdown, execStep, execSetlevel, execGetlevel, execIsref, execMoveaway, execSetmode,
      execSupinit, execPoll, execIskilled, execToolwr, execToolrd, execGoref, execEvent] <;>
    (try split) <;> (try split) <;> exact ⟨_, rfl⟩

end Sys2Proof.Machine
end

