-- ==== Sys2Proof/Laws/Exec.lean ====
section
/-! SUPPORT. What each command adds to the trace, said once for all fifteen (00_scope.md R14). -/

namespace Sys2Proof.Machine

/-- Tool pins changing, and nothing else. -/
def PinsOnly (es : List Event) : Prop := ∀ e ∈ es, ∃ p v, e = Event.toolPin p v

/-- Tool pins going off, and nothing else. -/
def PinsOff (es : List Event) : Prop := ∀ e ∈ es, ∃ p, e = Event.toolPin p 0

/-- What a command from `s` to `t` adds to the trace: the shape of its entries, in order. -/
def Adds (i : Instr) (s t : State) (es : List Event) : Prop :=
  match i with
  | .init =>
    ∃ sp, es = [.oe true] ++ sp ++ [reply s .ok 0] ∧
      (sp = [] ∨ ∃ b, sp = [.latch b] ∧ s.cfg.initSpuriousLatch = true)
  | .supinit =>
    ∃ sp, es = [.engReq .cfgLoad, .oe true] ++ sp ++ [.engReq .engInit, reply s .ok 0] ∧
      (sp = [] ∨ ∃ b, sp = [.latch b] ∧ s.cfg.initSpuriousLatch = true)
  | .shutdown => es = [.oe false, reply s .ok 0]
  | .step c _ =>
    (es = [reply s .notClaimed 0] ∧ s.claimed = false ∧ anyCount s.cfg.naxis c = true ∧
        t.faults = s.faults ++ [.notClaimed]) ∨
      ∃ bs : List Byte, es = bs.flatMap emission ++ [reply s .ok 0] ∧ (bs = [] ∨ s.claimed = true) ∧
        (s.claimed = false → anyCount s.cfg.naxis c = false)
  | .setlevel a _ f =>
    (es = [reply s .notClaimed 0] ∧ s.claimed = false ∧ a.toNat < s.cfg.naxis ∧ f = true ∧
        t.faults = s.faults ++ [.notClaimed]) ∨
      es = [reply s .ok 0] ∨
      ∃ b, f = true ∧ s.claimed = true ∧ a.toNat < s.cfg.naxis ∧ es = emission b ++ [reply s .ok 0]
  | .getlevel _ => ∃ d, es = [reply s .ok d]
  | .isref => ∃ d, es = [sampled s .ref, reply s .ok d]
  | .moveaway _ d r =>
    es = [reply s .illegal 0] ∨
      ∃ rs : List Event, (∀ e ∈ rs, ∃ k v, e = .cfgRd .maxTravel k v) ∧
        es = rs ++ [.engReq (.moveRel3 (moveDistance d s 0) (moveDistance d s 1) (moveDistance d s 2) r), reply s .ok 0]
  | .setmode _ _ => es = [reply s .ok 0]
  | .poll =>
    ∃ ps, PinsOff ps ∧ es = [.engReq .engPoll, sampled s .kill, sampled s .intKill] ++ ps ++
      [sampled s .resume, sampled s .hold, sampled s .holdResume, reply s .ok 0]
  | .iskilled => ∃ ps d, PinsOff ps ∧ es = [sampled s .kill, sampled s .intKill] ++ ps ++ [reply s .ok d]
  | .event e n =>
    ∃ ps, PinsOff ps ∧ es = [sampled s .kill, sampled s .intKill] ++ ps ++ [.engReq (.eventDefault e n), reply s .ok 0]
  | .toolwr tl l =>
    (∃ ps, PinsOnly ps ∧ es = ps ++ [reply s .ok 0]) ∨ es = [.engReq (.toolWrGeneric tl l), reply s .fallthrough 0]
  | .toolrd tl =>
    (∃ d, es = [sampled s .probe, reply s .ok d]) ∨ (∃ d, es = [reply s .ok d]) ∨
      (∃ a : Answer, es =
        [.engReq (.toolRdGeneric tl), .engRsp .toolRdGeneric a.ok a.data, reply s .fallthrough a.data]) ∨
      es = [.engReq (.toolRdGeneric tl)] ∧ s.ext.answers = [] ∧ t.call = some ⟨s.curPort, tl⟩
  | .goref a m =>
    es = [reply s .illegal 0] ∨
      es = [.engReq (.home a m s.cfg.rateFast)] ∧ s.homing.pass = .idle ∧ t.homing.pass = .fast

/-- The entries of the kill sample: two samples, then tool pins going off (R194). -/
theorem sampleKill_trace (hook : Bool) (s : State) :
    ∃ ps, (sampleKill hook s).trace = s.trace ++ ([sampled s .kill, sampled s .intKill] ++ ps) ∧ PinsOff ps := by
  obtain ⟨tools, es, h, h1, h2⟩ := sampleKill_eq hook s
  refine ⟨es, by rw [h], ?_⟩
  intro e he
  by_cases hk : killOff hook s
  · rw [(h2 hk).2] at he; exact killPins_off he
  · rw [(h1 hk).2] at he; simp at he

/-- Every command adds to the trace what its rule says, and nothing else. -/
theorem exec_adds (i : Instr) (s t : State) (h : exec i s = .next t) : ∃ es, t.trace = s.trace ++ es ∧ Adds i s t es := by
  cases i with
  | init =>
    cases h
    obtain ⟨b, es, e, he⟩ := initSequencer_eq s
    have tr : (initSequencer s).trace = s.trace ++ ([.oe true] ++ es) := by rw [e]
    refine ⟨_, ?_, es, rfl, ?_⟩
    · show (initSequencer s).trace ++ [reply (initSequencer s) _ _] = _
      rw [tr]; simp [reply]
    · by_cases hs : s.cfg.initSpuriousLatch = true
      · right; exact ⟨b, by rw [he, if_pos hs], hs⟩
      · left; rw [he, if_neg hs]
  | supinit =>
    cases h
    obtain ⟨b, es, e, he⟩ := initSequencer_eq (engPost .cfgLoad s)
    have tr : (initSequencer (engPost .cfgLoad s)).trace = (engPost .cfgLoad s).trace ++ ([.oe true] ++ es) := by
      rw [e]
    refine ⟨_, ?_, es, rfl, ?_⟩
    · show ((initSequencer (engPost .cfgLoad s)).trace ++ [.engReq .engInit]) ++ [_] = _
      rw [tr]; simp [reply, engPost_eq, supervisorRunning]
    · by_cases hs : s.cfg.initSpuriousLatch = true
      · right; exact ⟨b, by rw [he]; exact if_pos hs, hs⟩
      · left; rw [he]; exact if_neg hs
  | shutdown => cases h; exact ⟨[_, _], by simp [respond_eq, State.log]; rfl, rfl⟩
  | step c d =>
    by_cases hf : s.claimed = false ∧ anyCount s.cfg.naxis c = true
    · rw [exec, execStep_of_fault d hf.1 hf.2] at h
      cases h
      exact ⟨_, rfl, .inl ⟨rfl, hf.1, hf.2, rfl⟩⟩
    · rw [exec, execStep_of_not_fault d hf] at h
      cases h
      have : ∀ l : List Nat, ∀ u : State, ∃ bs : List Byte,
          (l.foldl (stepAxis c d) u).trace = u.trace ++ bs.flatMap emission := by
        intro l; induction l with
        | nil => intro u; exact ⟨[], by simp⟩
        | cons a l ih =>
          intro u
          obtain ⟨bs, hb⟩ := ih (stepAxis c d u a)
          rw [List.foldl_cons, hb]
          simp only [stepAxis]
          split
          · exact ⟨bs, rfl⟩
          · rw [emit_trace]
            exact ⟨_ :: bs, by rw [List.flatMap_cons, ← List.append_assoc]; rfl⟩
      by_cases hc : s.claimed = true
      · obtain ⟨bs, hb⟩ := this (List.range s.cfg.naxis) s
        refine ⟨bs.flatMap emission ++ [reply s .ok 0], ?_, .inr ⟨bs, rfl, .inr hc, by simp [hc]⟩⟩
        rw [respond_eq, log_trace]
        show (stepAxes c d s).trace ++ _ = _
        rw [stepAxes, hb, List.append_assoc, ← stepAxes]; simp [reply]
      · have hc' : s.claimed = false := by simpa using hc
        have h0 : anyCount s.cfg.naxis c = false := by
          by_contra hx; exact hf ⟨hc', by simpa using hx⟩
        rw [stepAxes_of_not_moves _ _ _ h0]
        exact ⟨[reply s .ok 0], rfl, .inr ⟨[], rfl, .inl rfl, fun _ => h0⟩⟩
  | setlevel a l f =>
    simp only [exec, execSetlevel] at h
    split at h
    · rename_i ha
      split at h
      · rename_i hc
        cases h
        simp only [Bool.and_eq_true, Bool.not_eq_true'] at hc
        exact ⟨_, rfl, .inl ⟨rfl, hc.2, ha, hc.1, rfl⟩⟩
      · rename_i hc
        cases h
        cases f with
        | false => exact ⟨_, rfl, .inr (.inl rfl)⟩
        | true =>
          refine ⟨_, ?_, .inr (.inr ⟨outByte (s.setLevel a.toNat (quantize s.cfg.reduced l)) a.toNat, rfl,
            by simpa using hc, ha, rfl⟩)⟩
          · simp [respond_eq, State.setLevel, reply]
    · cases h; exact ⟨_, rfl, .inr (.inl rfl)⟩
  | getlevel a => cases h; exact ⟨_, rfl, _, rfl⟩
  | isref => cases h; exact ⟨[_, _], by simp [respond_eq, sample_eq]; rfl, _, rfl⟩
  | moveaway a d r =>
    simp only [exec, execMoveaway] at h
    split at h
    · cases h; exact ⟨_, rfl, .inl rfl⟩
    · cases h
      have : ∃ rs : List Event, (∀ e ∈ rs, ∃ k v, e = .cfgRd .maxTravel k v) ∧ readTravels s = s.log rs := by
        simp only [readTravels, List.foldl, cfgReadMaxTravel]
        by_cases h0 : 0 < s.cfg.naxis <;> by_cases h1 : 1 < s.cfg.naxis <;> by_cases h2 : 2 < s.cfg.naxis <;>
          simp only [h0, h1, h2, if_true, if_false, log_log]
        iterate 7 (refine ⟨_, ?_, rfl⟩; intro e he; simp only [List.mem_append, List.mem_singleton] at he; aesop)
        exact ⟨[], by simp, by simp [State.log]⟩
      obtain ⟨rs, h1, h2⟩ := this
      refine ⟨_, ?_, .inr ⟨rs, h1, rfl⟩⟩
      rw [h2]; simp [respond_eq, engPost_eq, reply]
  | setmode a f => cases h; refine ⟨_, ?_, rfl⟩; split <;> rfl
  | poll =>
    cases h
    obtain ⟨ps, h1, h2⟩ := sampleKill_trace false (engPost .engPoll s)
    refine ⟨_, ?_, ps, h2, rfl⟩
    rw [engPost_eq] at h1
    simp [respond_eq, sample_eq, h1, engPost_eq, reply, sampled]
  | iskilled =>
    cases h
    obtain ⟨ps, h1, h2⟩ := sampleKill_trace false s
    refine ⟨_, ?_, ps, bitWord (decide ((sampleKill false s).ctl = .killed)), h2, rfl⟩
    simp [respond_eq, h1, reply]
  | event e n =>
    cases h
    obtain ⟨ps, h1, h2⟩ := sampleKill_trace (e == etypeKill) s
    refine ⟨_, ?_, ps, h2, rfl⟩
    simp only [respond_eq, h1, engPost_eq, reply, log_trace, List.append_assoc]
    simp
  | toolwr tl l =>
    simp only [exec, execToolwr] at h
    split at h
    · rename_i tt _
      cases h
      refine ⟨_, ?_, .inl ⟨toolPinChanges s.tools (toolRegsWritten s.tools l tt), fun e he => ?_, rfl⟩⟩
      · simp [respond_eq, reply]
      · obtain ⟨p, hp⟩ := mem_toolPinChanges he; exact ⟨p, _, hp⟩
    · cases h; exact ⟨[_, _], by simp [respond_eq, engPost_eq, reply], .inr rfl⟩
  | toolrd tl =>
    simp only [exec, execToolrd] at h
    split at h
    · cases h; exact ⟨[_, _], by simp [respond_eq, sample_eq]; rfl, .inl ⟨_, rfl⟩⟩
    · cases h; exact ⟨_, rfl, .inr (.inl ⟨_, rfl⟩)⟩
    · cases h
      simp only [callToolRead]
      split
      · rename_i a rest _
        exact ⟨[_,_,_], by simp [finishCall, State.log]; rfl, .inr (.inr (.inl ⟨a, rfl⟩))⟩
      · rename_i ha
        exact ⟨_, rfl, .inr (.inr (.inr ⟨rfl, ha, rfl⟩))⟩
  | goref a m =>
    simp only [exec, execGoref] at h
    split at h
    · cases h; exact ⟨_, rfl, .inl rfl⟩
    · split at h
      · cases h; exact ⟨_, rfl, .inl rfl⟩
      · rename_i hp
        cases h; exact ⟨_, rfl, .inr ⟨rfl, by simpa using hp, rfl⟩⟩

end Sys2Proof.Machine
end

