-- ==== Sys2Proof/Laws/PerInstr.lean ====
section
/-! SUPPORT. One statement for every command, a lemma for each constructor: the first word the encoder writes spells exactly
the command's row of the opcode map (30_encoding.md R94), with every reserved bit 0 (R105). -/

namespace Sys2Proof.Laws.SpellsItsRow

/-- The row of the opcode map a command belongs to (R94). -/
def rowOf : Instr → OpRow
  | .init => ⟨.init, 0x10000000#32, 0xFFFFFFFF#32⟩
  | .shutdown => ⟨.shutdown, 0x20000000#32, 0xFFFFFFFF#32⟩
  | .step _ _ => ⟨.step, 0x30000000#32, 0xFFFFFF00#32⟩
  | .setlevel _ _ _ => ⟨.setlevel, 0x40000000#32, 0xFFFE0000#32⟩
  | .getlevel _ => ⟨.getlevel, 0x50000000#32, 0xFFFFFF00#32⟩
  | .isref => ⟨.isref, 0x60000000#32, 0xFFFFFFFF#32⟩
  | .moveaway _ _ _ => ⟨.moveaway, 0x70000000#32, 0xFFFFFF00#32⟩
  | .setmode _ _ => ⟨.setmode, 0x80000000#32, 0xFFFFFE00#32⟩
  | .supinit => ⟨.supinit, 0x90000000#32, 0xFFFFFFFF#32⟩
  | .poll => ⟨.poll, 0xA0000000#32, 0xFFFFFFFF#32⟩
  | .iskilled => ⟨.iskilled, 0xB0000000#32, 0xFFFFFFFF#32⟩
  | .toolwr _ _ => ⟨.toolwr, 0xC0000000#32, 0xFFFF0000#32⟩
  | .toolrd _ => ⟨.toolrd, 0xD0000000#32, 0xFFFFFF00#32⟩
  | .goref _ _ => ⟨.goref, 0xE0000000#32, 0xFFFFFE00#32⟩
  | .event _ _ => ⟨.event, 0xF0000000#32, 0xFFFFFF00#32⟩

/-- The first word of the command spells its row. -/
def Statement (i : Instr) : Prop := rowOf i ∈ opcodeTable ∧ (rowOf i).spells (encodeW0 i) = true

/-- The statement, from the row written out. -/
theorem of_row {i : Instr} (row : OpRow) (hr : rowOf i = row) (hm : row ∈ opcodeTable)
    (h : encodeW0 i &&& row.mask = row.pattern) : Statement i := by
  subst hr; exact ⟨hm, beq_iff_eq.mpr h⟩

/-- A match value with no bit outside the mask, one short operand outside it. -/
theorem one (p m : Word) (k : Nat) (b : Byte) (hp : p &&& m = p) (hk : byteAt k 0xFF &&& m = 0) :
    (p ||| byteAt k b) &&& m = p := by
  rw [BitVec.and_or_distrib_right, hp, byteAt_and k b m hk]; exact BitVec.or_zero

/-- A second short operand. -/
theorem two (p m : Word) (x : Word) (k : Nat) (b : Byte) (hx : x &&& m = p) (hk : byteAt k 0xFF &&& m = 0) :
    (x ||| byteAt k b) &&& m = p := by
  rw [BitVec.and_or_distrib_right, hx, byteAt_and k b m hk]; exact BitVec.or_zero

/-- A flag. -/
theorem flag (p m : Word) (x : Word) (k : Nat) (b : Bool) (hx : x &&& m = p) (hk : flagAt k true &&& m = 0) :
    (x ||| flagAt k b) &&& m = p := by
  rw [BitVec.and_or_distrib_right, hx, flagAt_and k b m hk]; exact BitVec.or_zero

theorem init : Statement .init := ⟨by decide, by decide⟩
theorem shutdown : Statement .shutdown := ⟨by decide, by decide⟩
theorem isref : Statement .isref := ⟨by decide, by decide⟩
theorem supinit : Statement .supinit := ⟨by decide, by decide⟩
theorem poll : Statement .poll := ⟨by decide, by decide⟩
theorem iskilled : Statement .iskilled := ⟨by decide, by decide⟩

theorem step (count : Vector Byte 8) (dirMask : Byte) : Statement (.step count dirMask) :=
  of_row ⟨.step, 0x30000000#32, 0xFFFFFF00#32⟩ rfl (by decide)
    (one _ _ 0 dirMask (by decide) (by decide))

theorem setlevel (axis levelReq : Byte) (force : Bool) : Statement (.setlevel axis levelReq force) :=
  of_row ⟨.setlevel, 0x40000000#32, 0xFFFE0000#32⟩ rfl (by decide)
    (flag _ _ _ 16 force
    (two _ _ _ 8 levelReq (one _ _ 0 axis (by decide) (by decide)) (by decide)) (by decide))

theorem getlevel (axis : Byte) : Statement (.getlevel axis) :=
  of_row ⟨.getlevel, 0x50000000#32, 0xFFFFFF00#32⟩ rfl (by decide)
    (one _ _ 0 axis (by decide) (by decide))

theorem moveaway (axis : Byte) (dist maxRate : Word) : Statement (.moveaway axis dist maxRate) :=
  of_row ⟨.moveaway, 0x70000000#32, 0xFFFFFF00#32⟩ rfl (by decide)
    (one _ _ 0 axis (by decide) (by decide))

theorem setmode (axis : Byte) (half : Bool) : Statement (.setmode axis half) :=
  of_row ⟨.setmode, 0x80000000#32, 0xFFFFFE00#32⟩ rfl (by decide)
    (flag _ _ _ 8 half (one _ _ 0 axis (by decide) (by decide)) (by decide))

theorem toolwr (tool levelReq : Byte) : Statement (.toolwr tool levelReq) :=
  of_row ⟨.toolwr, 0xC0000000#32, 0xFFFF0000#32⟩ rfl (by decide)
    (two _ _ _ 8 levelReq (one _ _ 0 tool (by decide) (by decide)) (by decide))

theorem toolrd (tool : Byte) : Statement (.toolrd tool) :=
  of_row ⟨.toolrd, 0xD0000000#32, 0xFFFFFF00#32⟩ rfl (by decide)
    (one _ _ 0 tool (by decide) (by decide))

theorem goref (axis : Byte) (toMin : Bool) : Statement (.goref axis toMin) :=
  of_row ⟨.goref, 0xE0000000#32, 0xFFFFFE00#32⟩ rfl (by decide)
    (flag _ _ _ 8 toMin (one _ _ 0 axis (by decide) (by decide)) (by decide))

theorem event (etype : Byte) (info : Word) : Statement (.event etype info) :=
  of_row ⟨.event, 0xF0000000#32, 0xFFFFFF00#32⟩ rfl (by decide)
    (one _ _ 0 etype (by decide) (by decide))

end Sys2Proof.Laws.SpellsItsRow
end

