-- ==== Sys2Proof/Machine/Assembler.lean ====
section
/-! DEFINITION. The spelling of a command in the assembler notation of 30_encoding.md R112. -/

namespace Sys2Proof

/-- The decimal spelling of a byte or a word. -/
def spellNat {n : Nat} (v : BitVec n) : String := toString v.toNat

/-- A tool operand: its name, or its number where the board does not recognise it. -/
def spellTool (t : Byte) : String :=
  match Tool.ofCode t with
  | some .spindleCW => "spcw"
  | some .spindleCCW => "spccw"
  | some .probe => "probe"
  | some .coolant => "coolant"
  | some .controllerFan => "fan"
  | none => spellNat t

/-- An event type operand. -/
def spellEvent (e : Byte) : String := if e = etypeKill then "kill" else if e = etypeTick then "tick" else spellNat e

/-- The command in the notation of R112, every operand written. -/
def Instr.spell : Instr → String
  | .init => "INIT"
  | .shutdown => "SHUTDOWN"
  | .step count dirMask =>
    "STEP [" ++ String.intercalate ", " (count.toList.map spellNat) ++ "], dir=" ++ spellNat dirMask
  | .setlevel axis levelReq force =>
    "SETLEVEL " ++ spellNat axis ++ ", " ++ spellNat levelReq ++ (if force then ", force" else "")
  | .getlevel axis => "GETLEVEL " ++ spellNat axis
  | .isref => "ISREF"
  | .moveaway axis dist maxRate => "MOVEAWAY " ++ spellNat axis ++ ", " ++ toString dist.toInt ++ ", " ++ spellNat maxRate
  | .setmode axis half => "SETMODE " ++ spellNat axis ++ (if half then ", half" else ", full")
  | .supinit => "SUPINIT"
  | .poll => "POLL"
  | .iskilled => "ISKILLED"
  | .toolwr tool levelReq => "TOOLWR " ++ spellTool tool ++ ", " ++ spellNat levelReq
  | .toolrd tool => "TOOLRD " ++ spellTool tool
  | .goref axis toMin => "GOREF " ++ spellNat axis ++ (if toMin then ", min" else ", max")
  | .event etype info => "EVENT " ++ spellEvent etype ++ ", " ++ spellNat info

end Sys2Proof
end

