-- ==== Sys2Proof/Tests/Slice0.lean ====
section
/-! SUPPORT. The model's own tests: checks that refuse ill-formed terms, words written out from the spec's encodings, one or
two small steps for each command with results taken from 95_test_vectors.md, and for every statement with hypotheses a
state and operands that meet them. -/

namespace Sys2Proof.Tests

open Sys2Proof.Machine

/-! ### Small states -/

/-- The state of an answer, if it is a next state. -/
def out : Outcome State Fault Refusal → Option State
  | .next t => some t
  | .fault _ | .refused _ => none

/-- The block after reset (95, "from reset"). -/
def base : State := State.reset

/-- The block after INIT (95, "from init": only `CLAIMED` differs). -/
def ready : State := { base with claimed := true, trace := [] }

/-- The same with other levels at the input pins. -/
def withPins (p : Pins) (s : State) : State := { s with ext := { s.ext with pins := p } }

/-- All pins inactive (active high in TESTCFG). -/
def noPins : Pins := ⟨false, false, false, false, false, false, false⟩

/-- The same block with other parameters. -/
def withCfg (c : Config) (s : State) : State := { s with cfg := c }

/-- TESTCFG with the spurious latch. -/
def spurious : Config := { Config.testCfg with initSpuriousLatch := true }

/-- TESTCFG in a reduced build. -/
def reducedCfg : Config := { Config.testCfg with reduced := true }

/-- TESTCFG with the tools forced off by a kill. -/
def forceOff : Config := { Config.testCfg with killTools := .forceOff }

/-! ### WellFormed refuses: one ill-formed term for each check -/

theorem test_wf_testcfg : Config.testCfg.valid = true := by decide
theorem test_wf_reduced : reducedCfg.valid = true := by decide
theorem test_wf_refuses_v1 : { Config.testCfg with axis := [⟨0x40, .full, 1⟩, ⟨0x40, .full, 1⟩] }.valid = false := by decide
theorem test_wf_refuses_v2 : { Config.testCfg with axis := [⟨0x01, .full, 1⟩] }.valid = false := by decide
theorem test_wf_refuses_v3 : { Config.testCfg with addrField := 0xE0 }.valid = false := by decide
theorem test_wf_refuses_v5_none : { Config.testCfg with axis := [] }.valid = false := by decide
theorem test_wf_refuses_v5_cap : { Config.testCfg with driverCap := 2 }.valid = false := by decide
theorem test_wf_refuses_v5_eight : { Config.testCfg with driverCap := 9 }.valid = false := by decide
theorem test_wf_refuses_v6 : { Config.testCfg with rateSlow := 1000 }.valid = false := by decide
theorem test_wf_refuses_negative : (Instr.moveaway 0 0xFFFFFFFF 500).wellFormed Config.testCfg = false := by decide
theorem test_wf_refuses_axis : (Instr.goref 3 true).wellFormed Config.testCfg = false := by decide

/-! ### Decoding: the words of 95 E1, written out from 30_encoding.md R94 to R102 -/

theorem test_decode_init : decodeTableWord 32 0x10000000 = some .init := by decide
theorem test_decode_shutdown : decodeTableWord 32 0x20000000 = some .shutdown := by decide
theorem test_decode_step :
    decodeRecord (Record.ofWords 0x300000FF 0x04030201 0x08070605) = .ok (.step #v[1, 2, 3, 4, 5, 6, 7, 8] 0xFF) := by decide
theorem test_decode_step_lane3 :
    decodeRecord (Record.ofWords 0x30000000 0x09000000 0) = .ok (.step #v[0, 0, 0, 9, 0, 0, 0, 0] 0) := by decide
theorem test_decode_setlevel : decodeTableWord 32 0x40014600 = some (.setlevel 0 70 true) := by decide
theorem test_decode_setlevel_quiet : decodeTableWord 32 0x40006402 = some (.setlevel 2 100 false) := by decide
theorem test_decode_getlevel : decodeTableWord 32 0x50000001 = some (.getlevel 1) := by decide
theorem test_decode_isref : decodeTableWord 32 0x60000000 = some .isref := by decide
theorem test_decode_moveaway :
    decodeRecord (Record.ofWords 0x70000000 0x3E8 0x1F4) = .ok (.moveaway 0 1000 500) := by decide
theorem test_decode_setmode_half : decodeTableWord 32 0x80000100 = some (.setmode 0 true) := by decide
theorem test_decode_setmode_full : decodeTableWord 32 0x80000001 = some (.setmode 1 false) := by decide
theorem test_decode_supinit : decodeTableWord 32 0x90000000 = some .supinit := by decide
theorem test_decode_poll : decodeTableWord 32 0xA0000000 = some .poll := by decide
theorem test_decode_iskilled : decodeTableWord 32 0xB0000000 = some .iskilled := by decide
theorem test_decode_toolwr : decodeTableWord 32 0xC0006401 = some (.toolwr 1 100) := by decide
theorem test_decode_toolrd : decodeTableWord 32 0xD00000C8 = some (.toolrd 200) := by decide
theorem test_decode_goref : decodeTableWord 32 0xE0000002 = some (.goref 2 false) := by decide
theorem test_decode_event :
    decodeRecord (Record.ofWords 0xF0000007 0x1234 0) = .ok (.event 7 0x1234) := by decide
theorem test_decode_ignores_unused_words :
    decodeRecord (Record.ofWords 0x10000000 0xFFFFFFFF 0xFFFFFFFF) = .ok .init := by decide

/-- 95 E3: records that spell nothing. -/
theorem test_decode_refuses :
    ([0x00000000, 0x0FFFFFFF, 0x10000001, 0x30000100, 0x40020000, 0x50000100, 0x70000100, 0x80000200, 0xA8000000, 0xC0010000,
      0xD0000100, 0xE0000200, 0xF0000100].map fun w => decodeTableWord 32 w) = List.replicate 13 none := by decide

theorem test_disable : encode (Instr.disable 1) = Record.ofWords 0x40010001 0 0 := by decide
theorem test_step1_down : encode (Instr.step1 2 false) = Record.ofWords 0x30000000 0x00010000 0 := by decide
theorem test_step1_up : encode (Instr.step1 2 true) = Record.ofWords 0x30000004 0x00010000 0 := by decide

/-! ### One step for each command (95_test_vectors.md) -/

/-- L6. -/
theorem test_init :
    (out (exec .init base)).map (fun t => (t.trace, t.claimed, t.strobe, t.idle)) =
      some ([.oe true, .rsp .M .ok 0 false], true, true, .low) := by decide

/-- L7: the accumulators and levels return to 0 and Off. -/
theorem test_init_clears :
    (out (exec .init { base with axes := [⟨5, .max, .full⟩, ⟨2, .low, .full⟩, ⟨7, .off, .half⟩] })).map (·.axes) =
      some [⟨0, .off, .full⟩, ⟨0, .off, .full⟩, ⟨0, .off, .full⟩] := by decide

/-- L8. -/
theorem test_shutdown :
    (out (exec .shutdown { ready with axes := [⟨1, .max, .full⟩] })).map (fun t => (t.trace, t.claimed, t.axes, t.portOut)) =
      some ([.oe false, .rsp .M .ok 0 false], false, [⟨1, .max, .full⟩], none) := by decide

/-- S4: `LEVEL[2] = Low`, half-step, one step down from 0 gives index 7 and byte 0xAF. -/
theorem test_step_half_down :
    (out (exec (.step1 2 false) { ready with axes := [⟨0, .off, .full⟩, ⟨0, .off, .full⟩, ⟨0, .low, .half⟩] })).map
      (fun t => (t.phase 2, t.trace)) =
      some (7, [.portWr 0xAF, .strobe false, .strobe true, .latch 0xAF, .rsp .M .ok 0 false]) := by decide

/-- S9: ascending axis order, down, up, down. -/
theorem test_step_order :
    (out (exec (.step #v[1, 1, 1, 0, 0, 0, 0, 0] 0b010) ready)).map
      (fun t => (t.axes.map (·.phase), t.trace.filter fun e => match e with | .latch _ => true | _ => false, t.outPort)) =
      some ([3, 1, 3], [.latch 0x03, .latch 0x41, .latch 0x83], 0x83) := by decide

/-- X2 under TESTCFG. -/
theorem test_setlevel_force :
    (out (exec (.setlevel 0 70 true) ready)).map (fun t => (t.level 0, t.trace)) =
      some (.mid, [.portWr 0x10, .strobe false, .strobe true, .latch 0x10, .rsp .M .ok 0 false]) := by decide

/-- L3: NOTCLAIMED, and the level is not written. -/
theorem test_setlevel_not_claimed :
    (out (exec (.setlevel 0 200 true) base)).map (fun t => (t.level 0, t.trace, t.faults)) =
      some (.off, [.rsp .M .notClaimed 0 false], [.notClaimed]) := by decide

/-- L2. -/
theorem test_getlevel :
    (out (exec (.getlevel 0) { ready with axes := [⟨0, .max, .full⟩] })).map (·.trace) = some [.rsp .M .ok 3 false] := by decide

/-- P5 step 16. -/
theorem test_isref :
    (out (exec .isref (withPins { noPins with ref := true } base))).map (·.trace) =
      some [.sample .ref true, .rsp .M .ok 1 false] := by decide

/-- X3 under TESTCFG. -/
theorem test_moveaway :
    (out (exec (.moveaway 0 1000 500) base)).map (·.trace) =
      some [.cfgRd .maxTravel 0 1200, .cfgRd .maxTravel 1 800, .cfgRd .maxTravel 2 400,
        .engReq (.moveRel3 600 400 200 500), .rsp .M .ok 0 false] := by decide

/-- L9. -/
theorem test_setmode :
    (out (exec (.setmode 0 true) { ready with axes := [⟨3, .low, .full⟩, ⟨0, .off, .full⟩, ⟨0, .off, .full⟩] })).map
      (fun t => (t.phase 0, t.stepMode 0, t.trace)) = some (3, .half, [.rsp .M .ok 0 false]) := by decide

/-- P3 step 12: SUPINIT leaves Killed alone. -/
theorem test_supinit_killed :
    (out (exec .supinit { base with ctl := .killed, diagKill := true, diagHold := true })).map
      (fun t => (t.ctl, t.diagHold, t.diagKill, t.trace)) =
      some (.killed, false, true, [.engReq .cfgLoad, .oe true, .engReq .engInit, .rsp .M .ok 0 false]) := by decide

/-- P3 step 9: kill before hold. -/
theorem test_poll_kill :
    (out (exec .poll (withPins { noPins with kill := true, hold := true } ready))).map
      (fun t => (t.ctl, t.diagHold, t.diagKill, t.trace)) =
      some (.killed, false, true, [.engReq .engPoll, .sample .kill true, .sample .intKill false, .sample .resume false,
        .sample .hold true, .sample .holdResume false, .rsp .M .ok 0 false]) := by decide

/-- P3 step 5: the toggle pin resumes, and does not hold again in the same POLL. -/
theorem test_poll_toggle :
    (out (exec .poll (withPins { noPins with holdResume := true } { ready with ctl := .held, diagHold := true }))).map
      (fun t => (t.ctl, t.diagHold)) = some (.running, false) := by decide

/-- P3 step 10. -/
theorem test_iskilled :
    (out (exec .iskilled { ready with ctl := .killed, diagKill := true })).map (·.trace) =
      some [.sample .kill false, .sample .intKill false, .rsp .M .ok 1 false] := by decide

/-- T2: direction changes, the spindle stays on. -/
theorem test_toolwr :
    (out (exec (.toolwr 1 100) { base with tools := ⟨200, false, 0, 0⟩ })).map (fun t => (t.tools, t.trace)) =
      some (⟨100, true, 0, 0⟩, [.toolPin .spindleCcw 1, .rsp .M .ok 0 false]) := by decide

/-- T12. -/
theorem test_toolwr_fallthrough :
    (out (exec (.toolwr 9 17) base)).map (·.trace) =
      some [.engReq (.toolWrGeneric 9 17), .rsp .M .fallthrough 0 false] := by decide

/-- T3, T4. -/
theorem test_toolrd :
    ([0, 1].map fun c => (out (exec (.toolrd c) { base with tools := ⟨100, true, 0, 0⟩ })).map (·.trace)) =
      [some [.rsp .M .ok 0 false], some [.rsp .M .ok 100 false]] := by decide

/-- T15: the answer's `ok` is ignored. -/
theorem test_toolrd_fallthrough :
    (out (exec (.toolrd 200) { base with ext := { base.ext with answers := [⟨false, 5⟩] } })).map (·.trace) =
      some [.engReq (.toolRdGeneric 200), .engRsp .toolRdGeneric false 5, .rsp .M .fallthrough 5 false] := by decide

/-- H1, first segment. -/
theorem test_goref :
    (out (exec (.goref 0 true) base)).map (fun t => (t.homing, t.trace)) =
      some (⟨.fast, 0, true, .M⟩, [.engReq (.home 0 true 1000)]) := by decide

/-- H4: a second sequence is refused. -/
theorem test_goref_busy :
    (out (exec (.goref 1 true) { base with homing := ⟨.fast, 0, true, .M⟩ })).map (fun t => (t.homing, t.trace)) =
      some (⟨.fast, 0, true, .M⟩, [.rsp .M .illegal 0 false]) := by decide

/-- R206: the kill hook kills without a kill pin. -/
theorem test_event_hook :
    (out (exec (.event 0 0) base)).map (fun t => (t.ctl, t.trace)) =
      some (.killed, [.sample .kill false, .sample .intKill false, .engReq (.eventDefault 0 0), .rsp .M .ok 0 false]) := by
  decide

/-- R194 under `force_off`: the levels go to 0, the direction stays. -/
theorem test_event_force_off :
    (out (exec (.event 0 0) (withCfg forceOff { base with tools := ⟨9, true, 1, 7⟩ }))).map (·.tools) =
      some ⟨0, true, 0, 0⟩ := by decide

/-- H1, second report. -/
theorem test_homedone_ends :
    (out (step { base with homing := ⟨.slow, 0, true, .M⟩, ext := { base.ext with reports := [true] } })).map
      (fun t => (t.homing.pass, t.trace)) = some (.idle, [.engRsp .home true 0, .rsp .M .ok 0 true]) := by decide

/-- Q6: both ports offer a command, port I is accepted first. -/
theorem test_port_i_first :
    (out (step { ready with ext := { ready.ext with
      portM := [encode (.setlevel 0 255 true)], portI := [encode (.step1 0 true)] } })).map
      (fun t => (t.trace.getLast?, t.ext.portM)) =
      some (some (.rsp .I .ok 0 false), [encode (.setlevel 0 255 true)]) := by decide

/-- The host's way in: a placed record is the first to run after reset. -/
theorem test_with_fetch_word :
    (out (step (State.reset.withFetchWord 32 0x10000000))).map (fun t => (t.claimed, t.trace)) =
      some (true, [.oe true, .rsp .M .ok 0 false]) := by decide

theorem test_spell : (Instr.setlevel 2 100 false).spell = "SETLEVEL 2, 100" := by decide

/-! ### Witnesses: a state and operands for every hypothesis of every statement -/

/-- The invariant holds of a claimed block under TESTCFG. -/
theorem witness_invariant : BlockInv ready :=
  ⟨by decide, by decide, by decide, by decide, by decide, by decide, by decide, by decide, by decide, by decide, by decide⟩

/-- The invariant holds of a reduced build. -/
theorem witness_invariant_reduced : BlockInv (withCfg reducedCfg ready) :=
  ⟨by decide, by decide, by decide, by decide, by decide, by decide, by decide, by decide, by decide, by decide, by decide⟩

/-- `OnlyValidParametersAreConfigured`, first clause: TESTCFG meets V1, V2, V3, V5, V6. -/
theorem witness_OnlyValidParametersAreConfigured_valid :
    let c := Config.testCfg
    (∀ a b, a < c.naxis → b < c.naxis → a ≠ b → c.addr a ≠ c.addr b) ∧
      (∀ a < c.naxis, c.addr a &&& ~~~c.addrField = 0) ∧
      (∀ l : Level, (c.reduced = true → l ≠ .mid) → ∀ (m : StepMode) (i : BitVec 3), c.tableCode m l i &&& c.addrField = 0) ∧
      (1 ≤ c.naxis ∧ c.naxis ≤ c.driverCap ∧ c.driverCap ≤ 8) ∧ c.rateSlow < c.rateFast :=
  ⟨fun _ _ ha hb hne h => hne (Config.addr_injective test_wf_testcfg ha hb h),
    fun _ ha => Config.addr_in_field test_wf_testcfg ha,
    fun l hl m i => Config.tableCode_outside_field test_wf_testcfg ((Config.mem_levels _ l).mpr hl) m i,
    by decide, by decide⟩

/-- `OnlyValidParametersAreConfigured`, second clause: equal rates. -/
theorem witness_OnlyValidParametersAreConfigured_invalid :
    ¬{ Config.testCfg with rateSlow := 1000 }.rateSlow < { Config.testCfg with rateSlow := 1000 }.rateFast := by decide

/-- `ResetLeavesTheStatedValues`: the first and the last axis exist. -/
theorem witness_ResetLeavesTheStatedValues : 0 < Config.testCfg.naxis ∧ 2 < Config.testCfg.naxis := by decide

/-- `ResetMeetsTheInvariant`. -/
theorem witness_ResetMeetsTheInvariant : Config.testCfg.valid = true := by decide

/-- `HardwareResetRestoresTheResetState`: reset asserted while a TOOLRD waits. -/
theorem witness_HardwareResetRestoresTheResetState :
    { ready with call := some ⟨.I, 200⟩, ext := { ready.ext with rst := true } }.ext.rst = true := by decide

/-- `EncodeInvertsDecode`: a record for each kind of format. -/
theorem witness_EncodeInvertsDecode :
    decodeRecord (Record.ofWords 0x30000000 1 2) = .ok (.step #v[1, 0, 0, 0, 2, 0, 0, 0] 0) ∧
      decodeRecord (Record.ofWords 0x700000FF 1 2) = .ok (.moveaway 255 1 2) ∧
      decodeRecord (Record.ofWords 0xF00000FF 1 2) = .ok (.event 255 1) ∧
      decodeRecord (Record.ofWords 0x60000000 1 2) = .ok .isref := by decide

/-- `RecordThatSpellsNothingIsAnsweredIllegal`: both reasons, on either port. -/
theorem witness_RecordThatSpellsNothingIsAnsweredIllegal :
    decodeRecord 0 = .error .reservedOpcode ∧ decodeRecord (Record.ofWords 0x10000001 0 0) = .error (.reservedBits 1) ∧
      (let s := { ready with ext := { ready.ext with portI := [0] } }
       s.ext.rst = false ∧ s.call = none ∧ s.ext.reports = [] ∧ s.ext.portI = [0]) ∧
      (let s := { ready with ext := { ready.ext with portM := [0] } }
       s.ext.rst = false ∧ s.call = none ∧ s.ext.reports = [] ∧ s.ext.portI = [] ∧ s.ext.portM = [0]) := by decide

/-- `StepRunsTheDecodedCommand`: a command on either port. -/
theorem witness_StepRunsTheDecodedCommand :
    let r := Record.ofWords 0xA0000000 0 0
    decodeRecord r = .ok .poll ∧
      (let s := { ready with ext := { ready.ext with portI := [r] } }
       s.ext.rst = false ∧ s.call = none ∧ s.ext.reports = [] ∧ s.ext.portI = [r]) ∧
      (let s := { ready with ext := { ready.ext with portM := [r] } }
       s.ext.rst = false ∧ s.call = none ∧ s.ext.reports = [] ∧ s.ext.portI = [] ∧ s.ext.portM = [r]) := by decide

/-- `HomedoneReportIsHandledFirst`: a report in each stage, good and bad. -/
theorem witness_HomedoneReportIsHandledFirst :
    ∀ pass ∈ [HomingPass.idle, .fast, .slow], ∀ ok ∈ [true, false],
      let s := { ready with homing := ⟨pass, 0, true, .M⟩, ext := { ready.ext with reports := [ok] } }
      s.ext.rst = false ∧ s.call = none ∧ s.ext.reports = [ok] ∧ s.homing.pass = pass := by decide

/-- `WaitingCallOrIdleBlockAcceptsNothing`: an answered call, a waiting call, an idle block. -/
theorem witness_WaitingCallOrIdleBlockAcceptsNothing :
    (let s := { ready with call := some ⟨.M, 200⟩, ext := { ready.ext with answers := [⟨true, 77⟩] } }
     s.ext.rst = false ∧ s.call = some ⟨.M, 200⟩ ∧ s.ext.answers = [⟨true, 77⟩]) ∧
      (let s := { ready with call := some ⟨.M, 200⟩ }
       s.ext.rst = false ∧ s.call = some ⟨.M, 200⟩ ∧ s.ext.answers = []) ∧
      ready.ext.rst = false ∧ ready.call = none ∧ ready.ext.reports = [] ∧ ready.ext.portI = [] ∧ ready.ext.portM = [] := by
  decide

/-- `UnansweredCallBlocksForEver`: a waiting call while the outside still offers commands. -/
theorem witness_UnansweredCallBlocksForEver :
    let m : Moment := ⟨noPins, false, [0], [0], [true], []⟩
    let s := { ready with call := some ⟨.M, 200⟩, ext := { ready.ext with script := [m] } }
    s.call = some ⟨.M, 200⟩ ∧ s.ext.rst = false ∧ s.ext.answers = [] ∧
      ∀ m ∈ s.ext.script, m.rst = false ∧ m.answers = [] := by decide

/-- `AcceptedExactlyWhereValidAndReady`: either port accepted, port M held back by port I and by a report, both held back by a
waiting call and by reset. -/
theorem witness_AcceptedExactlyWhereValidAndReady :
    let onI := { ready with ext := { ready.ext with portI := [0], portM := [0] } }
    let onM := { ready with ext := { ready.ext with portM := [0] } }
    (onI.cmdReady .I = true ∧ onI.offered .I = [0]) ∧ (onI.cmdReady .M && onI.cmdValid .M) = false ∧
      (onM.cmdReady .M = true ∧ onM.offered .M = [0]) ∧ (onM.cmdReady .I && onM.cmdValid .I) = false ∧
      { onM with ext := { onM.ext with reports := [true] } }.cmdReady .M = false ∧
      { onM with call := some ⟨.I, 200⟩ }.call ≠ none ∧ { onM with ext := { onM.ext with rst := true } }.ext.rst = true ∧
      ready.call = none ∧ ready.ext.rst = false ∧ ready.ext.reports = [] ∧ ready.ext.portI = [] := by decide

/-- `EachPinIsSampledAtMostOnce`, `OwnershipOfTheRegisters`, `OnlyEmissionsWriteThePort`, `PortDoesNotChangeTheEffect`: every
command answers a next state. -/
theorem witness_exec_next (i : Instr) : ∃ t, exec i ready = .next t := exec_next i ready

/-- `InitResult` and `SupinitResult`: blocks without and with the spurious latch. -/
theorem witness_InitResult :
    ready.cfg.initSpuriousLatch = false ∧ (withCfg spurious ready).cfg.initSpuriousLatch = true := by decide

/-- `SetmodeResult`, `SetlevelWritesOnlyTheLevel`, `ForcedSetlevelEmitsTheNewLevel`: the last axis in range and the first out
of range, on claimed lines. -/
theorem witness_axis_in_and_out_of_range :
    ready.axes.length = ready.cfg.naxis ∧ ready.claimed = true ∧ (2 : Byte).toNat < ready.cfg.naxis ∧
      ready.cfg.naxis ≤ (3 : Byte).toNat := by decide

/-- `StepMovesTheAccumulators`: claimed lines with counts 0 and 255, and released lines with no count in range. -/
theorem witness_StepMovesTheAccumulators :
    (ready.axes.length = ready.cfg.naxis ∧ ready.cfg.naxis ≤ 8 ∧ ready.claimed = true ∧
        (#v[255, 0, 1, 0, 0, 0, 0, 0] : Vector Byte 8)[0] ≠ 0 ∧ (#v[255, 0, 1, 0, 0, 0, 0, 0] : Vector Byte 8)[1] = 0) ∧
      base.axes.length = base.cfg.naxis ∧ base.claimed = false ∧
        ∀ a, ∀ h : a < 8, a < base.cfg.naxis → (#v[0, 0, 0, 9, 0, 0, 0, 0] : Vector Byte 8)[a] = 0 := by
  exact ⟨by decide, by decide, by decide, by decide⟩

/-- `StepEmitsMovedAxesInOrder`. -/
theorem witness_StepEmitsMovedAxesInOrder :
    ready.axes.length = ready.cfg.naxis ∧ ready.claimed = true ∧
      ∃ t, exec (.step #v[1, 0, 1, 0, 0, 0, 0, 0] 1) ready = .next t := ⟨by decide, by decide, exec_next _ _⟩

/-- `StepWithoutInRangeCountsDoesNothing`: only lanes out of range. -/
theorem witness_StepWithoutInRangeCountsDoesNothing :
    ∀ a, ∀ h : a < 8, a < ready.cfg.naxis → (#v[0, 0, 0, 7, 7, 7, 7, 7] : Vector Byte 8)[a] = 0 := by decide

/-- `StepUpdatesTheChipForMovedAxesOnly`. -/
theorem witness_StepUpdatesTheChipForMovedAxesOnly :
    BlockInv ready ∧ ready.claimed = true ∧ 2 < ready.cfg.naxis ∧
      ∃ t, exec (.step #v[1, 0, 1, 0, 0, 0, 0, 0] 1) ready = .next t := ⟨witness_invariant, by decide, by decide, exec_next _ _⟩

/-- `AddingTheAddressBitsIsOr`: the last axis, and the level Mid of a build that has it. -/
theorem witness_AddingTheAddressBitsIsOr :
    Config.testCfg.valid = true ∧ 2 < Config.testCfg.naxis ∧ Level.mid ∈ Config.testCfg.levels := by decide

/-- `NotClaimedIsRaisedExactlyForEmissions`: both commands, on released and on claimed lines. -/
theorem witness_NotClaimedIsRaisedExactlyForEmissions :
    (∃ a, ∃ h : a < 8, a < base.cfg.naxis ∧ (#v[0, 0, 1, 0, 0, 0, 0, 0] : Vector Byte 8)[a] ≠ 0) ∧ base.claimed = false ∧
      ((2 : Byte).toNat < base.cfg.naxis ∧ ¬(3 : Byte).toNat < base.cfg.naxis) ∧ ready.claimed = true :=
  ⟨⟨2, by decide, by decide, by decide⟩, by decide, by decide, by decide⟩

/-- `QuantizeFollowsTheThresholds`: each clause at both ends of its range (95 V1, V2). -/
theorem witness_QuantizeFollowsTheThresholds :
    ([0, 1, 51, 52, 153, 154, 255].map (quantize false)) = [.off, .low, .low, .mid, .mid, .max, .max] ∧
      ([0, 1, 51, 52, 153, 154, 255].map (quantize true)) = [.off, .low, .low, .low, .low, .max, .max] := by decide

/-- `MoveawayPostsOneClampedMove`: the smallest and the largest distance that is not negative, and the two ends below 0. -/
theorem witness_MoveawayPostsOneClampedMove :
    0 ≤ (0 : Word).toInt ∧ 0 ≤ (0x7FFFFFFF : Word).toInt ∧ (0xFFFFFFFF : Word).toInt < 0 ∧ (0x80000000 : Word).toInt < 0 := by
  decide

/-- `StepKeepsMovesClamped`, `StepKeepsTheInvariant`, `EveryStepGoesOnAndTheTraceOnlyGrows`, `StepLatchesOnlyLegalBytes`: a
block that meets the invariant, with nothing moved or latched yet, and a command to run. -/
theorem witness_steps :
    let s := { ready with ext := { ready.ext with portM := [encode (.moveaway 0 1000 500)] } }
    BlockInv s ∧ s.cfg.initSpuriousLatch = false ∧ LatchesLegal s ∧ MovesClamped s ∧ ∃ t, step s = .next t := by
  refine ⟨⟨by decide, by decide, by decide, by decide, by decide, by decide, by decide, by decide, by decide, by decide,
    by decide⟩, by decide, ?_, ?_, ⟨_, rfl⟩⟩
  · intro b h; exact absurd h (by simp [ready])
  · intro d0 d1 d2 rate h; exact absurd h (by simp [ready])

/-- `PollFollowsTheTransitionTable`: each mode, with its diagnostic. -/
theorem witness_PollFollowsTheTransitionTable :
    ∀ m ∈ [CtlMode.running, .held, .killed],
      let s := { ready with ctl := m, diagKill := decide (m = CtlMode.killed) }
      s.diagKill = decide (s.ctl = CtlMode.killed) := by decide

/-- `PollTraceAndFrame`, `IskilledAnswersTheLatch`, `EventSamplesKillThenForwards`: a kill that forces the tools off, and one
that does not. -/
theorem witness_kill_forces_off :
    let s := withCfg forceOff (withPins { noPins with kill := true } ready)
    (reads s .kill || reads s .intKill) = true ∧ s.cfg.killTools = .forceOff ∧ s.ctl ≠ .killed ∧
      ready.cfg.killTools ≠ .forceOff := by decide

/-- `KilledIsTerminal`. -/
theorem witness_KilledIsTerminal :
    let s := { ready with ctl := .killed, diagKill := true, ext := { ready.ext with portM := [encode .supinit] } }
    s.ext.rst = false ∧ s.ctl = .killed ∧ s.diagKill = true ∧ ∃ t, step s = .next t :=
  ⟨by decide, by decide, by decide, ⟨_, rfl⟩⟩

/-- `ModeChangesOnlyWhereTheSpecSays`: a command that changes the mode. -/
theorem witness_ModeChangesOnlyWhereTheSpecSays :
    ∃ t, exec (.event 0 0) ready = .next t ∧ t.ctl ≠ ready.ctl := ⟨_, rfl, by decide⟩

/-- `ModeGatesNothing`. -/
theorem witness_ModeGatesNothing :
    (Instr.step #v[1, 0, 0, 0, 0, 0, 0, 0] 1).usesMode = false ∧
      ∃ t, exec (.step #v[1, 0, 0, 0, 0, 0, 0, 0] 1) ready = .next t := ⟨by decide, exec_next _ _⟩

/-- `OwnershipOfTheRegisters`: a command on either side, and one that is both. -/
theorem witness_OwnershipOfTheRegisters :
    Instr.poll.drivesSequencer = false ∧ Instr.init.drivesSequencer = true ∧ Instr.init ≠ .supinit ∧
      Instr.supinit.drivesSequencer = true := by decide

/-- `OnlyEmissionsWriteThePort`: a command that writes the port. -/
theorem witness_OnlyEmissionsWriteThePort :
    ∃ t, exec (.setlevel 2 255 true) ready = .next t ∧ t.outPort ≠ ready.outPort := ⟨_, rfl, by decide⟩

/-- `ToolwrResult`, `ToolrdResult`: the first unrecognised code, with and without
an answer. -/
theorem witness_tools :
    5 ≤ (5 : Byte).toNat ∧ ready.ext.answers = [] ∧
      (let s := { ready with ext := { ready.ext with answers := [⟨false, 5⟩] } }
       s.ext.answers = [⟨false, 5⟩] ∧ s.call = none) := by decide

/-- `ToolWriteIsReadBack`: a write, commands between, no kill. -/
theorem witness_ToolWriteIsReadBack :
    ∃ t u, exec (.toolwr 3 7) ready = .next t ∧ execAll [.toolwr 4 9, .iskilled] t = .next u ∧
      (∀ i ∈ [Instr.toolwr 4 9, .iskilled], i.writesTool .coolant = false) ∧ t.cfg.killTools = .retain :=
  ⟨_, _, rfl, rfl, by decide, by decide⟩

/-- `ToolWriteIsReadBack`, the other clauses: spindle writes in both directions. -/
theorem witness_ToolWriteIsReadBack_spindle :
    (∃ t, exec (.toolwr 0 200) ready = .next t) ∧ ∃ t, exec (.toolwr 1 100) ready = .next t :=
  ⟨exec_next _ _, exec_next _ _⟩

/-- `GorefStartsOneSequence`: in range and idle, out of range, and busy. -/
theorem witness_GorefStartsOneSequence :
    ((2 : Byte).toNat < ready.cfg.naxis ∧ ready.homing.pass = .idle) ∧ ready.cfg.naxis ≤ (3 : Byte).toNat ∧
      { ready with homing := ⟨.slow, 0, true, .M⟩ }.homing.pass ≠ .idle := by decide

/-- `StepKeepsTheHomingBooks`: the books are straight at reset, and a GOREF is offered. -/
theorem witness_StepKeepsTheHomingBooks :
    let s := { ready with ext := { ready.ext with portM := [encode (.goref 0 true)] } }
    s.cfg.rateSlow < s.cfg.rateFast ∧ s.ext.rst = false ∧ HomingBooks s ∧ ∃ t, step s = .next t :=
  ⟨by decide, by decide, by simp [HomingBooks, ready, base, State.reset, State.resetOf], ⟨_, rfl⟩⟩

/-- `ReducedBuildNeverReadsTheMidRows`. -/
theorem witness_ReducedBuildNeverReadsTheMidRows :
    BlockInv (withCfg reducedCfg ready) ∧ (withCfg reducedCfg ready).cfg.reduced = true ∧
      ∃ t, exec (.setlevel 0 70 true) (withCfg reducedCfg ready) = .next t :=
  ⟨witness_invariant_reduced, by decide, exec_next _ _⟩

end Sys2Proof.Tests
end

section
/-! PROOFS. Statements on the encoding (30_encoding.md). A record spells a row of the opcode map exactly when it decodes to
a command of that row: the row a command belongs to is `rowOf`, and the operands the decoder reads never leave the row. -/

namespace Sys2Proof
open Laws.SpellsItsRow (rowOf)

/-- The command the decoder builds for a row of the opcode map belongs to that row. -/
theorem rowOf_operandsOf (r : Record) {row : OpRow} (hm : row ∈ opcodeTable) : rowOf (operandsOf r row.op) = row := by
  revert row
  simp [opcodeTable, operandsOf, rowOf]

/-- A record whose `W0` under a row's mask is the row's match value decodes to the command of that row (R94). -/
theorem decodeRecord_of_and_mask {r : Record} {pattern mask : Word} (op : Opcode)
    (hm : ⟨op, pattern, mask⟩ ∈ opcodeTable) (h : r.w0 &&& mask = pattern) : decodeRecord r = .ok (operandsOf r op) :=
  decodeRecord_of_spells hm (beq_iff_eq.mpr h)

/-- `W0` of a record that decodes, under the mask of its command's row, is the row's match value (R94). -/
theorem and_mask_of_decodeRecord {r : Record} {i : Instr} (h : decodeRecord r = .ok i) :
    r.w0 &&& (rowOf i).mask = (rowOf i).pattern := by
  obtain ⟨row, hm, hs, rfl⟩ := spells_of_decodeRecord h
  rw [rowOf_operandsOf r hm]
  exact beq_iff_eq.mp hs

/-- Settles O9, row by row: the match value and the mask fix the row, the row fixes the command, and the operands are
whatever the decoder reads. -/
theorem recordSpellsTheRowItMatches : Obligations.RecordSpellsTheRowItMatches := fun _ =>
  ⟨⟨decodeRecord_of_and_mask .init (by decide), and_mask_of_decodeRecord⟩,
   ⟨decodeRecord_of_and_mask .shutdown (by decide), and_mask_of_decodeRecord⟩,
   ⟨fun h => ⟨_, _, decodeRecord_of_and_mask .step (by decide) h⟩, fun ⟨_, _, h⟩ => and_mask_of_decodeRecord h⟩,
   ⟨fun h => ⟨_, _, _, decodeRecord_of_and_mask .setlevel (by decide) h⟩, fun ⟨_, _, _, h⟩ => and_mask_of_decodeRecord h⟩,
   ⟨fun h => ⟨_, decodeRecord_of_and_mask .getlevel (by decide) h⟩, fun ⟨_, h⟩ => and_mask_of_decodeRecord h⟩,
   ⟨decodeRecord_of_and_mask .isref (by decide), and_mask_of_decodeRecord⟩,
   ⟨fun h => ⟨_, _, _, decodeRecord_of_and_mask .moveaway (by decide) h⟩, fun ⟨_, _, _, h⟩ => and_mask_of_decodeRecord h⟩,
   ⟨fun h => ⟨_, _, decodeRecord_of_and_mask .setmode (by decide) h⟩, fun ⟨_, _, h⟩ => and_mask_of_decodeRecord h⟩,
   ⟨decodeRecord_of_and_mask .supinit (by decide), and_mask_of_decodeRecord⟩,
   ⟨decodeRecord_of_and_mask .poll (by decide), and_mask_of_decodeRecord⟩,
   ⟨decodeRecord_of_and_mask .iskilled (by decide), and_mask_of_decodeRecord⟩,
   ⟨fun h => ⟨_, _, decodeRecord_of_and_mask .toolwr (by decide) h⟩, fun ⟨_, _, h⟩ => and_mask_of_decodeRecord h⟩,
   ⟨fun h => ⟨_, decodeRecord_of_and_mask .toolrd (by decide) h⟩, fun ⟨_, h⟩ => and_mask_of_decodeRecord h⟩,
   ⟨fun h => ⟨_, _, decodeRecord_of_and_mask .goref (by decide) h⟩, fun ⟨_, _, h⟩ => and_mask_of_decodeRecord h⟩,
   ⟨fun h => ⟨_, _, decodeRecord_of_and_mask .event (by decide) h⟩, fun ⟨_, _, h⟩ => and_mask_of_decodeRecord h⟩⟩

end Sys2Proof
end

section
/-! PROOFS. Statements on the sequencer's lifecycle (40_sequencer_lifecycle.md): SHUTDOWN as one update and the lines it
leaves floating, SETMODE as one update and the registers of each axis after it. -/

namespace Sys2Proof.Machine

/-- Released output lines are high-impedance, all three groups (R122, R124). -/
theorem outputs_float_of_released {s : State} (h : s.claimed = false) :
    s.portOut = none ∧ s.strobeOut = none ∧ s.auxOut = none := by
  simp [State.portOut, State.strobeOut, State.auxOut, h]

/-- SHUTDOWN as one update: one flag and two entries of the trace (R124). -/
theorem exec_shutdown (s : State) :
    exec .shutdown s = .next { s with claimed := false, trace := s.trace ++ [.oe false, reply s .ok 0] } := by
  simp [exec, execShutdown, respond_eq, State.log, reply]

/-- SETMODE of an axis in range writes its step mode and answers OK (R126). -/
theorem exec_setmode_of_lt {axis : Byte} {s : State} (half : Bool) (h : axis.toNat < s.cfg.naxis) :
    exec (.setmode axis half) s =
      .next ((s.setStepMode axis.toNat (if half then .half else .full)).log [reply s .ok 0]) := by
  simp only [exec, execSetmode, if_pos h]; rfl

/-- SETMODE of an axis out of range only answers OK (R126). -/
theorem exec_setmode_of_le {axis : Byte} {s : State} (half : Bool) (h : s.cfg.naxis ≤ axis.toNat) :
    exec (.setmode axis half) s = .next (s.log [reply s .ok 0]) := by
  simp only [exec, execSetmode, if_neg (Nat.not_lt.mpr h), respond_eq]

/-- Settles O18: SHUTDOWN is one update, and the lines it releases float. -/
theorem shutdownResult : Obligations.ShutdownResult := fun s =>
  ⟨exec_shutdown s, outputs_float_of_released rfl⟩

/-- Settles O19, by whether the axis is in range: if it is, the laws of `STEPMODE[a] <- v` give every register; if not, no
axis below `NAXIS` is the one named. -/
theorem setmodeResult : Obligations.SetmodeResult := by
  intro axis half s hlen
  obtain h | h := Nat.lt_or_ge axis.toNat s.cfg.naxis
  · refine ⟨_, exec_setmode_of_lt half h, rfl, ?_, fun a _ => ⟨?_, ?_, ?_⟩⟩
    · exact (setAxis_axes_length ..).trans hlen
    · exact phase_setStepMode ..
    · exact level_setStepMode ..
    · simp only [stepMode_log, stepMode_setStepMode, hlen, h, and_true]
  · refine ⟨_, exec_setmode_of_le half h, rfl, hlen, fun a ha => ⟨rfl, rfl, ?_⟩⟩
    have hne : a ≠ axis.toNat := (ha.trans_le h).ne
    exact (if_neg hne).symm

end Sys2Proof.Machine
end

section
/-! PROOFS. Statements on the enable levels (42_sequencer_level.md): the quantiser by its thresholds, one law for each
level, and GETLEVEL as one response. -/

namespace Sys2Proof

/-- Above 153 the quantiser gives Max, reduced or not (R160). -/
theorem quantize_of_gt_max (reduced : Bool) {v : Byte} (h : v.toNat > 153) : quantize reduced v = .max := if_pos h

/-- From 52 to 153 a full build gives Mid (R160). -/
theorem quantize_false_of_gt_mid {v : Byte} (hmax : v.toNat ≤ 153) (hmid : v.toNat > 51) : quantize false v = .mid := by
  have hmid' : (!false && decide (v.toNat > Config.tMid)) = true := decide_eq_true hmid
  rw [quantize, if_neg hmax.not_gt, if_pos hmid']

/-- From 1 to 153 the quantiser gives Low wherever it cannot give Mid: up to 51, or in a reduced build (R160). -/
theorem quantize_of_gt_low {reduced : Bool} {v : Byte} (hmax : v.toNat ≤ 153) (hlow : v.toNat > 0)
    (hmid : v.toNat ≤ 51 ∨ reduced = true) : quantize reduced v = .low := by
  have hmid' : ¬(!reduced && decide (v.toNat > Config.tMid)) = true := by
    obtain h | rfl := hmid
    · simp [Config.tMid, h]
    · exact Bool.false_ne_true
  rw [quantize, if_neg hmax.not_gt, if_neg hmid', if_pos hlow]

/-- At 0 the quantiser gives Off, reduced or not (R160). -/
theorem quantize_of_eq_zero (reduced : Bool) {v : Byte} (h : v.toNat = 0) : quantize reduced v = .off := by
  simp [quantize, Config.tMax, Config.tMid, Config.tLow, h]

/-- Settles O26: each clause is the law of its level. -/
theorem quantizeFollowsTheThresholds : Obligations.QuantizeFollowsTheThresholds := fun reduced _ =>
  ⟨quantize_of_gt_max reduced, fun hmax hmid hfull => hfull ▸ quantize_false_of_gt_mid hmax hmid,
    quantize_of_gt_low, quantize_of_eq_zero reduced⟩

end Sys2Proof

namespace Sys2Proof.Machine

/-- GETLEVEL only answers: the code of the level register, or 0 for an axis out of range (R165). -/
theorem exec_getlevel (axis : Byte) (s : State) :
    exec (.getlevel axis) s = .next (s.log [reply s .ok
      (if axis.toNat < s.cfg.naxis then (s.level axis.toNat).code.setWidth 32 else 0)]) := by
  rw [← respond_eq]; rfl

/-- Settles O30: GETLEVEL is one response, and each level has the code of R104. -/
theorem getlevelAnswersTheLevelCode : Obligations.GetlevelAnswersTheLevelCode := by
  intro axis s
  rw [exec_getlevel]
  cases s.level axis.toNat <;> rfl

end Sys2Proof.Machine
end

section
/-! PROOFS. Statement on ISREF (43_sequencer_reference.md): the command is two entries of the trace, the sample of the shared
pin and the response. -/

namespace Sys2Proof.Machine

/-- A flag as a word: 1 exactly when it is set. -/
theorem bitWord_eq_ite (b : Bool) : bitWord b = if b then 1 else 0 := rfl

/-- Entries of the trace leave the port of the running command alone, so the response is the same after them. -/
theorem reply_log (s : State) (es : List Event) (st : Status) (d : Word) : reply (s.log es) st d = reply s st d := rfl

/-- ISREF as one update: the sample, then the response (R176). -/
theorem exec_isref (s : State) :
    exec .isref s = .next (s.log [sampled s .ref, reply s .ok (bitWord (reads s .ref))]) := by
  have hrun : exec .isref s = .next (respond .ok (bitWord (pinActive .ref s)) (sample .ref s)) := rfl
  rw [hrun, respond_eq, sample_eq, reply_log, log_log, pinActive_eq, List.singleton_append]

/-- Settles O31: ISREF only writes the trace, and its data word is 1 exactly when the pin is active. -/
theorem isrefAnswersTheSharedPin : Obligations.IsrefAnswersTheSharedPin := by
  intro s
  rw [exec_isref, bitWord_eq_ite]
  rfl

end Sys2Proof.Machine
end

section
/-! PROOFS. Statements on the supervisor's state machine (44_supervisor_fsm.md): the kill sample as one update for every
condition, ISKILLED and EVENT as that sample and their entries of the trace, and POLL row by row: the kill first, then what
the hold and resume transitions do in each mode. -/

namespace Sys2Proof.Machine

/-- `SampleKill()` as one update, whether or not the tools go off (R194). -/
theorem sampleKill_eq_ite (hook : Bool) (s : State) :
    let off := killCondition hook s = true ∧ s.cfg.killTools = .forceOff ∧ s.ctl ≠ .killed
    sampleKill hook s = { s with
      ctl := if killCondition hook s then .killed else s.ctl,
      diagKill := if killCondition hook s then true else s.diagKill,
      tools := if off then toolRegsOff s.tools else s.tools,
      trace := s.trace ++ [sampled s .kill, sampled s .intKill] ++
        (if off then toolPinChanges s.tools (toolRegsOff s.tools) else []) } := by
  intro off
  by_cases h : off
  · rw [sampleKill_off h, if_pos h, if_pos h, if_pos h.1, if_pos h.1, List.append_assoc]
  · rw [sampleKill_keep h, if_neg h, if_neg h, List.append_nil]

/-- The mode is Killed after the kill sample exactly when the condition holds or it was Killed before (R190, R194). -/
theorem sampleKill_ctl_eq_killed_iff (hook : Bool) (s : State) :
    (sampleKill hook s).ctl = .killed ↔ killCondition hook s = true ∨ s.ctl = .killed := by
  rw [sampleKill_ctl]
  split_ifs with h <;> simp [h]

/-- ISKILLED is the kill sample and the answer, 1 exactly when the mode is then Killed (R203). -/
theorem exec_iskilled (s : State) :
    exec .iskilled s = .next ((sampleKill false s).log
      [reply s .ok (if killCondition false s = true ∨ s.ctl = .killed then 1 else 0)]) := by
  have hrun : exec .iskilled s =
      .next (respond .ok (bitWord (decide ((sampleKill false s).ctl = .killed))) (sampleKill false s)) := rfl
  rw [hrun, respond_eq, bitWord_eq_ite, reply, sampleKill_curPort]
  simp only [decide_eq_true_eq, sampleKill_ctl_eq_killed_iff, reply]

/-- EVENT is the kill sample, KillHook counting as a kill, then the posted handling and the response (R206). -/
theorem exec_event (etype : Byte) (info : Word) (s : State) :
    exec (.event etype info) s = .next ((sampleKill (etype == etypeKill) s).log
      [.engReq (.eventDefault etype info), reply s .ok 0]) := by
  have hrun : exec (.event etype info) s =
      .next (respond .ok 0 (engPost (.eventDefault etype info) (sampleKill (etype == etypeKill) s))) := rfl
  rw [hrun, respond_eq, engPost_eq, reply_log, log_log, reply, sampleKill_curPort]
  rfl

/-- Settles O37: the kill sample as one update, the pins it turns off, and the answer. -/
theorem iskilledAnswersTheLatch : Obligations.IskilledAnswersTheLatch := by
  intro s
  have hkill : killCondition false s = (reads s .kill || reads s .intKill) := Bool.or_false _
  rw [exec_iskilled, sampleKill_eq_ite, toolPinChanges_off, hkill]
  rfl

/-- Settles O38: the kill sample as one update, the pins it turns off, then the request and the response. -/
theorem eventSamplesKillThenForwards : Obligations.EventSamplesKillThenForwards := by
  intro etype info s
  rw [exec_event, sampleKill_eq_ite, toolPinChanges_off, killCondition_eq]
  rfl

/-! The hold and resume transitions, one equation for each way they can go (R191). -/

/-- Killed is left by neither transition (R190). -/
theorem holdResumeTransition_of_killed {s : State} (h : s.ctl = .killed) : holdResumeTransition s = s := by
  simp [holdResumeTransition, h]

/-- Held and a resume-type input active: the mode is Running again. -/
theorem holdResumeTransition_of_held_resume {s : State} (h : s.ctl = .held) (hr : resumeActive s = true) :
    holdResumeTransition s = { s with ctl := .running, diagHold := false } := if_pos ⟨h, hr⟩

/-- Held stays Held without a resume-type input. -/
theorem holdResumeTransition_of_held {s : State} (h : s.ctl = .held) (hr : resumeActive s = false) :
    holdResumeTransition s = s := by
  simp [holdResumeTransition, h, hr]

/-- Running and a hold-type input active: the mode is Held. -/
theorem holdResumeTransition_of_running_hold {s : State} (h : s.ctl = .running) (hh : holdActive s = true) :
    holdResumeTransition s = { s with ctl := .held, diagHold := true } := by
  simp [holdResumeTransition, h, hh]

/-- Running stays Running without a hold-type input. -/
theorem holdResumeTransition_of_running {s : State} (h : s.ctl = .running) (hh : holdActive s = false) :
    holdResumeTransition s = s := by
  simp [holdResumeTransition, h, hh]

/-- The state in which POLL takes its hold and resume transitions: everything is sampled, the kill latch is up to date
(R200). -/
def pollSampled (s : State) : State :=
  (sampleKill false (s.log [.engReq .engPoll])).log [sampled s .resume, sampled s .hold, sampled s .holdResume]

/-- POLL is its samples, at most one transition, and the response (R200). -/
theorem exec_poll (s : State) :
    exec .poll s = .next ((holdResumeTransition (pollSampled s)).log [reply s .ok 0]) := by
  have hrun : exec .poll s = .next (respond .ok 0 (holdResumeTransition (sample .holdResume (sample .hold
      (sample .resume (sampleKill false (engPost .engPoll s))))))) := rfl
  rw [hrun]
  simp [respond_eq, sample_eq, engPost_eq, pollSampled, reply, sampled]

/-- The samples of POLL leave the hold diagnostic alone. -/
theorem pollSampled_diagHold (s : State) : (pollSampled s).diagHold = s.diagHold := by simp [pollSampled]

/-- The transitions of POLL read the resume-type pins as they were. -/
theorem resumeActive_pollSampled (s : State) :
    resumeActive (pollSampled s) = (reads s .resume || reads s .holdResume) := by
  simp [resumeActive, pinActive_eq, reads, pollSampled]

/-- The transitions of POLL read the hold-type pins as they were. -/
theorem holdActive_pollSampled (s : State) :
    holdActive (pollSampled s) = (reads s .hold || reads s .holdResume) := by
  simp [holdActive, pinActive_eq, reads, pollSampled]

/-- The mode POLL's transitions start from: Killed if either kill pin is active. -/
theorem pollSampled_ctl (s : State) :
    (pollSampled s).ctl = if reads s .kill || reads s .intKill then .killed else s.ctl := by
  simp [pollSampled, sampleKill_ctl, killCondition_eq, reads]

/-- The kill diagnostic POLL's transitions start from: set if either kill pin is active. -/
theorem pollSampled_diagKill (s : State) :
    (pollSampled s).diagKill = if reads s .kill || reads s .intKill then true else s.diagKill := by
  simp [pollSampled, sampleKill_diagKill, killCondition_eq, reads]

/-- Settles O35, row by row: a kill pin or Killed ends it, and otherwise the mode and its own pins pick the transition. -/
theorem pollFollowsTheTransitionTable : Obligations.PollFollowsTheTransitionTable := by
  intro s hshown k r h
  refine ⟨_, exec_poll s, ?_⟩
  have hctl : (pollSampled s).ctl = if k then .killed else s.ctl := pollSampled_ctl s
  have hdiag : (pollSampled s).diagKill = if k then true else s.diagKill := pollSampled_diagKill s
  have hhold : (pollSampled s).diagHold = s.diagHold := pollSampled_diagHold s
  have hr : resumeActive (pollSampled s) = r := resumeActive_pollSampled s
  have hh : holdActive (pollSampled s) = h := holdActive_pollSampled s
  clear_value k r h
  cases k with
  | true =>
    simp only [holdResumeTransition_of_killed hctl, log_ctl, log_diagHold, log_diagKill, hctl, hhold, hdiag]
    cases s.ctl <;> rfl
  | false =>
    cases hm : s.ctl with
    | killed =>
      have hkill : s.diagKill = true := by rw [hshown, hm]; rfl
      simp [holdResumeTransition_of_killed (hctl.trans hm), hctl, hm, hhold, hdiag, hkill]
    | held =>
      cases r with
      | true => simp [holdResumeTransition_of_held_resume (hctl.trans hm) hr, hdiag]
      | false => simp [holdResumeTransition_of_held (hctl.trans hm) hr, hctl, hm, hhold, hdiag]
    | running =>
      cases h with
      | true => simp [holdResumeTransition_of_running_hold (hctl.trans hm) hh, hdiag]
      | false => simp [holdResumeTransition_of_running (hctl.trans hm) hh, hctl, hm, hhold, hdiag]

end Sys2Proof.Machine
end

section
/-! PROOFS. Statement on TOOLWR (45_supervisor_tools.md): the command as one update for a recognised code and for any other,
and the pins that change when each tool is written. -/

namespace Sys2Proof.Machine

/-- TOOLWR of a recognised tool as one update: the registers, the pins that change, then the response (R222). -/
theorem exec_toolwr_code (tl : Tool) {tool : Byte} (level : Byte) (s : State) (h : tool = tl.code) :
    exec (.toolwr tool level) s = .next { s with
      tools := toolRegsWritten s.tools level tl,
      trace := s.trace ++ toolPinChanges s.tools (toolRegsWritten s.tools level tl) ++ [reply s .ok 0] } := by
  simp only [h, exec, execToolwr, ofCode_code]; rfl

/-- TOOLWR of any other code is two entries of the trace: the posted request and the response (R222). -/
theorem exec_toolwr_of_none {tool : Byte} (level : Byte) (s : State) (h : Tool.ofCode tool = none) :
    exec (.toolwr tool level) s = .next (s.log [.engReq (.toolWrGeneric tool level), reply s .fallthrough 0]) := by
  simp only [exec, execToolwr, h, respond_eq, engPost_eq, reply_log, log_log, List.singleton_append]

/-- The entry of a pin that shows whether a level is not 0, when the level goes from `old` to `new` (R39, R222). -/
def onPinChange (p : ToolPin) (old new : Byte) : List Event :=
  if decide (old ≠ 0) = decide (new ≠ 0) then [] else [.toolPin p (if new = 0 then 0 else 1)]

/-- `onPinChange` is the entry of `toolPinChanges` for a pin that is on while its level is not 0. -/
theorem onPinChange_eq (p : ToolPin) (old new : Byte) :
    onPinChange p old new = if bitByte (old != 0) = bitByte (new != 0) then [] else [.toolPin p (bitByte (new != 0))] := by
  by_cases ho : old = 0#8 <;> by_cases hn : new = 0#8 <;> simp [onPinChange, bitByte, ho, hn]

/-- Writing the spindle moves at most its two pins, the level's and then the direction's. -/
theorem toolPinChanges_spindle (t : ToolRegs) (level : Byte) (dir : Bool) :
    toolPinChanges t { t with spindle := level, spdir := dir } =
      onPinChange .spindleOn t.spindle level ++ if t.spdir = dir then [] else [.toolPin .spindleCcw (bitByte dir)] := by
  simp [toolPinChanges_eq, onPinChange_eq, ToolRegs.pin, ToolRegs.spindleOn, ToolRegs.coolantOn, bitByte_eq_iff]

/-- Writing the coolant moves at most its own pin. -/
theorem toolPinChanges_coolant (t : ToolRegs) (level : Byte) :
    toolPinChanges t { t with coolant := level } = onPinChange .coolantOn t.coolant level := by
  simp [toolPinChanges_eq, onPinChange_eq, ToolRegs.pin, ToolRegs.spindleOn, ToolRegs.coolantOn, bitByte_eq_iff]

/-- Writing the fan moves at most its own pin, which shows the level itself. -/
theorem toolPinChanges_fan (t : ToolRegs) (level : Byte) :
    toolPinChanges t { t with fan := level } = if t.fan = level then [] else [.toolPin .fanLevel level] := by
  simp only [toolPinChanges_eq, ToolRegs.pin, ToolRegs.spindleOn, ToolRegs.coolantOn, if_true, List.nil_append]
  rfl

/-- Settles O44, code by code: a recognised tool is one update whose pins are the law of that tool, any other code the two
entries of the fall-through. -/
theorem toolwrResult : Obligations.ToolwrResult := by
  intro tool level s onPin
  refine ⟨fun h => ?spindleCW, fun h => ?spindleCCW, fun h => ?probe, fun h => ?coolant, fun h => ?fan,
    fun h => exec_toolwr_of_none level s (ofCode_of_ge h)⟩
  case spindleCW =>
    rw [exec_toolwr_code .spindleCW level s h, toolRegsWritten, toolPinChanges_spindle, ← List.append_assoc]
    cases s.tools.spdir <;> rfl
  case spindleCCW =>
    rw [exec_toolwr_code .spindleCCW level s h, toolRegsWritten, toolPinChanges_spindle, ← List.append_assoc]
    rfl
  case probe => rw [exec_toolwr_code .probe level s h, toolRegsWritten, toolPinChanges_self, List.append_nil]
  case coolant => rw [exec_toolwr_code .coolant level s h, toolRegsWritten, toolPinChanges_coolant, onPinChange]
  case fan => rw [exec_toolwr_code .controllerFan level s h, toolRegsWritten, toolPinChanges_fan]

end Sys2Proof.Machine
end

section
/-! PROOFS. Statement on the HOMEDONE report (46_supervisor_homing.md): a report at hand is the whole of the next step, and its
handling is one update for each stage of the homing sequence. -/

namespace Sys2Proof.Machine

/-- With no reset and no call in flight a report at hand is the next piece of work, whatever the ports offer (R243). -/
theorem nextWork_of_report {s : State} {ok : Bool} {rest : List Bool} (hrst : s.ext.rst = false) (hcall : s.call = none)
    (hrep : s.ext.reports = ok :: rest) : nextWork s = .report ok rest := by
  simp [nextWork, hrst, hcall, hrep]

/-- With no reset and no call in flight the step ends where the handling of the report at hand does (R243). -/
theorem step_of_report {s t : State} {ok : Bool} {rest : List Bool} (hrst : s.ext.rst = false) (hcall : s.call = none)
    (hrep : s.ext.reports = ok :: rest) (hdone : homeDone ok { s with ext := { s.ext with reports := rest } } = t) :
    step s = .next (arrive t) := by
  rw [step, stepOnce, nextWork_of_report hrst hcall hrep, ← hdone]; rfl

/-! The handling of a report, one equation for each line of R243's pseudocode. -/

/-- A report nobody asked for is logged and dropped. -/
theorem homeDone_of_idle (ok : Bool) {s : State} (h : s.homing.pass = .idle) :
    homeDone ok s = s.log [.engRsp .home ok 0] := by
  simp only [homeDone, h]

/-- The fast pass found the sensor: the slow pass is requested for the same axis and end. -/
theorem homeDone_true_of_fast {s : State} (h : s.homing.pass = .fast) :
    homeDone true s = { s with
      homing := { s.homing with pass := .slow },
      trace := s.trace ++ [.engRsp .home true 0] ++ [.engReq (.home s.homing.axis s.homing.toMin s.cfg.rateSlow)] } := by
  simp only [homeDone, h, if_true]; rfl

/-- The fast pass found no sensor: the sequence ends without a slow pass. -/
theorem homeDone_false_of_fast {s : State} (h : s.homing.pass = .fast) :
    homeDone false s = endHoming .fail (s.log [.engRsp .home false 0]) := by
  simp only [homeDone, h]; rfl

/-- The slow pass ends the sequence either way. -/
theorem homeDone_of_slow (ok : Bool) {s : State} (h : s.homing.pass = .slow) :
    homeDone ok s = endHoming (if ok then .ok else .fail) (s.log [.engRsp .home ok 0]) := by
  simp only [homeDone, h]

/-- Settles O12: the step is the handling of the report, and each clause is the equation of its stage. -/
theorem homedoneReportIsHandledFirst : Obligations.HomedoneReportIsHandledFirst := by
  intro s ok rest hrst hcall hrep logged h taken
  refine ⟨fun hpass => ?idle, fun hpass hok => ?found, fun hpass hok => ?notFound, fun hpass => ?slow⟩
  case idle => exact step_of_report hrst hcall hrep (homeDone_of_idle ok hpass)
  case found => subst hok; exact step_of_report hrst hcall hrep (homeDone_true_of_fast hpass)
  case notFound => subst hok; exact step_of_report hrst hcall hrep (homeDone_false_of_fast hpass)
  case slow => exact step_of_report hrst hcall hrep (homeDone_of_slow ok hpass)

end Sys2Proof.Machine
end

section
/-! PROOFS. Statement on reset (70_reset_and_hazards.md): the registers and the chip byte of each axis after reset, and the
tool pins of the reset registers. -/

namespace Sys2Proof.Machine

/-- After reset the registers of an axis that exists are PHASE 0, LEVEL Off and its own step mode parameter (R280). -/
theorem axisRegs_resetOf {c : Config} {a : Nat} (port : Byte) (ext : Ext) (h : a < c.naxis) :
    (State.resetOf c port ext).axisRegs a = ⟨0, .off, (c.axisParam a).stepModeInit⟩ := by
  have hlen : a < c.axis.length := h
  simp [State.axisRegs, State.resetOf, Config.axisParam, hlen]

/-- After reset the chip's byte is unknown for every axis that exists (R280, R286). -/
theorem chip_resetOf {c : Config} {a : Nat} (port : Byte) (ext : Ext) (h : a < c.naxis) :
    (State.resetOf c port ext).chip[a]? = some none := by
  have hlen : a < c.axis.length := h
  simp [State.resetOf, hlen]

/-- With every tool register 0 every tool pin is off (R39). -/
theorem pin_of_zero (p : ToolPin) : ToolRegs.pin ⟨0, false, 0, 0⟩ p = 0 := by cases p <;> rfl

/-- Settles O2: the registers and the chip byte axis by axis, one entry for each axis, the released lines, the pins of
cleared tool registers; every other register is a field of the reset state. -/
theorem resetLeavesTheStatedValues : Obligations.ResetLeavesTheStatedValues := by
  intro c port ext s
  have haxis : ∀ a < c.naxis, s.phase a = 0 ∧ s.level a = .off ∧ s.stepMode a = (c.axisParam a).stepModeInit ∧
      s.chip[a]? = some none := by
    intro a ha
    have hregs := axisRegs_resetOf port ext ha
    exact ⟨congrArg AxisRegs.phase hregs, congrArg AxisRegs.level hregs, congrArg AxisRegs.stepMode hregs,
      chip_resetOf port ext ha⟩
  have haxes : s.axes.length = c.naxis := List.length_map _
  have hchip : s.chip.length = c.naxis := List.length_map _
  obtain ⟨hport, hstrobe, haux⟩ : s.portOut = none ∧ s.strobeOut = none ∧ s.auxOut = none := outputs_float_of_released rfl
  exact ⟨haxis, haxes, hchip, rfl, rfl, hport, hstrobe, haux, rfl, rfl, rfl, rfl, rfl, rfl, pin_of_zero, rfl, rfl⟩

end Sys2Proof.Machine
end

section
/-! PROOFS. Statements on the two directions of the encoding (30_encoding.md): the record of a command spells the command's
row and carries its operands; a word whose reserved bits are 0 is put together again from the fields the decoder reads. -/

namespace Sys2Proof
open Laws.SpellsItsRow (rowOf)

/-! ### From a command to its record and back -/

/-- The first word of every command spells the command's row (R94, R105). -/
theorem encodeW0_spells_row (i : Instr) : Laws.SpellsItsRow.Statement i := by
  cases i with
  | init => exact Laws.SpellsItsRow.init
  | shutdown => exact Laws.SpellsItsRow.shutdown
  | step count dirMask => exact Laws.SpellsItsRow.step count dirMask
  | setlevel axis levelReq force => exact Laws.SpellsItsRow.setlevel axis levelReq force
  | getlevel axis => exact Laws.SpellsItsRow.getlevel axis
  | isref => exact Laws.SpellsItsRow.isref
  | moveaway axis dist maxRate => exact Laws.SpellsItsRow.moveaway axis dist maxRate
  | setmode axis half => exact Laws.SpellsItsRow.setmode axis half
  | supinit => exact Laws.SpellsItsRow.supinit
  | poll => exact Laws.SpellsItsRow.poll
  | iskilled => exact Laws.SpellsItsRow.iskilled
  | toolwr tool levelReq => exact Laws.SpellsItsRow.toolwr tool levelReq
  | toolrd tool => exact Laws.SpellsItsRow.toolrd tool
  | goref axis toMin => exact Laws.SpellsItsRow.goref axis toMin
  | event etype info => exact Laws.SpellsItsRow.event etype info

/-- The first word of a command's record. -/
@[simp] theorem w0_encode (i : Instr) : (encode i).w0 = encodeW0 i := Record.w0_ofWords ..

/-- The second word of a command's record. -/
@[simp] theorem w1_encode (i : Instr) : (encode i).w1 = encodeW1 i := Record.w1_ofWords ..

/-- The third word of a command's record. -/
@[simp] theorem w2_encode (i : Instr) : (encode i).w2 = encodeW2 i := Record.w2_ofWords ..

/-- The record of a command decodes to a command of its row (R92). -/
theorem decodeRecord_encode_row (i : Instr) :
    decodeRecord (encode i) = .ok (operandsOf (encode i) (rowOf i).op) := by
  obtain ⟨hmem, hspells⟩ := encodeW0_spells_row i
  exact decodeRecord_of_spells hmem (by rwa [w0_encode])

/-- A short operand is read back where the rest of the word is 0. -/
theorem extract_or_byteAt (k : Nat) (x : Word) (b : Byte) (hk : k + 8 ≤ 32) (hx : x.extractLsb' k 8 = 0) :
    (x ||| byteAt k b).extractLsb' k 8 = b := by
  rw [BitVec.extractLsb'_or, hx, extract_byteAt k b hk]; exact BitVec.zero_or

/-- A field is not disturbed by a short operand laid elsewhere. -/
theorem extract_or_byteAt_other (j k : Nat) (x : Word) (b : Byte) (h : j + 8 ≤ k ∨ k + 8 ≤ j) :
    (x ||| byteAt k b).extractLsb' j 8 = x.extractLsb' j 8 := by
  rw [BitVec.extractLsb'_or, extract_byteAt_other j k b h]; exact BitVec.or_zero

/-- A field is not disturbed by a flag above it. -/
theorem extract_or_flagAt (j k : Nat) (x : Word) (b : Bool) (h : j + 8 ≤ k) :
    (x ||| flagAt k b).extractLsb' j 8 = x.extractLsb' j 8 := by
  rw [BitVec.extractLsb'_or, extract_flagAt j k b h]; exact BitVec.or_zero

/-- A flag is read back where the rest of the word is 0. -/
theorem getLsbD_or_flagAt (k : Nat) (x : Word) (b : Bool) (hk : k < 32) (hx : x.getLsbD k = false) :
    (x ||| flagAt k b).getLsbD k = b := by
  rw [BitVec.getLsbD_or, hx, getLsbD_flagAt, decide_eq_true hk, decide_eq_true rfl]; rfl

/-- A bit is not disturbed by a short operand below it. -/
theorem getLsbD_or_byteAt (j k : Nat) (x : Word) (b : Byte) (h : k + 8 ≤ j) :
    (x ||| byteAt k b).getLsbD j = x.getLsbD j := by
  rw [BitVec.getLsbD_or, getLsbD_byteAt_above j k b h, Bool.or_false]

/-- One short operand behind a match value whose low byte is 0. -/
theorem extract_one (x : Word) (b : Byte) (hx : x.extractLsb' 0 8 = 0) : (x ||| byteAt 0 b).extractLsb' 0 8 = b :=
  extract_or_byteAt 0 x b (by decide) hx

/-- Two short operands behind a match value whose low half is 0. -/
theorem extract_two (x : Word) (a b : Byte) (h0 : x.extractLsb' 0 8 = 0) (h8 : x.extractLsb' 8 8 = 0) :
    (x ||| byteAt 0 a ||| byteAt 8 b).extractLsb' 0 8 = a ∧ (x ||| byteAt 0 a ||| byteAt 8 b).extractLsb' 8 8 = b := by
  constructor
  · rw [extract_or_byteAt_other 0 8 _ b (by decide), extract_one x a h0]
  · exact extract_or_byteAt 8 _ b (by decide) ((extract_or_byteAt_other 8 0 x a (by decide)).trans h8)

/-- A short operand and a flag of format AF behind a match value whose low bits are 0. -/
theorem fields_of_byte_flag (x : Word) (a : Byte) (f : Bool) (h0 : x.extractLsb' 0 8 = 0) (h8 : x.getLsbD 8 = false) :
    (x ||| byteAt 0 a ||| flagAt 8 f).extractLsb' 0 8 = a ∧ (x ||| byteAt 0 a ||| flagAt 8 f).getLsbD 8 = f := by
  constructor
  · rw [extract_or_flagAt 0 8 _ f (by decide), extract_one x a h0]
  · exact getLsbD_or_flagAt 8 _ f (by decide) ((getLsbD_or_byteAt 8 0 x a (by decide)).trans h8)

/-- The decoder reads back every operand the encoder lays out (R95 to R102). -/
theorem operandsOf_encode (i : Instr) : operandsOf (encode i) (rowOf i).op = i := by
  cases i with
  | init | shutdown | isref | supinit | poll | iskilled => rfl
  | step count dirMask =>
    simp [operandsOf, rowOf, encodeW0, encodeW1, encodeW2, countsOf_lanes, extract_one]
  | getlevel axis => simp [operandsOf, rowOf, encodeW0, extract_one]
  | moveaway axis dist maxRate => simp [operandsOf, rowOf, encodeW0, encodeW1, encodeW2, extract_one]
  | toolrd tool => simp [operandsOf, rowOf, encodeW0, extract_one]
  | event etype info => simp [operandsOf, rowOf, encodeW0, encodeW1, extract_one]
  | toolwr tool levelReq =>
    obtain ⟨htool, hlevel⟩ := extract_two 0xC0000000#32 tool levelReq (by decide) (by decide)
    simp only [operandsOf, rowOf, w0_encode, encodeW0, htool, hlevel]
  | setmode axis half =>
    obtain ⟨haxis, hhalf⟩ := fields_of_byte_flag 0x80000000#32 axis half (by decide) (by decide)
    simp only [operandsOf, rowOf, w0_encode, encodeW0, haxis, hhalf]
  | goref axis toMin =>
    obtain ⟨haxis, hmin⟩ := fields_of_byte_flag 0xE0000000#32 axis toMin (by decide) (by decide)
    simp only [operandsOf, rowOf, w0_encode, encodeW0, haxis, hmin]
  | setlevel axis levelReq force =>
    obtain ⟨haxis, hlevel⟩ := extract_two 0x40000000#32 axis levelReq (by decide) (by decide)
    have hbit : (0x40000000#32 ||| byteAt 0 axis ||| byteAt 8 levelReq).getLsbD 16 = false := by
      rw [getLsbD_or_byteAt 16 8 _ _ (by decide), getLsbD_or_byteAt 16 0 _ _ (by decide)]; decide
    simp only [operandsOf, rowOf, w0_encode, encodeW0, getLsbD_or_flagAt 16 _ force (by decide) hbit,
      extract_or_flagAt 0 16 _ force (by decide), extract_or_flagAt 8 16 _ force (by decide), haxis, hlevel]

/-- Settles O7: the record spells the row, the row names the command, and the operands are read back. -/
theorem decodeInvertsEncode : Obligations.DecodeInvertsEncode := fun i => by
  rw [decodeRecord_encode_row, operandsOf_encode]

/-! ### From a record to its command and back -/

/-- A short operand read from a word, laid at its place again, is the word's bits there. -/
theorem byteAt_extract (k : Nat) (w : Word) : byteAt k (w.extractLsb' k 8) = w &&& byteAt k 0xFF := by
  have hff : ∀ j < 8, (0xFF : Byte).getLsbD j = true := by decide
  apply BitVec.eq_of_getLsbD_eq; intro j hj
  simp only [BitVec.getLsbD_and, getLsbD_byteAt, BitVec.getLsbD_extractLsb']
  by_cases hk : k ≤ j
  · by_cases h8 : j - k < 8
    · rw [hff _ h8]; simp [hj, hk, h8]
    · rw [BitVec.getLsbD_of_ge (0xFF : Byte) _ (by omega)]; simp [h8]
  · simp [hk]

/-- A flag read from a word, laid at its place again, is the word's bit there. -/
theorem flagAt_getLsbD (k : Nat) (w : Word) : flagAt k (w.getLsbD k) = w &&& flagAt k true := by
  apply BitVec.eq_of_getLsbD_eq; intro j hj
  simp only [BitVec.getLsbD_and, getLsbD_flagAt, hj]
  by_cases hk : j = k <;> simp [hk]

/-- Four lanes read from a word make the word again. -/
theorem lanes_extract (w : Word) :
    lanes (w.extractLsb' 0 8) (w.extractLsb' 8 8) (w.extractLsb' 16 8) (w.extractLsb' 24 8) = w := by
  have h1 : w.extractLsb' 24 8 ++ w.extractLsb' 16 8 = w.extractLsb' 16 16 :=
    BitVec.extractLsb'_append_extractLsb'_eq_extractLsb' rfl
  have h2 : w.extractLsb' 16 16 ++ w.extractLsb' 8 8 = w.extractLsb' 8 24 :=
    BitVec.extractLsb'_append_extractLsb'_eq_extractLsb' rfl
  have h3 : w.extractLsb' 8 24 ++ w.extractLsb' 0 8 = w.extractLsb' 0 32 :=
    BitVec.extractLsb'_append_extractLsb'_eq_extractLsb' rfl
  rw [lanes, h1, h2, h3]
  exact BitVec.extractLsb'_eq_self

/-- A word is its masked part and its part in any bits the mask leaves out. -/
theorem eq_or_of_and_mask {w mask pattern fields : Word} (h : w &&& mask = pattern)
    (hcover : mask ||| fields = BitVec.allOnes 32) : pattern ||| (w &&& fields) = w := by
  rw [← h, ← BitVec.and_or_distrib_left, hcover, BitVec.and_allOnes]

/-- The first word of a record that spells the row of an opcode is the first word of the command read from it: the mask and
the operands cover the word (R93, R105). -/
theorem encodeW0_operandsOf {r : Record} (op : Opcode)
    (h : r.w0 &&& (rowOf (operandsOf r op)).mask = (rowOf (operandsOf r op)).pattern) :
    encodeW0 (operandsOf r op) = r.w0 := by
  cases op with
  | init | shutdown | isref | supinit | poll | iskilled => exact h.symm.trans BitVec.and_allOnes
  | step | getlevel | moveaway | toolrd | event =>
    simp only [operandsOf, rowOf, encodeW0, byteAt_extract] at h ⊢
    exact eq_or_of_and_mask h (by decide)
  | setmode | goref | toolwr | setlevel =>
    simp only [operandsOf, rowOf, encodeW0, byteAt_extract, flagAt_getLsbD, BitVec.or_assoc, ← BitVec.and_or_distrib_left] at h ⊢
    exact eq_or_of_and_mask h (by decide)

/-- Settles O8: the record decodes to the operands of the row it spells, and each word is put together from them. -/
theorem encodeInvertsDecode : Obligations.EncodeInvertsDecode := by
  intro r i h
  have hmask := and_mask_of_decodeRecord h
  obtain ⟨row, -, -, rfl⟩ := spells_of_decodeRecord h
  refine ⟨encodeW0_operandsOf row.op hmask, ?_⟩
  cases row.op with
  | step => exact ⟨lanes_extract r.w1, lanes_extract r.w2⟩
  | moveaway => exact ⟨rfl, rfl⟩
  | event => exact rfl
  | _ => trivial

/-- Settles O6: the seven records are small closed data, and the decoder runs on each. -/
theorem specRecordsDecode : Obligations.SpecRecordsDecode :=
  ⟨by decide, by decide, by decide, by decide, by decide, by decide, by decide⟩

end Sys2Proof
end

section
/-! PROOFS. The commands of the sequencer, the retreat, the tool reads and GOREF, one equation for each way each can go, and
the statements that give their whole next states (40 to 46). -/

namespace Sys2Proof.Machine

/-! ### INIT and SUPINIT -/

/-- INIT is the initialisation of the sequencer and the response (R121). -/
theorem exec_init (s : State) : exec .init s = .next ((initSequencer s).log [reply s .ok 0]) := by
  have hrun : exec .init s = .next (respond .ok 0 (initSequencer s)) := rfl
  rw [hrun, respond_eq, reply, initSequencer_curPort, reply]

/-- The initialisation on a board without the spurious latch. -/
theorem initSequencer_of_quiet {s : State} (h : s.cfg.initSpuriousLatch = false) :
    initSequencer s = { s with
      claimed := true, strobe := true, idle := .low, axes := s.cfg.axis.map fun p => ⟨0, .off, p.stepModeInit⟩,
      trace := s.trace ++ [.oe true] } := by
  obtain ⟨b, es, heq, hes⟩ := initSequencer_eq s
  rw [heq, hes]
  simp [h]

/-- The initialisation on a board with the spurious latch: one byte reaches the chip (R121). -/
theorem initSequencer_of_spurious {s : State} (h : s.cfg.initSpuriousLatch = true) :
    ∃ b, initSequencer s = { s with
      claimed := true, strobe := true, idle := .low, axes := s.cfg.axis.map fun p => ⟨0, .off, p.stepModeInit⟩,
      chip := chipAfter s.cfg b s.chip, freeIx := s.freeIx + 1, trace := s.trace ++ [.oe true, .latch b] } := by
  obtain ⟨b, es, heq, hes⟩ := initSequencer_eq s
  refine ⟨b, ?_⟩
  rw [heq, hes]
  simp [h]

/-- Settles O17: the initialisation as one update, with and without the spurious latch, then the response. -/
theorem initResult : Obligations.InitResult := by
  intro s axes
  refine ⟨fun h => ?_, fun h => ?_⟩
  · rw [exec_init, initSequencer_of_quiet h]; simp [State.log, axes]
  · obtain ⟨b, hb⟩ := initSequencer_of_spurious h
    exact ⟨b, by rw [exec_init, hb]; simp [State.log, axes]⟩

/-- SUPINIT is the configuration's request, the initialisation, the engine's request, the mode, then the response (R198). -/
theorem exec_supinit (s : State) :
    exec .supinit s = .next ((supervisorRunning ((initSequencer (s.log [.engReq .cfgLoad])).log
      [.engReq .engInit])).log [reply s .ok 0]) := by
  have hrun : exec .supinit s =
      .next (respond .ok 0 (supervisorRunning (engPost .engInit (initSequencer (engPost .cfgLoad s))))) := rfl
  have hport : (supervisorRunning (engPost .engInit (initSequencer (engPost .cfgLoad s)))).curPort = s.curPort :=
    initSequencer_curPort _
  rw [hrun, respond_eq, reply, hport]
  rfl

/-- Settles O34: the initialisation as one update between the two requests, then the mode and the response. -/
theorem supinitResult : Obligations.SupinitResult := by
  intro s axes mode
  refine ⟨fun h => ?_, fun h => ?_⟩
  · rw [exec_supinit, initSequencer_of_quiet (s := s.log _) h]
    simp [State.log, supervisorRunning, axes, mode]
  · obtain ⟨b, hb⟩ := initSequencer_of_spurious (s := s.log [.engReq .cfgLoad]) h
    exact ⟨b, by rw [exec_supinit, hb]; simp [State.log, supervisorRunning, axes, mode]⟩

/-! ### STEP -/

/-- STEP with a count in range on released lines (R254). -/
theorem exec_step_of_fault {count : Vector Byte 8} {s : State} (dirMask : Byte) (hrel : s.claimed = false)
    (hcount : anyCount s.cfg.naxis count = true) : exec (.step count dirMask) s = .next (raiseNotClaimed s) :=
  execStep_of_fault dirMask hrel hcount

/-- STEP in every other case is its loop and the response (R145). -/
theorem exec_step_of_not_fault {count : Vector Byte 8} {s : State} (dirMask : Byte)
    (h : ¬(s.claimed = false ∧ anyCount s.cfg.naxis count = true)) :
    exec (.step count dirMask) s = .next ((stepAxes count dirMask s).log [reply s .ok 0]) := by
  have hrun : exec (.step count dirMask) s = .next (respond .ok 0 (stepAxes count dirMask s)) :=
    execStep_of_not_fault dirMask h
  rw [hrun, respond_eq, reply, stepAxes_curPort, reply]

/-- STEP on claimed lines. -/
theorem exec_step_of_claimed (count : Vector Byte 8) (dirMask : Byte) {s : State} (h : s.claimed = true) :
    exec (.step count dirMask) s = .next ((stepAxes count dirMask s).log [reply s .ok 0]) :=
  exec_step_of_not_fault dirMask (by simp [h])

/-- No lane in range has a count. -/
theorem anyCount_eq_false {n : Nat} {count : Vector Byte 8} (h : ∀ a (h : a < 8), a < n → count[a] = 0) :
    anyCount n count = false := by
  rw [← Bool.not_eq_true, anyCount_iff]
  rintro ⟨a, h8, ha, hne⟩
  exact hne (h a h8 ha)

/-- Settles O22: no axis moves, so the loop does nothing and the lines are never asked for. -/
theorem stepWithoutInRangeCountsDoesNothing : Obligations.StepWithoutInRangeCountsDoesNothing := by
  intro count dirMask s hzero
  have hnone : anyCount s.cfg.naxis count = false := anyCount_eq_false hzero
  rw [exec_step_of_not_fault dirMask (by simp [hnone]), stepAxes_of_not_moves count dirMask s hnone]
  rfl

/-- Settles O20: the loop's law axis by axis; an axis below `NAXIS` moves exactly when its count is not 0, by the count
modulo the table size. -/
theorem stepMovesTheAccumulators : Obligations.StepMovesTheAccumulators := by
  intro count dirMask s hlen _ hok
  have hrun : ¬(s.claimed = false ∧ anyCount s.cfg.naxis count = true) := by
    obtain h | h := hok
    · simp [h]
    · simp [anyCount_eq_false h]
  obtain ⟨hframe, haxes, hregs, -⟩ := stepAxes_eq count dirMask s hlen
  refine ⟨_, exec_step_of_not_fault dirMask hrun, ?_, haxes.trans hlen, fun a h8 ha => ?_⟩
  · exact congrArg (·.log [reply s .ok 0]) hframe
  obtain ⟨hlevel, hmode, hphase⟩ := hregs a
  have hmoved : a ∈ (List.range s.cfg.naxis).filter (moves count) ↔ count[a] ≠ 0 := by
    simp [moves, ha, countLane_of_lt count h8]
  refine ⟨hlevel, hmode, fun h0 => ?_, fun hne => ?_⟩
  · exact hphase.trans (if_neg (by simp [hmoved, h0]))
  · rw [phase_log, hphase, if_pos (hmoved.mpr hne), newPhase, movePhase_toNat, countLane_of_lt count h8]
    cases s.stepMode a <;> rfl

/-- The byte emitted for an axis that moves, read off the registers after STEP. -/
theorem newByte_eq {count : Vector Byte 8} {dirMask : Byte} {s : State} (hlen : s.axes.length = s.cfg.naxis) {a : Nat}
    (ha : a ∈ (List.range s.cfg.naxis).filter (moves count)) :
    newByte count dirMask s a =
      s.cfg.tableCode (s.stepMode a) (s.level a) ((stepAxes count dirMask s).phase a) + s.cfg.addr a := by
  obtain ⟨-, -, hregs, -⟩ := stepAxes_eq count dirMask s hlen
  rw [(hregs a).2.2, if_pos ha, newByte]

/-- Settles O21: the loop's emissions, each with the byte of the axis's new phase. -/
theorem stepEmitsMovedAxesInOrder : Obligations.StepEmitsMovedAxesInOrder := by
  intro count dirMask s t hlen hclaimed hexec byte moved
  obtain rfl : _ = t := Host.Outcome.next.inj ((exec_step_of_claimed count dirMask hclaimed).symm.trans hexec)
  obtain ⟨-, -, -, htrace, hport, hstrobe, -⟩ := stepAxes_eq count dirMask s hlen
  have hbyte : ∀ a ∈ moved, newByte count dirMask s a = byte a := fun a ha => newByte_eq hlen ha
  refine ⟨?_, ?_, hstrobe⟩
  · have hmoved : moved.flatMap (fun a => emission (newByte count dirMask s a)) = moved.flatMap fun a => emission (byte a) :=
      List.flatMap_congr fun a ha => by rw [hbyte a ha]
    rw [← hmoved]
    exact congrArg (· ++ [reply s .ok 0]) htrace
  · rw [← List.map_congr_left hbyte]
    exact hport

/-! ### SETLEVEL -/

/-- SETLEVEL of an axis out of range only answers OK (R162). -/
theorem exec_setlevel_of_le {axis : Byte} {s : State} (levelReq : Byte) (force : Bool) (h : s.cfg.naxis ≤ axis.toNat) :
    exec (.setlevel axis levelReq force) s = .next (s.log [reply s .ok 0]) := by
  simp only [exec, execSetlevel, if_neg (Nat.not_lt.mpr h), respond_eq]

/-- A forced SETLEVEL in range on released lines (R254). -/
theorem exec_setlevel_of_fault {axis : Byte} {s : State} (levelReq : Byte) (h : axis.toNat < s.cfg.naxis)
    (hrel : s.claimed = false) : exec (.setlevel axis levelReq true) s = .next (raiseNotClaimed s) := by
  simp only [exec, execSetlevel, if_pos h, hrel]; rfl

/-- SETLEVEL in range without force writes the level (R162). -/
theorem exec_setlevel_quiet {axis : Byte} {s : State} (levelReq : Byte) (h : axis.toNat < s.cfg.naxis) :
    exec (.setlevel axis levelReq false) s =
      .next ((s.setLevel axis.toNat (quantize s.cfg.reduced levelReq)).log [reply s .ok 0]) := by
  simp only [exec, execSetlevel, if_pos h]; rfl

/-- A forced SETLEVEL in range on claimed lines writes the level, then emits the axis (R162). -/
theorem exec_setlevel_forced {axis : Byte} {s : State} (levelReq : Byte) (h : axis.toNat < s.cfg.naxis)
    (hclaimed : s.claimed = true) :
    exec (.setlevel axis levelReq true) s =
      .next ((emit axis.toNat (s.setLevel axis.toNat (quantize s.cfg.reduced levelReq))).log [reply s .ok 0]) := by
  simp only [exec, execSetlevel, if_pos h, hclaimed, respond_eq, reply]; rfl

/-- Settles O28: the out-of-range form is one response, the unforced one writes one level register. -/
theorem setlevelWritesOnlyTheLevel : Obligations.SetlevelWritesOnlyTheLevel := by
  intro axis levelReq force s hlen
  refine ⟨fun h => exec_setlevel_of_le levelReq force h, fun h hforce => ?_⟩
  subst hforce
  refine ⟨_, exec_setlevel_quiet levelReq h, rfl, (setAxis_axes_length ..).trans hlen, fun a _ => ⟨?_, ?_, ?_⟩⟩
  · exact phase_setLevel ..
  · exact stepMode_setLevel ..
  · simp only [level_log, level_setLevel, hlen, h, and_true]

/-- The byte of an axis once its level is written. -/
theorem outByte_setLevel {s : State} {a : Nat} (l : Level) (h : a < s.axes.length) :
    outByte (s.setLevel a l) a = s.cfg.tableCode (s.stepMode a) l (s.phase a) + s.cfg.addr a := by
  have hl : (s.setLevel a l).level a = l := by rw [level_setLevel, if_pos ⟨rfl, h⟩]
  rw [outByte, hl, stepMode_setLevel, phase_setLevel]; rfl

/-- Settles O29: the level is written, then the axis is emitted with the byte of its new level. -/
theorem forcedSetlevelEmitsTheNewLevel : Obligations.ForcedSetlevelEmitsTheNewLevel := by
  intro axis levelReq s hlen haxis hclaimed a l b
  have hbyte : outByte (s.setLevel a l) a = b := outByte_setLevel l (hlen ▸ haxis)
  refine ⟨_, exec_setlevel_forced levelReq haxis hclaimed, ?_, ?_, fun k _ => ⟨?_, ?_, ?_⟩⟩
  · rw [emit_eq, hbyte]; rfl
  · rw [log_axes, emit_axes]; exact (setAxis_axes_length ..).trans hlen
  · rw [phase_log, phase_emit, phase_setLevel]
  · rw [stepMode_log, stepMode_emit, stepMode_setLevel]
  · simp only [level_log, level_emit, level_setLevel, hlen, haxis, and_true, a, l]

/-! ### MOVEAWAY -/

/-- The entries of MOVEAWAY's configuration reads: one for each of the axes `ks` that exists. -/
def travelReads (s : State) (ks : List Nat) : List Event :=
  (ks.filter fun k => k < s.cfg.naxis).map fun k => .cfgRd .maxTravel k (s.cfg.maxTravel k)

/-- Reading travels one after the other is one run of entries. -/
theorem foldl_cfgRead (s u : State) (hcfg : u.cfg = s.cfg) (ks : List Nat) :
    ks.foldl (fun t k => if k < s.cfg.naxis then cfgReadMaxTravel k t else t) u = u.log (travelReads s ks) := by
  induction ks generalizing u with
  | nil => simp [travelReads, State.log]
  | cons k ks ih =>
    by_cases hk : k < s.cfg.naxis
    · rw [List.foldl_cons, if_pos hk, ih (cfgReadMaxTravel k u) hcfg, cfgReadMaxTravel, log_log, hcfg]
      simp [travelReads, hk]
    · rw [List.foldl_cons, if_neg hk, ih u hcfg]
      simp [travelReads, hk]

/-- The configuration reads of MOVEAWAY (R180). -/
theorem readTravels_eq (s : State) : readTravels s = s.log (travelReads s [0, 1, 2]) := foldl_cfgRead s s rfl _

/-- MOVEAWAY with a negative distance is refused (R256). -/
theorem exec_moveaway_of_neg (axis : Byte) {dist : Word} (maxRate : Word) (s : State) (h : dist.toInt < 0) :
    exec (.moveaway axis dist maxRate) s = .next (s.log [reply s .illegal 0]) := by
  simp only [exec, execMoveaway, negativeDist, decide_eq_true h, if_true, refuseForm_eq]

/-- MOVEAWAY with any other distance reads the travels and posts one move (R180). -/
theorem exec_moveaway_of_nonneg (axis : Byte) {dist : Word} (maxRate : Word) (s : State) (h : 0 ≤ dist.toInt) :
    exec (.moveaway axis dist maxRate) s = .next (s.log (travelReads s [0, 1, 2] ++
      [.engReq (.moveRel3 (moveDistance dist s 0) (moveDistance dist s 1) (moveDistance dist s 2) maxRate),
        reply s .ok 0])) := by
  have hneg : negativeDist dist = false := decide_eq_false (Int.not_lt.mpr h)
  have hrun : exec (.moveaway axis dist maxRate) s = .next (respond .ok 0 (engPost (.moveRel3 (moveDistance dist s 0)
      (moveDistance dist s 1) (moveDistance dist s 2) maxRate) (readTravels s))) := by
    simp only [exec, execMoveaway, hneg, Bool.false_eq_true, if_false]
  rw [hrun, respond_eq, engPost_eq, readTravels_eq, reply_log, reply_log, log_log, log_log, List.singleton_append]


/-- Settles O32: the reads, the move and the response as one run of entries, or the refusal. -/
theorem moveawayPostsOneClampedMove : Obligations.MoveawayPostsOneClampedMove := by
  intro axis dist maxRate s d reads
  refine ⟨fun h => ?_, fun h => exec_moveaway_of_neg axis maxRate s h⟩
  rw [exec_moveaway_of_nonneg axis maxRate s h, State.log, ← List.append_assoc]
  rfl

/-! ### TOOLRD -/

/-- TOOLRD of the probe is one sample and the answer (R228). -/
theorem exec_toolrd_probe (s : State) :
    exec (.toolrd Tool.probe.code) s =
      .next (s.log [sampled s .probe, reply s .ok (if reads s .probe then 1 else 0)]) := by
  simp only [exec, execToolrd, ofCode_code, respond_eq, sample_eq, reply_log, log_log, pinActive_eq, bitWord_eq_ite,
    List.singleton_append]

/-- TOOLRD of a tool that is a register answers the register (R228). -/
theorem exec_toolrd_register {tl : Tool} (s : State) (h : tl ≠ .probe) :
    exec (.toolrd tl.code) s = .next (s.log [reply s .ok ((toolRegData s.tools tl).setWidth 32)]) := by
  have hrun : exec (.toolrd tl.code) s = .next (respond .ok ((toolRegData s.tools tl).setWidth 32) s) := by
    cases tl with
    | probe => exact absurd rfl h
    | spindleCW | spindleCCW | coolant | controllerFan => rfl
  rw [hrun, respond_eq]

/-- TOOLRD of any other code asks the engine (R228). -/
theorem exec_toolrd_of_none {tool : Byte} (s : State) (h : Tool.ofCode tool = none) :
    exec (.toolrd tool) s = .next (callToolRead tool s) := by
  simp only [exec, execToolrd, h]

/-- The engine has the answer at hand: the command ends with it. -/
theorem callToolRead_of_answer (tool : Byte) {s : State} {a : Answer} {rest : List Answer} (h : s.ext.answers = a :: rest) :
    callToolRead tool s = { s with
      call := none, ext := { s.ext with answers := rest },
      trace := s.trace ++ [.engReq (.toolRdGeneric tool), .engRsp .toolRdGeneric a.ok a.data,
        reply s .fallthrough a.data] } := by
  simp [callToolRead, h, finishCall, State.log, reply]

/-- The engine has no answer: the command waits (R270). -/
theorem callToolRead_of_no_answer (tool : Byte) {s : State} (h : s.ext.answers = []) :
    callToolRead tool s = { s with
      call := some ⟨s.curPort, tool⟩, trace := s.trace ++ [.engReq (.toolRdGeneric tool)] } := by
  simp only [callToolRead, h]; rfl

/-- Settles O45, code by code. -/
theorem toolrdResult : Obligations.ToolrdResult := by
  intro tool s answer asked
  refine ⟨?_, ?_, ?_, ?_, ?_, fun a rest hcode hans => ?_, fun hcode hans => ?_⟩
  · rintro rfl; exact exec_toolrd_register (tl := .spindleCW) s (by decide)
  · rintro rfl; exact exec_toolrd_register (tl := .spindleCCW) s (by decide)
  · rintro rfl; exact exec_toolrd_probe s
  · rintro rfl; exact exec_toolrd_register (tl := .coolant) s (by decide)
  · rintro rfl; exact exec_toolrd_register (tl := .controllerFan) s (by decide)
  · rw [exec_toolrd_of_none s (ofCode_of_ge hcode), callToolRead_of_answer tool hans]
  · rw [exec_toolrd_of_none s (ofCode_of_ge hcode), callToolRead_of_no_answer tool hans]

/-! ### GOREF -/

/-- GOREF of an axis in range with no sequence in flight (R241). -/
theorem exec_goref_start {axis : Byte} (toMin : Bool) {s : State} (haxis : axis.toNat < s.cfg.naxis)
    (hidle : s.homing.pass = .idle) :
    exec (.goref axis toMin) s = .next { s with
      homing := ⟨.fast, axis, toMin, s.curPort⟩, trace := s.trace ++ [.engReq (.home axis toMin s.cfg.rateFast)] } := by
  simp only [exec, execGoref, if_neg (Nat.not_le.mpr haxis), hidle, ne_eq, not_true_eq_false, if_false]; rfl

/-- GOREF out of range or with a sequence in flight is refused (R256). -/
theorem exec_goref_refused {axis : Byte} (toMin : Bool) {s : State}
    (h : s.cfg.naxis ≤ axis.toNat ∨ s.homing.pass ≠ .idle) :
    exec (.goref axis toMin) s = .next (s.log [reply s .illegal 0]) := by
  by_cases haxis : s.cfg.naxis ≤ axis.toNat
  · simp only [exec, execGoref, if_pos haxis, refuseForm_eq]
  · simp only [exec, execGoref, if_neg haxis, if_pos (h.resolve_left haxis), refuseForm_eq]

/-- Settles O47: the accepted form starts the fast pass, either refused form is one response. -/
theorem gorefStartsOneSequence : Obligations.GorefStartsOneSequence := fun _ toMin _ =>
  ⟨exec_goref_start toMin, exec_goref_refused toMin⟩

/-! ### POLL -/

/-- The transitions of POLL write the mode and the hold diagnostic only (R191). -/
theorem holdResumeTransition_frame (s : State) :
    holdResumeTransition s =
      { s with ctl := (holdResumeTransition s).ctl, diagHold := (holdResumeTransition s).diagHold } := by
  unfold holdResumeTransition; split_ifs <;> rfl

/-- Settles O36: the kill sample as one update and the pins it turns off, then the samples; the transitions write only the
mode and the hold diagnostic. -/
theorem pollTraceAndFrame : Obligations.PollTraceAndFrame := by
  intro s k off tools
  have hkill : killCondition false (s.log [.engReq .engPoll]) = k := Bool.or_false _
  have hsampled : pollSampled s = { s with
      ctl := (pollSampled s).ctl, diagKill := (pollSampled s).diagKill, tools := tools,
      trace := (pollSampled s).trace } := by
    rw [pollSampled, sampleKill_eq_ite, hkill]; rfl
  refine ⟨_, exec_poll s, ?_, ?_⟩
  · rw [holdResumeTransition_frame, hsampled]; rfl
  · rw [log_trace, holdResumeTransition_trace, pollSampled, sampleKill_eq_ite, toolPinChanges_off, hkill]
    simp only [log_trace, List.append_assoc]
    rfl

end Sys2Proof.Machine
end

section
/-! PROOFS. Statements on the parameters and the bytes they make (00_scope.md R8, 41_sequencer_step.md R141): each check of a
parameter set as its sentence of R8, the address bits beside the table code, and the quantiser's codes. -/

namespace Sys2Proof

/-! ### The checks of a parameter set, each as its sentence of R8 -/

/-- V1, in both directions. -/
theorem Config.addrDistinct_iff (c : Config) :
    c.addrDistinct = true ↔ ∀ a b, a < c.naxis → b < c.naxis → a ≠ b → c.addr a ≠ c.addr b := by
  have haddr : ∀ a (h : a < (c.axis.map (·.addr)).length), (c.axis.map (·.addr))[a] = c.addr a := fun a h => by
    rw [List.getElem_map, Config.addr, Config.axisParam_of_lt (by simpa [Config.naxis] using h)]
    rfl
  have hlen : (c.axis.map (·.addr)).length = c.naxis := List.length_map _
  rw [Config.addrDistinct, decide_eq_true_eq, List.nodup_iff_pairwise_ne, List.pairwise_iff_getElem]
  constructor
  · intro h a b ha hb hne
    rw [← hlen] at ha hb
    obtain hlt | hlt := Nat.lt_or_gt_of_ne hne
    · simpa only [haddr] using h a b ha hb hlt
    · simpa only [haddr] using (h b a hb ha hlt).symm
  · intro h a b ha hb hlt
    simpa only [haddr] using h a b (hlen ▸ ha) (hlen ▸ hb) hlt.ne

/-- V2, in both directions. -/
theorem Config.addrInField_iff (c : Config) :
    c.addrInField = true ↔ ∀ a < c.naxis, c.addr a &&& ~~~c.addrField = 0 := by
  simp only [Config.addrInField, List.all_eq_true, beq_iff_eq, List.forall_mem_iff_getElem]
  refine forall_congr' fun a => forall_congr' fun ha => ?_
  rw [Config.addr, Config.axisParam_of_lt ha]

/-- Every code of a row is the table code of a phase. -/
theorem Config.forall_mem_row_iff (c : Config) (l : Level) (P : Byte → Prop) :
    ((∀ b ∈ (c.lutFull.row l).toList, P b) ∧ ∀ b ∈ (c.lutHalf.row l).toList, P b) ↔
      ∀ (m : StepMode) (i : BitVec 3), P (c.tableCode m l i) := by
  constructor
  · rintro ⟨hfull, hhalf⟩ m i
    cases m with
    | full => exact hfull _ (by simp [Config.tableCode])
    | half => exact hhalf _ (by simp [Config.tableCode])
  · intro h
    refine ⟨List.forall_mem_iff_getElem.mpr fun i hi => ?_, List.forall_mem_iff_getElem.mpr fun i hi => ?_⟩
    · have hi4 : i < 4 := by simpa using hi
      simpa [Config.tableCode, Nat.mod_eq_of_lt hi4, Nat.mod_eq_of_lt (show i < 8 by omega)] using h .full (BitVec.ofNat 3 i)
    · have hi8 : i < 8 := by simpa using hi
      simpa [Config.tableCode, Nat.mod_eq_of_lt hi8] using h .half (BitVec.ofNat 3 i)

/-- V3, in both directions. -/
theorem Config.codesOutsideField_iff (c : Config) :
    c.codesOutsideField = true ↔ ∀ l : Level, (c.reduced = true → l ≠ .mid) →
      ∀ (m : StepMode) (i : BitVec 3), c.tableCode m l i &&& c.addrField = 0 := by
  simp only [Config.codesOutsideField, List.all_eq_true, Bool.and_eq_true, beq_iff_eq, Config.mem_levels]
  exact forall_congr' fun l => forall_congr' fun _ => c.forall_mem_row_iff l fun b => b &&& c.addrField = 0

/-- V5, in both directions. -/
theorem Config.axisCountOk_iff (c : Config) :
    c.axisCountOk = true ↔ 1 ≤ c.naxis ∧ c.naxis ≤ c.driverCap ∧ c.driverCap ≤ 8 := by
  simp only [Config.axisCountOk, Bool.and_eq_true, decide_eq_true_eq, and_assoc]

/-- V6, in both directions. -/
theorem Config.ratesOk_iff (c : Config) : c.ratesOk = true ↔ c.rateSlow < c.rateFast := decide_eq_true_iff

/-- Settles O1: the set is valid exactly when each of the five checks holds, and `configure` asks for nothing else. -/
theorem onlyValidParametersAreConfigured : Obligations.OnlyValidParametersAreConfigured := by
  intro c port ext v1 v2 v3 v5 v6
  have hvalid : c.valid = true ↔ v1 ∧ v2 ∧ v3 ∧ v5 ∧ v6 := by
    simp only [Config.valid, Bool.and_eq_true, c.addrDistinct_iff, c.addrInField_iff, c.codesOutsideField_iff,
      c.axisCountOk_iff, c.ratesOk_iff, and_assoc, v1, v2, v3, v5, v6]
  exact ⟨fun h => if_pos (hvalid.mpr h), fun h => if_neg (mt hvalid.mp h)⟩

/-! ### The bytes of a valid set -/

/-- Settles O24: the code lies outside the address field and the pattern inside it, so they have no bit in common. -/
theorem addingTheAddressBitsIsOr : Obligations.AddingTheAddressBitsIsOr := by
  intro c a m l i hv ha hl
  obtain ⟨hdisjoint, haddr, hcode⟩ :=
    byte_split (Config.tableCode_outside_field hv hl m i) (Config.addr_in_field hv ha)
  rw [byte_add_eq_or hdisjoint]
  exact ⟨rfl, haddr, hcode⟩

/-! ### The quantiser -/

/-- The code of the quantised level, by the thresholds of R160. -/
theorem quantize_code (reduced : Bool) (v : Byte) :
    (quantize reduced v).code.toNat =
      if v.toNat > 153 then 3 else if reduced = false ∧ v.toNat > 51 then 2 else if v.toNat > 0 then 1 else 0 := by
  simp only [quantize, Config.tMax, Config.tMid, Config.tLow, Bool.and_eq_true, Bool.not_eq_true', decide_eq_true_eq]
  split_ifs <;> rfl

/-- Settles O27: the code grows with the thresholds passed, and the threshold of Mid is not asked for in a reduced build. -/
theorem quantizeIsMonotoneWithoutMidWhenReduced : Obligations.QuantizeIsMonotoneWithoutMidWhenReduced := by
  intro reduced v w
  constructor
  · intro hle
    cases reduced with
    | false => simp only [quantize_code, true_and]; split_ifs <;> omega
    | true => simp only [quantize_code, Bool.true_eq_false, false_and, if_false]; split_ifs <;> omega
  · intro hmid
    have hcode : (quantize true v).code.toNat = 2 := by rw [hmid]; rfl
    simp only [quantize_code, Bool.true_eq_false, false_and, if_false] at hcode
    split_ifs at hcode <;> omega

end Sys2Proof

namespace Sys2Proof.Machine

/-- In a state that meets the invariant every register of an axis holds a level the build has (R12, R22). -/
theorem BlockInv.level_mem_levels {s : State} (h : BlockInv s) {a : Nat} (ha : a < s.cfg.naxis) :
    s.level a ∈ s.cfg.levels := (Config.mem_levels _ _).mpr fun hr => h.noMid hr a ha

/-- A table code of a level the build has, with the address bits of an axis, carries that axis's pattern (R141). -/
theorem tableByte_addr {c : Config} (hv : c.valid = true) {a : Nat} (ha : a < c.naxis) {l : Level} (hl : l ∈ c.levels)
    (m : StepMode) (i : BitVec 3) : (c.tableCode m l i + c.addr a) &&& c.addrField = c.addr a :=
  (addingTheAddressBitsIsOr c a m l i hv ha hl).2.1

/-- The byte STEP emits for an axis carries the axis's pattern. -/
theorem newByte_addr (count : Vector Byte 8) (dirMask : Byte) {s : State} (h : BlockInv s) {a : Nat} (ha : a < s.cfg.naxis) :
    newByte count dirMask s a &&& s.cfg.addrField = s.cfg.addr a :=
  tableByte_addr h.valid ha (h.level_mem_levels ha) _ _

/-- Settles O23: the bytes of different axes carry different patterns, so each goes to its own axis of the chip. -/
theorem stepUpdatesTheChipForMovedAxesOnly : Obligations.StepUpdatesTheChipForMovedAxesOnly := by
  intro count dirMask s t hinv hclaimed hexec a ha
  obtain rfl : _ = t := Host.Outcome.next.inj ((exec_step_of_claimed count dirMask hclaimed).symm.trans hexec)
  obtain ⟨-, -, -, -, -, -, hchip⟩ := stepAxes_eq count dirMask s hinv.axesLength
  have hrange : ∀ b ∈ (List.range s.cfg.naxis).filter (moves count), b < s.cfg.naxis := fun b hb =>
    List.mem_range.mp (List.mem_filter.mp hb).1
  rw [log_chip, hchip, chip_foldl s.cfg (newByte count dirMask s) _ s.chip a (List.nodup_range.filter _)
    (fun b hb => newByte_addr count dirMask hinv (hrange b hb))
    (fun b hb => Config.addr_injective hinv.valid (hrange b hb) ha) (hinv.chipLength ▸ ha)]
  have hmem : a ∈ (List.range s.cfg.naxis).filter (moves count) ↔ ¬countLane count a = 0 := by simp [moves, ha]
  by_cases h0 : countLane count a = 0
  · rw [if_pos h0, if_neg (by simp [hmem, h0])]
  · rw [if_neg h0, if_pos (hmem.mpr h0), newByte_eq hinv.axesLength (hmem.mpr h0)]
    rfl

end Sys2Proof.Machine
end

section
/-! PROOFS. What each command does, said once for all fifteen, and the statements on the ownership of the registers, the
control mode and the tools (10_state.md, 44_supervisor_fsm.md, 45_supervisor_tools.md, 60_exceptions.md R262 to R266). -/

namespace Sys2Proof.Machine

/-! ### What a command does -/

/-- What a command run from `s` does: its next state, one line for each way a rule can go. -/
inductive Runs (s : State) : Instr → State → Prop
  | init : Runs s .init ((initSequencer s).log [reply s .ok 0])
  | shutdown : Runs s .shutdown { s with claimed := false, trace := s.trace ++ [.oe false, reply s .ok 0] }
  | stepFault (count : Vector Byte 8) (dirMask : Byte) : s.claimed = false → anyCount s.cfg.naxis count = true →
      Runs s (.step count dirMask) (raiseNotClaimed s)
  | step (count : Vector Byte 8) (dirMask : Byte) : ¬(s.claimed = false ∧ anyCount s.cfg.naxis count = true) →
      Runs s (.step count dirMask) ((stepAxes count dirMask s).log [reply s .ok 0])
  | setlevelOut (axis levelReq : Byte) (force : Bool) : s.cfg.naxis ≤ axis.toNat →
      Runs s (.setlevel axis levelReq force) (s.log [reply s .ok 0])
  | setlevelFault (axis levelReq : Byte) : axis.toNat < s.cfg.naxis → s.claimed = false →
      Runs s (.setlevel axis levelReq true) (raiseNotClaimed s)
  | setlevelQuiet (axis levelReq : Byte) : axis.toNat < s.cfg.naxis →
      Runs s (.setlevel axis levelReq false)
        ((s.setLevel axis.toNat (quantize s.cfg.reduced levelReq)).log [reply s .ok 0])
  | setlevelForced (axis levelReq : Byte) : axis.toNat < s.cfg.naxis → s.claimed = true →
      Runs s (.setlevel axis levelReq true)
        ((emit axis.toNat (s.setLevel axis.toNat (quantize s.cfg.reduced levelReq))).log [reply s .ok 0])
  | getlevel (axis : Byte) : Runs s (.getlevel axis) (s.log [reply s .ok
      (if axis.toNat < s.cfg.naxis then (s.level axis.toNat).code.setWidth 32 else 0)])
  | isref : Runs s .isref (s.log [sampled s .ref, reply s .ok (bitWord (reads s .ref))])
  | moveawayRefused (axis : Byte) (dist maxRate : Word) : dist.toInt < 0 →
      Runs s (.moveaway axis dist maxRate) (s.log [reply s .illegal 0])
  | moveaway (axis : Byte) (dist maxRate : Word) : 0 ≤ dist.toInt →
      Runs s (.moveaway axis dist maxRate) (s.log (travelReads s [0, 1, 2] ++
        [.engReq (.moveRel3 (moveDistance dist s 0) (moveDistance dist s 1) (moveDistance dist s 2) maxRate),
          reply s .ok 0]))
  | setmodeOut (axis : Byte) (half : Bool) : s.cfg.naxis ≤ axis.toNat →
      Runs s (.setmode axis half) (s.log [reply s .ok 0])
  | setmode (axis : Byte) (half : Bool) : axis.toNat < s.cfg.naxis →
      Runs s (.setmode axis half)
        ((s.setStepMode axis.toNat (if half then .half else .full)).log [reply s .ok 0])
  | supinit : Runs s .supinit ((supervisorRunning ((initSequencer (s.log [.engReq .cfgLoad])).log
      [.engReq .engInit])).log [reply s .ok 0])
  | poll : Runs s .poll ((holdResumeTransition (pollSampled s)).log [reply s .ok 0])
  | iskilled : Runs s .iskilled ((sampleKill false s).log
      [reply s .ok (if killCondition false s = true ∨ s.ctl = .killed then 1 else 0)])
  | event (etype : Byte) (info : Word) : Runs s (.event etype info) ((sampleKill (etype == etypeKill) s).log
      [.engReq (.eventDefault etype info), reply s .ok 0])
  | toolwr (tl : Tool) (levelReq : Byte) : Runs s (.toolwr tl.code levelReq) { s with
      tools := toolRegsWritten s.tools levelReq tl,
      trace := s.trace ++ toolPinChanges s.tools (toolRegsWritten s.tools levelReq tl) ++ [reply s .ok 0] }
  | toolwrOther (tool levelReq : Byte) : Tool.ofCode tool = none →
      Runs s (.toolwr tool levelReq) (s.log [.engReq (.toolWrGeneric tool levelReq), reply s .fallthrough 0])
  | toolrdProbe : Runs s (.toolrd Tool.probe.code)
      (s.log [sampled s .probe, reply s .ok (if reads s .probe then 1 else 0)])
  | toolrdRegister (tl : Tool) : tl ≠ .probe →
      Runs s (.toolrd tl.code) (s.log [reply s .ok ((toolRegData s.tools tl).setWidth 32)])
  | toolrdAnswered (tool : Byte) (a : Answer) (rest : List Answer) : Tool.ofCode tool = none →
      s.ext.answers = a :: rest → Runs s (.toolrd tool) { s with
        call := none, ext := { s.ext with answers := rest },
        trace := s.trace ++ [.engReq (.toolRdGeneric tool), .engRsp .toolRdGeneric a.ok a.data,
          reply s .fallthrough a.data] }
  | toolrdWaits (tool : Byte) : Tool.ofCode tool = none → s.ext.answers = [] →
      Runs s (.toolrd tool) { s with
        call := some ⟨s.curPort, tool⟩, trace := s.trace ++ [.engReq (.toolRdGeneric tool)] }
  | gorefRefused (axis : Byte) (toMin : Bool) : s.cfg.naxis ≤ axis.toNat ∨ s.homing.pass ≠ .idle →
      Runs s (.goref axis toMin) (s.log [reply s .illegal 0])
  | goref (axis : Byte) (toMin : Bool) : axis.toNat < s.cfg.naxis → s.homing.pass = .idle →
      Runs s (.goref axis toMin) { s with
        homing := ⟨.fast, axis, toMin, s.curPort⟩, trace := s.trace ++ [.engReq (.home axis toMin s.cfg.rateFast)] }

/-- Each line of `Runs` is what `exec` gives. -/
theorem Runs.exec_eq {i : Instr} {s t : State} (h : Runs s i t) : exec i s = .next t := by
  cases h with
  | init => exact exec_init s
  | shutdown => exact exec_shutdown s
  | stepFault count dirMask hrel hcount => exact exec_step_of_fault dirMask hrel hcount
  | step count dirMask hok => exact exec_step_of_not_fault dirMask hok
  | setlevelOut axis levelReq force haxis => exact exec_setlevel_of_le levelReq force haxis
  | setlevelFault axis levelReq haxis hrel => exact exec_setlevel_of_fault levelReq haxis hrel
  | setlevelQuiet axis levelReq haxis => exact exec_setlevel_quiet levelReq haxis
  | setlevelForced axis levelReq haxis hclaimed => exact exec_setlevel_forced levelReq haxis hclaimed
  | getlevel axis => exact exec_getlevel axis s
  | isref => exact exec_isref s
  | moveawayRefused axis dist maxRate hdist => exact exec_moveaway_of_neg axis maxRate s hdist
  | moveaway axis dist maxRate hdist => exact exec_moveaway_of_nonneg axis maxRate s hdist
  | setmodeOut axis half haxis => exact exec_setmode_of_le half haxis
  | setmode axis half haxis => exact exec_setmode_of_lt half haxis
  | supinit => exact exec_supinit s
  | poll => exact exec_poll s
  | iskilled => exact exec_iskilled s
  | event etype info => exact exec_event etype info s
  | toolwr tl levelReq => exact exec_toolwr_code tl levelReq s rfl
  | toolwrOther tool levelReq hcode => exact exec_toolwr_of_none levelReq s hcode
  | toolrdProbe => exact exec_toolrd_probe s
  | toolrdRegister tl hprobe => exact exec_toolrd_register s hprobe
  | toolrdAnswered tool a rest hcode hans => rw [exec_toolrd_of_none s hcode, callToolRead_of_answer tool hans]
  | toolrdWaits tool hcode hans => rw [exec_toolrd_of_none s hcode, callToolRead_of_no_answer tool hans]
  | gorefRefused axis toMin hbad => exact exec_goref_refused toMin hbad
  | goref axis toMin haxis hidle => exact exec_goref_start toMin haxis hidle

/-- A recognised code is the code of its tool (R104). -/
theorem code_of_ofCode {c : Byte} {tl : Tool} (h : Tool.ofCode c = some tl) : c = tl.code := by
  apply BitVec.eq_of_toNat_eq
  unfold Tool.ofCode at h
  split at h <;> cases h <;> assumption

/-- Some line of `Runs` applies to every command in every state. -/
theorem exists_runs (i : Instr) (s : State) : ∃ t, Runs s i t := by
  cases i with
  | init => exact ⟨_, .init⟩
  | shutdown => exact ⟨_, .shutdown⟩
  | step count dirMask =>
    by_cases hf : s.claimed = false ∧ anyCount s.cfg.naxis count = true
    · exact ⟨_, .stepFault count dirMask hf.1 hf.2⟩
    · exact ⟨_, .step count dirMask hf⟩
  | setlevel axis levelReq force =>
    obtain haxis | haxis := Nat.lt_or_ge axis.toNat s.cfg.naxis
    · cases force with
      | false => exact ⟨_, .setlevelQuiet axis levelReq haxis⟩
      | true =>
        cases hclaimed : s.claimed with
        | false => exact ⟨_, .setlevelFault axis levelReq haxis hclaimed⟩
        | true => exact ⟨_, .setlevelForced axis levelReq haxis hclaimed⟩
    · exact ⟨_, .setlevelOut axis levelReq force haxis⟩
  | getlevel axis => exact ⟨_, .getlevel axis⟩
  | isref => exact ⟨_, .isref⟩
  | moveaway axis dist maxRate =>
    obtain hdist | hdist := lt_or_ge dist.toInt 0
    · exact ⟨_, .moveawayRefused axis dist maxRate hdist⟩
    · exact ⟨_, .moveaway axis dist maxRate hdist⟩
  | setmode axis half =>
    obtain haxis | haxis := Nat.lt_or_ge axis.toNat s.cfg.naxis
    · exact ⟨_, .setmode axis half haxis⟩
    · exact ⟨_, .setmodeOut axis half haxis⟩
  | supinit => exact ⟨_, .supinit⟩
  | poll => exact ⟨_, .poll⟩
  | iskilled => exact ⟨_, .iskilled⟩
  | event etype info => exact ⟨_, .event etype info⟩
  | toolwr tool levelReq =>
    cases hcode : Tool.ofCode tool with
    | some tl => obtain rfl := code_of_ofCode hcode; exact ⟨_, .toolwr tl levelReq⟩
    | none => exact ⟨_, .toolwrOther tool levelReq hcode⟩
  | toolrd tool =>
    cases hcode : Tool.ofCode tool with
    | some tl =>
      obtain rfl := code_of_ofCode hcode
      obtain rfl | hprobe := eq_or_ne tl .probe
      · exact ⟨_, .toolrdProbe⟩
      · exact ⟨_, .toolrdRegister tl hprobe⟩
    | none =>
      cases hans : s.ext.answers with
      | cons a rest => exact ⟨_, .toolrdAnswered tool a rest hcode hans⟩
      | nil => exact ⟨_, .toolrdWaits tool hcode hans⟩
  | goref axis toMin =>
    by_cases hok : axis.toNat < s.cfg.naxis ∧ s.homing.pass = .idle
    · exact ⟨_, .goref axis toMin hok.1 hok.2⟩
    · exact ⟨_, .gorefRefused axis toMin (by rwa [not_and_or, Nat.not_lt] at hok)⟩

/-- A command does what the line of `Runs` that applies says, and nothing else. -/
theorem runs_of_exec {i : Instr} {s t : State} (h : exec i s = .next t) : Runs s i t := by
  obtain ⟨u, hu⟩ := exists_runs i s
  cases hu.exec_eq.symm.trans h
  exact hu

/-! ### What a command leaves alone -/

/-- What a command from `s` to `t` leaves alone, by which commands own which registers (R26, R262, R266). -/
structure Frame (i : Instr) (s t : State) : Prop where
  /-- No command changes the parameters (R42). -/
  cfg : t.cfg = s.cfg
  /-- No command changes the port it runs on. -/
  curPort : t.curPort = s.curPort
  /-- Commands take nothing off a port and no report: of the inputs only the engine's answers can change. -/
  offers : t.ext = { s.ext with answers := t.ext.answers }
  /-- Commands that do not drive the sequencer leave its registers alone. -/
  sequencer : i.drivesSequencer = false → t.axes = s.axes ∧ t.idle = s.idle ∧ t.claimed = s.claimed ∧
    t.outPort = s.outPort ∧ t.strobe = s.strobe ∧ t.chip = s.chip
  /-- Commands that drive the sequencer leave the tools and the kill diagnostic alone. -/
  toolsKill : i.drivesSequencer = true → t.tools = s.tools ∧ t.diagKill = s.diagKill
  /-- Commands that do not use the mode leave it and its diagnostics alone. -/
  mode : i.usesMode = false → t.ctl = s.ctl ∧ t.diagHold = s.diagHold ∧ t.diagKill = s.diagKill
  /-- Only GOREF starts a homing sequence. -/
  homing : (∀ axis toMin, i ≠ .goref axis toMin) → t.homing = s.homing
  /-- Only TOOLRD waits for the engine or takes one of its answers. -/
  call : (∀ tool, i ≠ .toolrd tool) → t.call = s.call ∧ t.ext = s.ext

/-- Every command keeps its frame. -/
theorem exec_frame {i : Instr} {s t : State} (h : exec i s = .next t) : Frame i s t := by
  cases runs_of_exec h with
  | stepFault | setlevelFault =>
    constructor <;> simp [raiseNotClaimed, respond_eq, Instr.drivesSequencer, Instr.usesMode]
  | supinit => constructor <;> simp [supervisorRunning, Instr.drivesSequencer, Instr.usesMode]
  | poll => constructor <;> simp [pollSampled, Instr.drivesSequencer, Instr.usesMode]
  | setlevelQuiet | setlevelForced =>
    constructor <;> simp [State.setLevel, Instr.drivesSequencer, Instr.usesMode]
  | setmode => constructor <;> simp [State.setStepMode, Instr.drivesSequencer, Instr.usesMode]
  | _ => constructor <;> simp [Instr.drivesSequencer, Instr.usesMode]

/-- Settles O42: the frame of each command, and the fact that the sequencer's own commands are neither GOREF nor TOOLRD and
do not use the mode, SUPINIT apart. -/
theorem ownershipOfTheRegisters : Obligations.OwnershipOfTheRegisters := by
  intro i s t h
  have hf := exec_frame h
  refine ⟨hf.sequencer, fun hi => ?_, fun hi hne => ?_, hf.cfg, hf.curPort, fun hi => (hf.call hi).2⟩
  · have hhoming : t.homing = s.homing := hf.homing fun _ _ he => by rw [he] at hi; cases hi
    have hcall : t.call = s.call := (hf.call fun _ he => by rw [he] at hi; cases hi).1
    exact ⟨(hf.toolsKill hi).1, hhoming, hcall, (hf.toolsKill hi).2⟩
  · have hmode : i.usesMode = false := by
      cases i with
      | supinit => exact absurd rfl hne
      | init | shutdown | step | setlevel | setmode => rfl
      | _ => cases hi
    exact ⟨(hf.mode hmode).1, (hf.mode hmode).2.1⟩

/-! ### The mode -/

/-- The four commands that use the mode (R194, R198). -/
theorem usesMode_cases {i : Instr} (h : i.usesMode = true) :
    i = .supinit ∨ i = .poll ∨ i = .iskilled ∨ ∃ etype info, i = .event etype info := by
  cases i with
  | supinit => exact .inl rfl
  | poll => exact .inr (.inl rfl)
  | iskilled => exact .inr (.inr (.inl rfl))
  | event etype info => exact .inr (.inr (.inr ⟨etype, info, rfl⟩))
  | _ => cases h

/-- The mode after SUPINIT: Running, unless Killed (R198). -/
@[simp] theorem supervisorRunning_ctl (s : State) :
    (supervisorRunning s).ctl = if s.ctl = .killed then .killed else .running := rfl

/-- SUPINIT clears the hold diagnostic (R198). -/
@[simp] theorem supervisorRunning_diagHold (s : State) : (supervisorRunning s).diagHold = false := rfl

/-- SUPINIT leaves the kill diagnostic alone (R198). -/
@[simp] theorem supervisorRunning_diagKill (s : State) : (supervisorRunning s).diagKill = s.diagKill := rfl

/-- The ways the transitions of POLL can go, each with its condition (R191). -/
theorem holdResumeTransition_cases (s : State) :
    holdResumeTransition s = s ∨
      (s.ctl = .held ∧ resumeActive s = true ∧ holdResumeTransition s = { s with ctl := .running, diagHold := false }) ∨
      (s.ctl = .running ∧ holdActive s = true ∧ holdResumeTransition s = { s with ctl := .held, diagHold := true }) := by
  cases hctl : s.ctl with
  | killed => exact .inl (holdResumeTransition_of_killed hctl)
  | held =>
    cases hr : resumeActive s with
    | true => exact .inr (.inl ⟨rfl, rfl, holdResumeTransition_of_held_resume hctl hr⟩)
    | false => exact .inl (holdResumeTransition_of_held hctl hr)
  | running =>
    cases hh : holdActive s with
    | true => exact .inr (.inr ⟨rfl, rfl, holdResumeTransition_of_running_hold hctl hh⟩)
    | false => exact .inl (holdResumeTransition_of_running hctl hh)

/-- The kill sample changes the mode only to Killed, and only on the kill condition (R194). -/
theorem killCondition_of_sampleKill_ctl_ne {hook : Bool} {s : State} (h : (sampleKill hook s).ctl ≠ s.ctl) :
    killCondition hook s = true ∧ (sampleKill hook s).ctl = .killed := by
  rw [sampleKill_ctl] at h ⊢
  split_ifs at h ⊢ with hk
  · exact ⟨hk, rfl⟩
  · exact absurd rfl h

/-- The samples of POLL leave a mode other than Killed only if it was the mode before. -/
theorem pollSampled_ctl_of_ne_killed (s : State) (m : CtlMode) (hm : m ≠ .killed) (h : (pollSampled s).ctl = m) :
    s.ctl = m := by
  rw [pollSampled_ctl] at h
  split_ifs at h
  · exact absurd h.symm hm
  · exact h

/-- Settles O40: a command that does not use the mode keeps it; SUPINIT, the kill sample and the transitions of POLL are the
only ways to change it, each on its own condition. -/
theorem modeChangesOnlyWhereTheSpecSays : Obligations.ModeChangesOnlyWhereTheSpecSays := by
  intro i s t h hne
  cases hi : i.usesMode with
  | false => exact absurd ((exec_frame h).mode hi).1 hne
  | true =>
    obtain rfl | rfl | rfl | ⟨etype, info, rfl⟩ := usesMode_cases hi <;> cases runs_of_exec h
    · simp only [log_ctl, supervisorRunning_ctl, initSequencer_ctl] at hne ⊢
      cases hs : s.ctl with
      | running | killed => simp [hs] at hne
      | held => simp
    · have hkept : ∀ m ≠ CtlMode.killed, (pollSampled s).ctl = m → s.ctl = m := pollSampled_ctl_of_ne_killed s
      obtain hsame | ⟨hheld, hr, heq⟩ | ⟨hrun, hh, heq⟩ := holdResumeTransition_cases (pollSampled s)
      · simp only [log_ctl, hsame, pollSampled_ctl] at hne ⊢
        split_ifs at hne ⊢ with hk
        · exact .inr (.inr ⟨rfl, .inl ⟨.inl trivial, hk⟩⟩)
        · exact absurd rfl hne
      · rw [resumeActive_pollSampled] at hr
        exact .inr (.inl ⟨by rw [log_ctl, heq], hkept .held nofun hheld, .inr ⟨rfl, hr⟩⟩)
      · rw [holdActive_pollSampled] at hh
        exact .inl ⟨by rw [log_ctl, heq], hkept .running nofun hrun, rfl, hh⟩
    · obtain ⟨hk, hctl⟩ := killCondition_of_sampleKill_ctl_ne hne
      rw [killCondition_eq, Bool.or_false] at hk
      exact .inr (.inr ⟨hctl, .inl ⟨.inr (.inl rfl), hk⟩⟩)
    · obtain ⟨hk, hctl⟩ := killCondition_of_sampleKill_ctl_ne hne
      rw [killCondition_eq, Bool.or_eq_true, beq_iff_eq] at hk
      refine .inr (.inr ⟨hctl, ?_⟩)
      obtain hk | rfl := hk
      · exact .inl ⟨.inr (.inr ⟨_, _, rfl⟩), hk⟩
      · exact .inr ⟨info, rfl⟩

/-- Once Killed, no command leaves the mode (R190). -/
theorem exec_ctl_of_killed {i : Instr} {s t : State} (h : exec i s = .next t) (hk : s.ctl = .killed) : t.ctl = .killed := by
  by_contra hne
  obtain ⟨-, hrun, -⟩ | ⟨-, hheld, -⟩ | ⟨hkilled, -⟩ :=
    modeChangesOnlyWhereTheSpecSays i s t h fun he => hne (he.trans hk)
  · rw [hk] at hrun; cases hrun
  · rw [hk] at hheld; cases hheld
  · exact hne hkilled

/-- `DIAG_KILL` shows whether the mode is Killed (R37). -/
def KillShown (s : State) : Prop := s.diagKill = decide (s.ctl = .killed)

/-- Unless Killed, `DIAG_HOLD` shows whether the mode is Held (R36). -/
def HoldShown (s : State) : Prop := s.ctl ≠ .killed → s.diagHold = decide (s.ctl = .held)

/-- The kill sample sets the mode and the kill diagnostic together (R194). -/
theorem sampleKill_killShown (hook : Bool) {s : State} (h : KillShown s) : KillShown (sampleKill hook s) := by
  rw [KillShown, sampleKill_ctl, sampleKill_diagKill]
  split_ifs
  · rfl
  · exact h

/-- The kill sample leaves the hold diagnostic alone, and the mode unless it is Killed then (R194). -/
theorem sampleKill_holdShown (hook : Bool) {s : State} (h : HoldShown s) : HoldShown (sampleKill hook s) := by
  rw [HoldShown, sampleKill_ctl, sampleKill_diagHold]
  split_ifs
  · exact fun hne => absurd rfl hne
  · exact h

/-- The transitions of POLL are between Running and Held (R191). -/
theorem holdResumeTransition_killShown {s : State} (h : KillShown s) : KillShown (holdResumeTransition s) := by
  obtain heq | ⟨hctl, -, heq⟩ | ⟨hctl, -, heq⟩ := holdResumeTransition_cases s
  · rwa [heq]
  · rw [heq, KillShown]; exact h.trans (by rw [hctl]; rfl)
  · rw [heq, KillShown]; exact h.trans (by rw [hctl]; rfl)

/-- The transitions of POLL write the hold diagnostic with the mode (R191). -/
theorem holdResumeTransition_holdShown {s : State} (h : HoldShown s) : HoldShown (holdResumeTransition s) := by
  obtain heq | ⟨-, -, heq⟩ | ⟨-, -, heq⟩ := holdResumeTransition_cases s
  · rwa [heq]
  · rw [heq]; exact fun _ => rfl
  · rw [heq]; exact fun _ => rfl

/-- Every command keeps the kill diagnostic showing the mode (R37). -/
theorem exec_killShown {i : Instr} {s t : State} (h : exec i s = .next t) (hs : KillShown s) : KillShown t := by
  cases hi : i.usesMode with
  | false =>
    obtain ⟨hctl, -, hkill⟩ := (exec_frame h).mode hi
    rw [KillShown, hctl, hkill]; exact hs
  | true =>
    obtain rfl | rfl | rfl | ⟨etype, info, rfl⟩ := usesMode_cases hi <;> cases runs_of_exec h
    · simp only [KillShown, log_ctl, log_diagKill, supervisorRunning_ctl, supervisorRunning_diagKill, initSequencer_ctl,
        initSequencer_diagKill] at hs ⊢
      rw [hs]; cases s.ctl <;> rfl
    · exact holdResumeTransition_killShown (sampleKill_killShown false hs)
    · exact sampleKill_killShown false hs
    · exact sampleKill_killShown _ hs

/-- Every command keeps the hold diagnostic showing the mode, unless Killed (R36). -/
theorem exec_holdShown {i : Instr} {s t : State} (h : exec i s = .next t) (hs : HoldShown s) : HoldShown t := by
  cases hi : i.usesMode with
  | false =>
    obtain ⟨hctl, hhold, -⟩ := (exec_frame h).mode hi
    rw [HoldShown, hctl, hhold]; exact hs
  | true =>
    obtain rfl | rfl | rfl | ⟨etype, info, rfl⟩ := usesMode_cases hi <;> cases runs_of_exec h
    · simp only [HoldShown, log_ctl, log_diagHold, supervisorRunning_ctl, supervisorRunning_diagHold, initSequencer_ctl]
      cases s.ctl <;> simp
    · exact holdResumeTransition_holdShown (sampleKill_holdShown false hs)
    · exact sampleKill_holdShown false hs
    · exact sampleKill_holdShown _ hs

/-! ### The tools -/

/-- A kill under `force_off` turned the tools off on the way from `s` to `t` (R194). -/
def KilledTools (s t : State) : Prop :=
  s.cfg.killTools = .forceOff ∧ s.ctl ≠ .killed ∧ t.ctl = .killed ∧ t.tools = toolRegsOff s.tools

/-- The kill sample turns the tools off on the transition under `force_off`, and otherwise leaves them (R194). -/
theorem sampleKill_tools (hook : Bool) (s : State) :
    (sampleKill hook s).tools = s.tools ∨ KilledTools s (sampleKill hook s) := by
  by_cases h : killOff hook s
  · obtain ⟨-, hforce, hctl⟩ := id h
    exact .inr ⟨hforce, hctl, by rw [sampleKill_off h], by rw [sampleKill_off h]⟩
  · exact .inl (by rw [sampleKill_keep h])

/-- The tools change only by a TOOLWR or by a kill under `force_off` (R222, R194). -/
theorem exec_tools {i : Instr} {s t : State} (h : exec i s = .next t) :
    t.tools = s.tools ∨ (∃ tool level tl, i = .toolwr tool level ∧ Tool.ofCode tool = some tl ∧
      t.tools = toolRegsWritten s.tools level tl) ∨ KilledTools s t := by
  cases runs_of_exec h with
  | init | shutdown | stepFault | step | setlevelOut | setlevelFault | setlevelQuiet | setlevelForced | setmodeOut | setmode
  | supinit => exact .inl ((exec_frame h).toolsKill rfl).1
  | toolwr tl level => exact .inr (.inl ⟨_, level, tl, rfl, ofCode_code tl, rfl⟩)
  | iskilled | event => exact (sampleKill_tools _ s).imp id .inr
  | poll =>
    have htools : (holdResumeTransition (pollSampled s)).tools = (pollSampled s).tools := holdResumeTransition_tools _
    obtain hsame | ⟨hforce, hctl, hkilled, hoff⟩ := sampleKill_tools false (s.log [.engReq .engPoll])
    · exact .inl (htools.trans hsame)
    · have hkilled' : (holdResumeTransition (pollSampled s)).ctl = .killed := by
        rw [holdResumeTransition_of_killed (s := pollSampled s) hkilled]; exact hkilled
      exact .inr (.inr ⟨hforce, hctl, hkilled', htools.trans hoff⟩)
  | _ => exact .inl rfl

/-- A TOOLWR to another tool leaves the coolant and the fan register alone. -/
theorem toolRegData_written_of_ne {tl other : Tool} (htl : tl = .coolant ∨ tl = .controllerFan) (hne : other ≠ tl)
    (r : ToolRegs) (level : Byte) : toolRegData (toolRegsWritten r level other) tl = toolRegData r tl := by
  obtain rfl | rfl := htl
  · cases other with
    | coolant => exact absurd rfl hne
    | spindleCW | spindleCCW | probe | controllerFan => rfl
  · cases other with
    | controllerFan => exact absurd rfl hne
    | spindleCW | spindleCCW | probe | coolant => rfl

/-- One command keeps a coolant or fan register, unless it writes that tool or a kill turns the tools off. -/
theorem toolRegData_of_exec {i : Instr} {s t : State} (h : exec i s = .next t) {tl : Tool}
    (htl : tl = .coolant ∨ tl = .controllerFan) (hi : i.writesTool tl = false) (hkill : ¬KilledTools s t) :
    toolRegData t.tools tl = toolRegData s.tools tl := by
  obtain hsame | ⟨tool, level, other, rfl, hcode, hwritten⟩ | hk := exec_tools h
  · rw [hsame]
  · have hne : other ≠ tl := by rintro rfl; simp [Instr.writesTool, hcode] at hi
    rw [hwritten, toolRegData_written_of_ne htl hne]
  · exact absurd hk hkill

/-- A run of commands, split at its first. -/
theorem execAll_cons {i : Instr} {rest : List Instr} {s u : State} (h : execAll (i :: rest) s = .next u) :
    ∃ t, exec i s = .next t ∧ execAll rest t = .next u := by
  obtain ⟨t, ht⟩ := exec_next i s
  rw [execAll, ht] at h
  exact ⟨t, ht, h⟩

/-- Once Killed, no run of commands leaves the mode. -/
theorem execAll_ctl_of_killed {is : List Instr} {s u : State} (h : execAll is s = .next u) (hk : s.ctl = .killed) :
    u.ctl = .killed := by
  induction is generalizing s with
  | nil => cases h; exact hk
  | cons i rest ih =>
    obtain ⟨t, ht, hrest⟩ := execAll_cons h
    exact ih hrest (exec_ctl_of_killed ht hk)

/-- A run of commands keeps a coolant or fan register if none writes that tool and, under `force_off`, none is a transition
into Killed (R231). -/
theorem toolRegData_of_execAll {is : List Instr} {s u : State} (h : execAll is s = .next u) {tl : Tool}
    (htl : tl = .coolant ∨ tl = .controllerFan) (his : ∀ i ∈ is, i.writesTool tl = false)
    (hkill : s.cfg.killTools = .retain ∨ u.ctl ≠ .killed ∨ s.ctl = .killed) :
    toolRegData u.tools tl = toolRegData s.tools tl := by
  induction is generalizing s with
  | nil => cases h; rfl
  | cons i rest ih =>
    obtain ⟨t, ht, hrest⟩ := execAll_cons h
    have hnot : ¬KilledTools s t := by
      rintro ⟨hforce, hctl, hkilled, -⟩
      obtain hr | hr | hr := hkill
      · rw [hforce] at hr; cases hr
      · exact hr (execAll_ctl_of_killed hrest hkilled)
      · exact hctl hr
    have hkill' : t.cfg.killTools = .retain ∨ u.ctl ≠ .killed ∨ t.ctl = .killed := by
      rw [(exec_frame ht).cfg]; exact hkill.imp id (Or.imp id (exec_ctl_of_killed ht))
    rw [ih hrest (fun j hj => his j (List.mem_cons_of_mem i hj)) hkill',
      toolRegData_of_exec ht htl (his i List.mem_cons_self) hnot]

/-- Settles O46: the write sets the register, the run keeps it, the read answers it; a spindle write sets the level and the
direction that the two identifiers are read by. -/
theorem toolWriteIsReadBack : Obligations.ToolWriteIsReadBack := by
  intro x s
  refine ⟨fun tool between t u htool ht hu hbetween hkill => ?coolantFan, fun t ht => ?spindleCW, fun t ht => ?spindleCCW⟩
  case coolantFan =>
    have hwritten : toolRegData t.tools tool = x := by
      cases (exec_toolwr_code tool x s rfl).symm.trans ht
      obtain rfl | rfl := htool <;> rfl
    have hread : toolRegData u.tools tool = x := 
      (toolRegData_of_execAll hu htool hbetween ((exec_frame ht).cfg ▸ hkill)).trans hwritten
    rw [exec_toolrd_register u (by obtain rfl | rfl := htool <;> decide), hread]
    rfl
  case spindleCW =>
    cases (exec_toolwr_code .spindleCW x s rfl).symm.trans ht
    exact ⟨exec_toolrd_register (tl := .spindleCW) _ (by decide), exec_toolrd_register (tl := .spindleCCW) _ (by decide)⟩
  case spindleCCW =>
    cases (exec_toolwr_code .spindleCCW x s rfl).symm.trans ht
    exact ⟨exec_toolrd_register (tl := .spindleCCW) _ (by decide), exec_toolrd_register (tl := .spindleCW) _ (by decide)⟩

end Sys2Proof.Machine
end

section
/-! PROOFS. What a command adds to the trace, by kind of entry and by how it ends, and the statements on responses, samples, the
fault and the port (30_encoding.md R110, 20_memory.md R62 to R68, 60_exceptions.md R252 to R254). -/

namespace Sys2Proof

/-- The requests that are neither a homing pass nor a relative move. -/
def Machine.EngReq.isOther : Machine.EngReq → Bool
  | .home _ _ _ | .moveRel3 _ _ _ _ => false
  | .cfgLoad | .engInit | .engPoll | .toolWrGeneric _ _ | .toolRdGeneric _ | .eventDefault _ _ => true

/-- The commands that can make an emission (R142). -/
def Instr.CanEmit (i : Instr) : Prop :=
  (∃ count dirMask, i = .step count dirMask) ∨ ∃ axis levelReq, i = .setlevel axis levelReq true

/-- The command would make an emission in a block of `naxis` axes (R254, R258). -/
def Instr.WantsEmission (naxis : Nat) : Instr → Prop
  | .step count _ => ∃ a, ∃ h : a < 8, a < naxis ∧ count[a] ≠ 0
  | .setlevel axis _ force => force = true ∧ axis.toNat < naxis
  | _ => False

end Sys2Proof

namespace Sys2Proof.Machine

/-! ### The entries of a command and its response -/

/-- An entry that a command run from `s` can add to the trace before its response, by its kind. -/
inductive Entry (i : Instr) (s : State) : Event → Prop
  /-- A sample of a pin at its level. -/
  | sampled (p : InPin) : Entry i s (sampled s p)
  /-- A tool pin that changes. -/
  | toolPin (p : ToolPin) (v : Byte) : Entry i s (.toolPin p v)
  /-- The output enable. -/
  | oe (on : Bool) : Entry i s (.oe on)
  /-- A part of an emission. -/
  | emission (b : Byte) (e : Event) : e ∈ emission b → s.claimed = true → i.CanEmit → Entry i s e
  /-- The spurious latch of INIT. -/
  | spurious (b : Byte) : s.cfg.initSpuriousLatch = true → Entry i s (.latch b)
  /-- A configuration read. -/
  | cfgRd (k : Nat) (v : Word) : Entry i s (.cfgRd .maxTravel k v)
  /-- The engine's answer to a blocking request. -/
  | answer (ok : Bool) (data : Word) : Entry i s (.engRsp .toolRdGeneric ok data)
  /-- A relative move, clamped. -/
  | move (dist rate : Word) :
      Entry i s (.engReq (.moveRel3 (moveDistance dist s 0) (moveDistance dist s 1) (moveDistance dist s 2) rate))
  /-- The fast pass an accepted GOREF requests. -/
  | home (axis : Byte) (toMin : Bool) : i = .goref axis toMin → Entry i s (.engReq (.home axis toMin s.cfg.rateFast))
  /-- Any other request. -/
  | request (r : EngReq) : r.isOther = true → Entry i s (.engReq r)

/-- A command that ends without a response: an accepted GOREF, or a TOOLRD that waits (R110, R270). -/
def Unanswered (i : Instr) (s t : State) : Prop :=
  (∃ axis toMin, i = .goref axis toMin ∧ s.homing.pass = .idle ∧ t.homing.pass = .fast) ∨
    ∃ tool, i = .toolrd tool ∧ s.ext.answers = [] ∧ t.call = some ⟨s.curPort, tool⟩

/-- A command adds the entries `body` and then responds with `st` and `data`: never with FAIL, with NOTCLAIMED only for an
emission on released lines, and leaving the homing record alone and no call behind. -/
def Responds (i : Instr) (s t : State) (body : List Event) : Prop :=
  ∃ st data, t.trace = s.trace ++ body ++ [reply s st data] ∧ st ≠ .fail ∧
    (st = .notClaimed → i.WantsEmission s.cfg.naxis ∧ s.claimed = false) ∧
    t.homing = s.homing ∧ (s.call = none → t.call = none)

/-- Tool pins that change are entries of a command. -/
theorem PinsOnly.entries {ps : List Event} (h : PinsOnly ps) (i : Instr) (s : State) : ∀ e ∈ ps, Entry i s e := by
  intro e he
  obtain ⟨p, v, rfl⟩ := h e he
  exact .toolPin p v

/-- Tool pins that go off are tool pins that change. -/
theorem PinsOff.pinsOnly {ps : List Event} (h : PinsOff ps) : PinsOnly ps := fun e he => (h e he).imp fun _ hp => ⟨0, hp⟩

/-- The latch INIT may make is an entry of a command. -/
theorem spurious_entries {sp : List Event} {s : State} (i : Instr)
    (h : sp = [] ∨ ∃ b, sp = [.latch b] ∧ s.cfg.initSpuriousLatch = true) : ∀ e ∈ sp, Entry i s e := by
  obtain rfl | ⟨b, rfl, hb⟩ := h
  · exact fun _ he => absurd he List.not_mem_nil
  · exact List.forall_mem_singleton.mpr (.spurious b hb)

/-- What the entries of a command other than GOREF and TOOLRD are: a body and a response. -/
theorem response_of_adds {i : Instr} {s t : State} {es : List Event} (h : Adds i s t es)
    (hgoref : ∀ axis toMin, i ≠ .goref axis toMin) (htoolrd : ∀ tool, i ≠ .toolrd tool) :
    ∃ body st data, es = body ++ [reply s st data] ∧ (∀ e ∈ body, Entry i s e) ∧ st ≠ .fail ∧
      (st = .notClaimed → i.WantsEmission s.cfg.naxis ∧ s.claimed = false) := by
  cases i with
  | goref axis toMin => exact absurd rfl (hgoref axis toMin)
  | toolrd tool => exact absurd rfl (htoolrd tool)
  | init =>
    obtain ⟨sp, rfl, hsp⟩ := h
    refine ⟨[.oe true] ++ sp, .ok, 0, rfl, ?_, nofun, nofun⟩
    exact List.forall_mem_append.mpr ⟨List.forall_mem_singleton.mpr (.oe true), spurious_entries _ hsp⟩
  | supinit =>
    obtain ⟨sp, rfl, hsp⟩ := h
    refine ⟨[.engReq .cfgLoad, .oe true] ++ sp ++ [.engReq .engInit], .ok, 0, by simp, ?_, nofun, nofun⟩
    simp only [List.forall_mem_append, List.forall_mem_cons, List.not_mem_nil, false_implies, implies_true,
      and_true]
    exact ⟨⟨⟨.request _ rfl, .oe true⟩, spurious_entries _ hsp⟩, .request _ rfl⟩
  | shutdown => exact ⟨[.oe false], .ok, 0, h, List.forall_mem_singleton.mpr (.oe false), nofun, nofun⟩
  | step count dirMask =>
    obtain ⟨rfl, hrel, hcount, -⟩ | ⟨bs, rfl, hbs, -⟩ := h
    · exact ⟨[], .notClaimed, 0, rfl, nofun, nofun, fun _ => ⟨(anyCount_iff ..).mp hcount, hrel⟩⟩
    · refine ⟨bs.flatMap emission, .ok, 0, rfl, fun e he => ?_, nofun, nofun⟩
      obtain ⟨b, hb, heb⟩ := List.mem_flatMap.mp he
      obtain rfl | hclaimed := hbs
      · exact absurd hb List.not_mem_nil
      · exact .emission b e heb hclaimed (.inl ⟨count, dirMask, rfl⟩)
  | setlevel axis levelReq force =>
    obtain ⟨rfl, hrel, haxis, hforce, -⟩ | rfl | ⟨b, rfl, hclaimed, -, rfl⟩ := h
    · exact ⟨[], .notClaimed, 0, rfl, nofun, nofun, fun _ => ⟨⟨hforce, haxis⟩, hrel⟩⟩
    · exact ⟨[], .ok, 0, rfl, nofun, nofun, nofun⟩
    · exact ⟨emission b, .ok, 0, rfl, fun e he => .emission b e he hclaimed (.inr ⟨axis, levelReq, rfl⟩), nofun, nofun⟩
  | getlevel axis => obtain ⟨d, rfl⟩ := h; exact ⟨[], .ok, d, rfl, nofun, nofun, nofun⟩
  | isref =>
    obtain ⟨d, rfl⟩ := h
    exact ⟨[sampled s .ref], .ok, d, rfl, List.forall_mem_singleton.mpr (.sampled .ref), nofun, nofun⟩
  | moveaway axis dist maxRate =>
    obtain rfl | ⟨rs, hrs, rfl⟩ := h
    · exact ⟨[], .illegal, 0, rfl, nofun, nofun, nofun⟩
    · refine ⟨rs ++ [_], .ok, 0, by simp, List.forall_mem_append.mpr
        ⟨fun e he => ?_, List.forall_mem_singleton.mpr (.move dist maxRate)⟩, nofun, nofun⟩
      obtain ⟨k, v, rfl⟩ := hrs e he
      exact .cfgRd k v
  | setmode axis half => exact ⟨[], .ok, 0, h, nofun, nofun, nofun⟩
  | poll =>
    obtain ⟨ps, hps, rfl⟩ := h
    refine ⟨[.engReq .engPoll, sampled s .kill, sampled s .intKill] ++ ps ++
      [sampled s .resume, sampled s .hold, sampled s .holdResume], .ok, 0, by simp, ?_, nofun, nofun⟩
    simp only [List.forall_mem_append, List.forall_mem_cons, List.not_mem_nil, false_implies, implies_true,
      and_true]
    exact ⟨⟨⟨.request _ rfl, .sampled _, .sampled _⟩, hps.pinsOnly.entries _ s⟩, .sampled _, .sampled _, .sampled _⟩
  | iskilled =>
    obtain ⟨ps, d, hps, rfl⟩ := h
    refine ⟨[sampled s .kill, sampled s .intKill] ++ ps, .ok, d, rfl, ?_, nofun, nofun⟩
    simp only [List.forall_mem_append, List.forall_mem_cons, List.not_mem_nil, false_implies, implies_true,
      and_true]
    exact ⟨⟨.sampled _, .sampled _⟩, hps.pinsOnly.entries _ s⟩
  | event etype info =>
    obtain ⟨ps, hps, rfl⟩ := h
    refine ⟨[sampled s .kill, sampled s .intKill] ++ ps ++ [.engReq (.eventDefault etype info)], .ok, 0, by simp, ?_,
      nofun, nofun⟩
    simp only [List.forall_mem_append, List.forall_mem_cons, List.not_mem_nil, false_implies, implies_true,
      and_true]
    exact ⟨⟨⟨.sampled _, .sampled _⟩, hps.pinsOnly.entries _ s⟩, .request _ rfl⟩
  | toolwr tool levelReq =>
    obtain ⟨ps, hps, rfl⟩ | rfl := h
    · exact ⟨ps, .ok, 0, rfl, hps.entries _ s, nofun, nofun⟩
    · exact ⟨[.engReq (.toolWrGeneric tool levelReq)], .fallthrough, 0, rfl,
        List.forall_mem_singleton.mpr (.request _ rfl), nofun, nofun⟩

/-- A command other than GOREF and TOOLRD adds entries of the kinds above and then responds. -/
theorem responds_of_exec {i : Instr} {s t : State} (h : exec i s = .next t) (hgoref : ∀ axis toMin, i ≠ .goref axis toMin)
    (htoolrd : ∀ tool, i ≠ .toolrd tool) : ∃ body, (∀ e ∈ body, Entry i s e) ∧ Responds i s t body := by
  obtain ⟨es, htrace, hadds⟩ := exec_adds i s t h
  obtain ⟨body, st, data, rfl, hbody, hfail, hnot⟩ := response_of_adds hadds hgoref htoolrd
  have hframe := exec_frame h
  exact ⟨body, hbody, st, data, by rw [htrace, List.append_assoc], hfail, hnot, hframe.homing hgoref,
    fun hcall => (hframe.call htoolrd).1.trans hcall⟩

/-- Every command adds entries of the kinds above and then responds, or it is one of the two that end unanswered. -/
theorem exec_trace {i : Instr} {s t : State} (h : exec i s = .next t) :
    ∃ body, (∀ e ∈ body, Entry i s e) ∧ (Responds i s t body ∨ t.trace = s.trace ++ body ∧ Unanswered i s t) := by
  cases runs_of_exec h with
  | gorefRefused => exact ⟨[], nofun, .inl ⟨.illegal, 0, by simp, nofun, nofun, rfl, id⟩⟩
  | goref axis toMin _ hidle =>
    exact ⟨[_], List.forall_mem_singleton.mpr (.home axis toMin rfl), .inr ⟨rfl, .inl ⟨axis, toMin, rfl, hidle, rfl⟩⟩⟩
  | toolrdProbe =>
    exact ⟨[_], List.forall_mem_singleton.mpr (.sampled .probe), .inl ⟨.ok, _, by simp; rfl, nofun, nofun, rfl, id⟩⟩
  | toolrdRegister => exact ⟨[], nofun, .inl ⟨.ok, _, by simp; rfl, nofun, nofun, rfl, id⟩⟩
  | toolrdAnswered tool a =>
    refine ⟨[.engReq (.toolRdGeneric tool), .engRsp .toolRdGeneric a.ok a.data], ?_,
      .inl ⟨.fallthrough, a.data, by simp, nofun, nofun, rfl, fun _ => rfl⟩⟩
    exact List.forall_mem_cons.mpr ⟨.request _ rfl, List.forall_mem_singleton.mpr (.answer a.ok a.data)⟩
  | toolrdWaits tool _ hans =>
    exact ⟨[_], List.forall_mem_singleton.mpr (.request _ rfl), .inr ⟨rfl, .inr ⟨tool, rfl, hans, rfl⟩⟩⟩
  | _ =>
    obtain ⟨body, hbody, hresponds⟩ := responds_of_exec h nofun nofun
    exact ⟨body, hbody, .inl hresponds⟩

/-- Every new entry of a command is of one of the kinds, or its response. -/
theorem exec_entries {i : Instr} {s t : State} {es : List Event} (h : exec i s = .next t) (hes : t.trace = s.trace ++ es) :
    ∀ e ∈ es, Entry i s e ∨ ∃ st data, e = reply s st data := by
  obtain ⟨body, hbody, ⟨st, data, htrace, -⟩ | ⟨htrace, -⟩⟩ := exec_trace h
  · obtain rfl : es = body ++ [reply s st data] := by
      rw [htrace, List.append_assoc] at hes; exact (List.append_cancel_left hes).symm
    exact List.forall_mem_append.mpr ⟨fun e he => .inl (hbody e he), List.forall_mem_singleton.mpr (.inr ⟨st, data, rfl⟩)⟩
  · obtain rfl : es = body := (List.append_cancel_left (htrace.symm.trans hes)).symm
    exact fun e he => .inl (hbody e he)

/-! ### Responses -/

/-- The parts of an emission (R142). -/
theorem mem_emission {b : Byte} {e : Event} (h : e ∈ emission b) :
    e = .portWr b ∨ e = .strobe false ∨ e = .strobe true ∨ e = .latch b := by
  simpa [emission] using h

/-- No entry before the response is a response. -/
theorem Entry.isResponse_eq_false {i : Instr} {s : State} {e : Event} (h : Entry i s e) : e.isResponse = false := by
  cases h with
  | emission b _ he => obtain rfl | rfl | rfl | rfl := mem_emission he <;> rfl
  | _ => rfl

/-- A list of entries holds no response. -/
theorem countP_isResponse {i : Instr} {s : State} {body : List Event} (h : ∀ e ∈ body, Entry i s e) :
    body.countP Event.isResponse = 0 :=
  List.countP_eq_zero.mpr fun e he => by rw [(h e he).isResponse_eq_false]; exact Bool.false_ne_true

/-- Settles O15: the entries of a command hold no response but the last, if it ends with one. -/
theorem commandGivesOneResponseOnItsPort : Obligations.CommandGivesOneResponseOnItsPort := by
  intro i s
  obtain ⟨t, ht⟩ := exec_next i s
  obtain ⟨body, hbody, hend⟩ := exec_trace ht
  refine ⟨t, body, ht, ?_⟩
  obtain ⟨st, data, htrace, hfail, -, hhoming, hcall⟩ | ⟨htrace, hun⟩ := hend
  · exact .inr ⟨st, data, htrace, countP_isResponse hbody, hfail, hcall, hhoming⟩
  · exact .inl ⟨htrace, countP_isResponse hbody, hun⟩

/-! ### The fault -/

/-- A command records no fault, or it is an emission on released lines and does nothing else (R254). -/
theorem exec_faults {i : Instr} {s t : State} (h : exec i s = .next t) :
    t.faults = s.faults ∨ (i.WantsEmission s.cfg.naxis ∧ s.claimed = false ∧ t = raiseNotClaimed s) := by
  cases runs_of_exec h with
  | stepFault count _ hrel hcount => exact .inr ⟨(anyCount_iff ..).mp hcount, hrel, rfl⟩
  | setlevelFault axis _ haxis hrel => exact .inr ⟨⟨rfl, haxis⟩, hrel, rfl⟩
  | supinit => left; simp [supervisorRunning]
  | poll => left; simp [pollSampled]
  | setlevelForced => left; simp [State.setLevel]
  | init | step | iskilled | event => left; simp
  | _ => exact .inl rfl

/-- An emission asked for on released lines raises the fault (R254). -/
theorem exec_of_wantsEmission {i : Instr} {s : State} (h : i.WantsEmission s.cfg.naxis) (hrel : s.claimed = false) :
    exec i s = .next (raiseNotClaimed s) := by
  cases i with
  | step count dirMask => exact exec_step_of_fault dirMask hrel ((anyCount_iff ..).mpr h)
  | setlevel axis levelReq force =>
    obtain ⟨rfl, haxis⟩ := h
    exact exec_setlevel_of_fault levelReq haxis hrel
  | _ => exact h.elim

/-- Settles O25: an emission asked for on released lines is the fault, and no other response is NOTCLAIMED. -/
theorem notClaimedIsRaisedExactlyForEmissions : Obligations.NotClaimedIsRaisedExactlyForEmissions := by
  intro i s wantsEmission
  have hwants : wantsEmission ↔ i.WantsEmission s.cfg.naxis := by cases i <;> rfl
  rw [hwants]
  refine ⟨fun ⟨hw, hrel⟩ => exec_of_wantsEmission hw hrel, fun hnot => ?_⟩
  obtain ⟨t, ht⟩ := exec_next i s
  have hfaults : t.faults = s.faults := (exec_faults ht).resolve_right fun ⟨hw, hrel, _⟩ => hnot ⟨hw, hrel⟩
  obtain ⟨body, hbody, ⟨st, data, htrace, -, hst, -⟩ | ⟨htrace, -⟩⟩ := exec_trace ht
  · refine ⟨t, body ++ [reply s st data], ht, hfaults, by rw [htrace, List.append_assoc], fun p d x hmem => ?_⟩
    obtain hmem | hmem := List.mem_append.mp hmem
    · cases (hbody _ hmem).isResponse_eq_false
    · cases List.mem_singleton.mp hmem
      exact hnot (hst rfl)
  · refine ⟨t, body, ht, hfaults, htrace, fun p d x hmem => ?_⟩
    cases (hbody _ hmem).isResponse_eq_false

/-! ### The port -/

/-- `PORT` changes only by an emission, on claimed lines (R62, R142). -/
theorem exec_outPort {i : Instr} {s t : State} (h : exec i s = .next t) (hne : t.outPort ≠ s.outPort) :
    s.claimed = true ∧ i.CanEmit := by
  cases runs_of_exec h with
  | setlevelForced axis levelReq _ hclaimed => exact ⟨hclaimed, .inr ⟨axis, levelReq, rfl⟩⟩
  | step count dirMask hok =>
    refine ⟨?_, .inl ⟨count, dirMask, rfl⟩⟩
    cases hclaimed : s.claimed with
    | true => rfl
    | false =>
      have hnone : anyCount s.cfg.naxis count = false := Bool.eq_false_of_not_eq_true fun hany => hok ⟨hclaimed, hany⟩
      exact absurd (by rw [log_outPort, stepAxes_of_not_moves count dirMask s hnone]) hne
  | init => exact absurd (initSequencer_outPort s) hne
  | supinit => exact absurd (initSequencer_outPort (s.log _)) hne
  | shutdown | stepFault | setlevelOut | setlevelFault | setlevelQuiet | setmodeOut | setmode => exact absurd rfl hne
  | _ =>
    obtain ⟨-, -, -, hport, -⟩ := (exec_frame h).sequencer rfl
    exact absurd hport hne

/-- A PORTWR entry is a part of an emission. -/
theorem Entry.of_portWr {i : Instr} {s : State} {b : Byte} (h : Entry i s (.portWr b)) : s.claimed = true ∧ i.CanEmit := by
  generalize he : Event.portWr b = e at h
  cases h with
  | emission _ _ _ hclaimed hemit => exact ⟨hclaimed, hemit⟩
  | _ => cases he

/-- Settles O43: a PORTWR entry and a change of `PORT` both come from an emission. -/
theorem onlyEmissionsWriteThePort : Obligations.OnlyEmissionsWriteThePort := by
  intro i s t h
  obtain ⟨es, htrace, -⟩ := exec_adds i s t h
  refine ⟨es, htrace, fun hport => ?_⟩
  obtain ⟨b, hb⟩ | hne := hport
  · obtain he | ⟨st, data, he⟩ := exec_entries h htrace _ hb
    · exact he.of_portWr
    · cases he
  · exact exec_outPort h hne

/-! ### Samples -/

/-- A sample entry of a command shows the level of its pin. -/
theorem Entry.level_of_sample {i : Instr} {s : State} {p : InPin} {v : Bool} (h : Entry i s (.sample p v)) :
    v = s.ext.pins.level p := by
  generalize he : Event.sample p v = e at h
  cases h with
  | sampled q => cases he; rfl
  | emission b _ hmem => obtain rfl | rfl | rfl | rfl := mem_emission hmem <;> cases he
  | _ => cases he

/-- Entries that are no samples of a pin count nothing. -/
theorem countP_isSampleOf_of_forall {p : InPin} {es : List Event} (h : ∀ e ∈ es, e.isSampleOf p = false) :
    es.countP (Event.isSampleOf p) = 0 :=
  List.countP_eq_zero.mpr fun e he => by rw [h e he]; exact Bool.false_ne_true

/-- Tool pins are no samples. -/
theorem PinsOnly.countP_isSampleOf {ps : List Event} (h : PinsOnly ps) (p : InPin) :
    ps.countP (Event.isSampleOf p) = 0 :=
  countP_isSampleOf_of_forall fun e he => by obtain ⟨q, v, rfl⟩ := h e he; rfl

/-- The entries of each command hold at most one sample of each pin. -/
theorem countP_isSampleOf_of_adds {i : Instr} {s t : State} {es : List Event} (h : Adds i s t es) (p : InPin) :
    es.countP (Event.isSampleOf p) ≤ 1 := by
  cases i with
  | init => obtain ⟨sp, rfl, rfl | ⟨b, rfl, -⟩⟩ := h <;> simp [Event.isSampleOf, reply]
  | supinit => obtain ⟨sp, rfl, rfl | ⟨b, rfl, -⟩⟩ := h <;> simp [Event.isSampleOf, reply]
  | shutdown | setmode => cases h; simp [Event.isSampleOf, reply]
  | getlevel => obtain ⟨d, rfl⟩ := h; simp [Event.isSampleOf, reply]
  | step =>
    obtain ⟨rfl, -⟩ | ⟨bs, rfl, -⟩ := h
    · simp [Event.isSampleOf, reply]
    · have hemit : (bs.flatMap emission).countP (Event.isSampleOf p) = 0 := by
        refine countP_isSampleOf_of_forall fun e he => ?_
        obtain ⟨b, -, hb⟩ := List.mem_flatMap.mp he
        obtain rfl | rfl | rfl | rfl := mem_emission hb <;> rfl
      rw [List.countP_append, hemit]; simp [Event.isSampleOf, reply]
  | setlevel => obtain ⟨rfl, -⟩ | rfl | ⟨b, -, -, -, rfl⟩ := h <;> simp [Event.isSampleOf, reply, emission]
  | moveaway =>
    obtain rfl | ⟨rs, hrs, rfl⟩ := h
    · simp [Event.isSampleOf, reply]
    · have hreads : rs.countP (Event.isSampleOf p) = 0 :=
        countP_isSampleOf_of_forall fun e he => by obtain ⟨k, v, rfl⟩ := hrs e he; rfl
      rw [List.countP_append, hreads]; simp [Event.isSampleOf, reply]
  | toolwr =>
    obtain ⟨ps, hps, rfl⟩ | rfl := h
    · rw [List.countP_append, hps.countP_isSampleOf]; simp [Event.isSampleOf, reply]
    · simp [Event.isSampleOf, reply]
  | goref => obtain rfl | ⟨rfl, -⟩ := h <;> simp [Event.isSampleOf, reply]
  | isref => obtain ⟨d, rfl⟩ := h; cases p <;> simp [Event.isSampleOf, reply, sampled]
  | toolrd =>
    obtain ⟨d, rfl⟩ | ⟨d, rfl⟩ | ⟨a, rfl⟩ | ⟨rfl, -⟩ := h <;> cases p <;> simp [Event.isSampleOf, reply, sampled]
  | poll =>
    obtain ⟨ps, hps, rfl⟩ := h
    simp only [List.countP_append, hps.pinsOnly.countP_isSampleOf]
    cases p <;> simp [Event.isSampleOf, reply, sampled]
  | iskilled =>
    obtain ⟨ps, d, hps, rfl⟩ := h
    simp only [List.countP_append, hps.pinsOnly.countP_isSampleOf]
    cases p <;> simp [Event.isSampleOf, reply, sampled]
  | event =>
    obtain ⟨ps, hps, rfl⟩ := h
    simp only [List.countP_append, hps.pinsOnly.countP_isSampleOf]
    cases p <;> simp [Event.isSampleOf, reply, sampled]

/-- Settles O16: the samples of each command are written out in its rule, each of a different pin and at its level. -/
theorem eachPinIsSampledAtMostOnce : Obligations.EachPinIsSampledAtMostOnce := by
  intro i s t h
  obtain ⟨es, htrace, hadds⟩ := exec_adds i s t h
  refine ⟨es, htrace, fun p => ⟨countP_isSampleOf_of_adds hadds p, fun v hv => ?_⟩⟩
  obtain he | ⟨st, data, he⟩ := exec_entries h htrace _ hv
  · exact he.level_of_sample
  · cases he

end Sys2Proof.Machine
end

section
/-! PROOFS. Statements on one step (20_memory.md R72, 30_encoding.md R90, 60_exceptions.md R270, 70_reset_and_hazards.md R281):
which work a step does, what it takes off a port, and the reset. -/

namespace Sys2Proof.Machine

/-! ### Accepting a record -/

/-- When a port is ready (R90; log 22). -/
theorem cmdReady_iff (s : State) (p : CmdPort) :
    s.cmdReady p = true ↔
      s.ext.rst = false ∧ s.call = none ∧ s.ext.reports = [] ∧ (p = .M → s.ext.portI = []) := by
  cases p <;> simp [State.cmdReady, State.cmdValid, State.offered, and_assoc]

/-- A port that is ready and offers a record is the one whose record is accepted. -/
theorem nextWork_of_ready {s : State} {p : CmdPort} {r : Record} {rest : List Record} (hready : s.cmdReady p = true)
    (hoffer : s.offered p = r :: rest) : nextWork s = .command p r rest := by
  obtain ⟨hrst, hcall, hrep, hI⟩ := (cmdReady_iff s p).mp hready
  cases p with
  | I =>
    have hoffer' : s.ext.portI = r :: rest := hoffer
    simp [nextWork, hrst, hcall, hrep, hoffer']
  | M =>
    have hoffer' : s.ext.portM = r :: rest := hoffer
    simp [nextWork, hrst, hcall, hrep, hI rfl, hoffer']

/-- The step of a port that is ready and offers a record: the record is taken off and run, then the outside moves on. -/
theorem step_of_ready {s : State} {p : CmdPort} {r : Record} {rest : List Record} (hready : s.cmdReady p = true)
    (hoffer : s.offered p = r :: rest) : step s = thenArrive (runRecord r (accept p rest s)) := by
  rw [step, stepOnce, nextWork_of_ready hready hoffer]; rfl

/-- Settles O11: the record is accepted on its port and decodes to the command that runs. -/
theorem stepRunsTheDecodedCommand : Obligations.StepRunsTheDecodedCommand := by
  intro s r rest i hdec hrst hcall hrep
  refine ⟨fun hI => ?_, fun hI hM => ?_⟩
  · rw [step_of_ready (p := .I) ((cmdReady_iff ..).mpr ⟨hrst, hcall, hrep, nofun⟩) hI, runRecord, hdec]; rfl
  · rw [step_of_ready (p := .M) ((cmdReady_iff ..).mpr ⟨hrst, hcall, hrep, fun _ => hI⟩) hM, runRecord, hdec]; rfl

/-- The opcode field is the top digit of the first word. -/
theorem toNat_opcodeField (w0 : Word) : (opcodeField w0).toNat = w0.toNat / 2 ^ 28 := by
  have hlt := w0.isLt
  simp only [opcodeField, BitVec.extractLsb'_toNat, Nat.shiftRight_eq_div_pow]
  omega

/-- Why a record spells nothing, by its opcode field (R105, R106). -/
theorem reject_cases {r : Record} {why : DecodeReject} (h : decodeRecord r = .error why) :
    (r.w0.toNat / 2 ^ 28 = 0 ∧ why = .reservedOpcode) ∨
      (r.w0.toNat / 2 ^ 28 ≠ 0 ∧ ∃ op, why = .reservedBits op ∧ op.toNat = r.w0.toNat / 2 ^ 28) := by
  have hwhy : (if opcodeField r.w0 = 0 then DecodeReject.reservedOpcode else .reservedBits (opcodeField r.w0)) = why := by
    unfold decodeRecord at h
    split at h
    · cases h
    · exact Except.error.inj h
  rw [← toNat_opcodeField]
  split_ifs at hwhy with h0
  · exact .inl ⟨by rw [h0]; rfl, hwhy.symm⟩
  · exact .inr ⟨fun hz => h0 (BitVec.eq_of_toNat_eq hz), _, hwhy.symm, rfl⟩

/-- Settles O10: the record is accepted on its port, decodes to nothing and is refused. -/
theorem recordThatSpellsNothingIsAnsweredIllegal : Obligations.RecordThatSpellsNothingIsAnsweredIllegal := by
  intro s r rest why hdec hrst hcall hrep
  refine ⟨fun hI => ?_, fun hI hM => ?_, reject_cases hdec⟩
  · rw [step_of_ready (p := .I) ((cmdReady_iff ..).mpr ⟨hrst, hcall, hrep, nofun⟩) hI, runRecord, hdec]; rfl
  · rw [step_of_ready (p := .M) ((cmdReady_iff ..).mpr ⟨hrst, hcall, hrep, fun _ => hI⟩) hM, runRecord, hdec]; rfl

/-! ### What a step takes off a port -/

/-- A step is one piece of work, then the outside's turn. -/
theorem runWork_of_step {s t : State} (h : step s = .next t) : ∃ u, runWork s (nextWork s) = .next u ∧ t = arrive u := by
  rw [step, stepOnce] at h
  cases hw : runWork s (nextWork s) with
  | next u => rw [hw] at h; exact ⟨u, rfl, (Host.Outcome.next.inj h).symm⟩
  | fault f => rw [hw] at h; cases h
  | refused f => rw [hw] at h; cases h

/-- An accepted record takes nothing more off the ports. -/
theorem runRecord_offers {r : Record} {s u : State} (h : runRecord r s = .next u) (p : CmdPort) :
    u.offered p = s.offered p := by
  have hext : u.ext = { s.ext with answers := u.ext.answers } := by
    rw [runRecord] at h
    cases hd : decodeRecord r with
    | ok i => rw [hd] at h; exact (exec_frame h).offers
    | error why => rw [hd] at h; cases h; rfl
  cases p <;> simp only [State.offered] <;> rw [hext]

/-- Handling a report writes the homing record and the trace only (R243): the record keeps its axis, and an idle one stays
idle. -/
theorem homeDone_eq (ok : Bool) (s : State) :
    ∃ h tr, homeDone ok s = { s with homing := h, trace := tr } ∧ h.axis = s.homing.axis ∧
      (h.pass ≠ .idle → s.homing.pass ≠ .idle) := by
  cases hp : s.homing.pass with
  | idle => exact ⟨s.homing, _, homeDone_of_idle ok hp, rfl, fun h => absurd hp h⟩
  | slow => exact ⟨_, _, homeDone_of_slow ok hp, rfl, nofun⟩
  | fast =>
    cases ok with
    | true => exact ⟨_, _, homeDone_true_of_fast hp, rfl, nofun⟩
    | false => exact ⟨_, _, homeDone_false_of_fast hp, rfl, nofun⟩

/-- A piece of work takes a record off a port only if it accepts it there. -/
theorem runWork_offered {s u : State} {w : Work} (h : runWork s w = .next u) (p : CmdPort)
    (hw : ∀ r rest, w ≠ .command p r rest) : u.offered p = s.offered p := by
  cases w with
  | reset | answer | waiting | idle => cases h; cases p <;> rfl
  | report ok rest =>
    cases h
    obtain ⟨_, _, heq, -⟩ := homeDone_eq ok { s with ext := { s.ext with reports := rest } }
    rw [heq]
    cases p <;> rfl
  | command q r rest =>
    rw [runRecord_offers h p]
    cases q <;> cases p
    · exact absurd rfl (hw r rest)
    · rfl
    · rfl
    · exact absurd rfl (hw r rest)

/-- The outside only adds to what a port offers. -/
theorem arrive_offered (s : State) (p : CmdPort) : ∃ more, (arrive s).offered p = s.offered p ++ more := by
  unfold arrive
  cases s.ext.script with
  | nil => exact ⟨[], (List.append_nil _).symm⟩
  | cons m rest =>
    cases p with
    | M => exact ⟨m.portM, rfl⟩
    | I => exact ⟨m.portI, rfl⟩

/-- A record is accepted only on a port that is ready and offers it. -/
theorem ready_of_nextWork {s : State} {p : CmdPort} {r : Record} {rest : List Record}
    (h : nextWork s = .command p r rest) : (s.cmdReady p && s.cmdValid p) = true := by
  obtain ⟨-, hw⟩ | ⟨hrst, ⟨_, _, _, -, -, hw⟩ | ⟨_, -, -, hw⟩ | ⟨_, _, -, -, hw⟩ | ⟨r', rest', hcall, hrep, hI, hw⟩ |
    ⟨r', rest', hcall, hrep, hI, hM, hw⟩ | ⟨-, -, -, -, hw⟩⟩ := nextWork_cases s <;> cases hw.symm.trans h
  · rw [Bool.and_eq_true, cmdReady_iff]
    exact ⟨⟨hrst, hcall, hrep, nofun⟩, by simp [State.cmdValid, State.offered, hI]⟩
  · rw [Bool.and_eq_true, cmdReady_iff]
    exact ⟨⟨hrst, hcall, hrep, fun _ => hI⟩, by simp [State.cmdValid, State.offered, hM]⟩

/-- Settles O54: a port that is ready and valid is served; work of any other kind takes nothing off it; the rest is what ready
says. -/
theorem acceptedExactlyWhereValidAndReady : Obligations.AcceptedExactlyWhereValidAndReady := by
  intro s p
  refine ⟨fun r rest hready hoffer => step_of_ready hready hoffer, fun hnot t ht => ?_, ?_, fun h => ?_,
    fun hcall hrst hrep => ⟨?_, fun hI => ?_⟩⟩
  · obtain ⟨u, hu, rfl⟩ := runWork_of_step ht
    have hkept : u.offered p = s.offered p := runWork_offered hu p fun r rest hw => by
      rw [ready_of_nextWork hw] at hnot; cases hnot
    rw [← hkept]
    exact arrive_offered u p
  · cases hI : s.cmdValid .I <;> simp [State.cmdReady, hI]
  · rw [← Bool.not_eq_true, cmdReady_iff]
    rintro ⟨hrst, hcall, -, -⟩
    obtain h | h := h
    · exact h hcall
    · rw [hrst] at h; cases h
  · exact (cmdReady_iff s .I).mpr ⟨hrst, hcall, hrep, nofun⟩
  · exact (cmdReady_iff s .M).mpr ⟨hrst, hcall, hrep, fun _ => hI⟩

/-! ### Waiting -/

/-- Settles O13: the work of each case, by the choice of work. -/
theorem waitingCallOrIdleBlockAcceptsNothing : Obligations.WaitingCallOrIdleBlockAcceptsNothing := by
  intro s hrst
  refine ⟨fun c a rest hcall hans => ?_, fun c hcall hans => ?_, fun hcall hrep hI hM => ?_⟩
  · have hw : nextWork s = .answer c a rest := by simp [nextWork, hrst, hcall, hans]
    rw [step, stepOnce, hw]; rfl
  · have hw : nextWork s = .waiting := by simp [nextWork, hrst, hcall, hans]
    rw [step, stepOnce, hw]; rfl
  · have hw : nextWork s = .idle := by simp [nextWork, hrst, hcall, hrep, hI, hM]
    rw [step, stepOnce, hw]; rfl

/-- The outside holds no reset and no answer, now or later. -/
def Ext.Silent (e : Ext) : Prop := e.rst = false ∧ e.answers = [] ∧ ∀ m ∈ e.script, m.rst = false ∧ m.answers = []

/-- An outside that is silent for ever is so after its turn. -/
theorem arrive_silent {s : State} (h : s.ext.Silent) : (arrive s).ext.Silent := by
  obtain ⟨hrst, hans, hscript⟩ := id h
  unfold arrive
  cases hs : s.ext.script with
  | nil => exact h
  | cons m rest =>
    rw [hs] at hscript
    obtain ⟨hm, hrest⟩ := List.forall_mem_cons.mp hscript
    exact ⟨hm.1, by simp only [hans, hm.2, List.append_nil], hrest⟩

/-- A run whose first step answers a next state goes on from there. -/
theorem run_succ_of_next {M : Host.Core} {s t : M.State} (k : Nat) (h : M.step s = .next t) : M.run (k + 1) s = M.run k t := by
  simp only [Host.Core.run, h]

/-- Settles O14, by induction on the number of steps: each is only the outside's turn, and the outside stays silent. -/
theorem unansweredCallBlocksForEver : Obligations.UnansweredCallBlocksForEver := by
  intro k s c hcall hrst hans hscript
  have hsilent : s.ext.Silent := ⟨hrst, hans, hscript⟩
  clear hrst hans hscript
  induction k generalizing s with
  | zero => exact ⟨s.ext, rfl⟩
  | succ k ih =>
    have hstep : core.step s = .next (arrive s) :=
      (waitingCallOrIdleBlockAcceptsNothing s hsilent.1).2.1 c hcall hsilent.2.1
    obtain ⟨ext', hrun⟩ := ih (arrive s) ((arrive_call s).trans hcall) (arrive_silent hsilent)
    obtain ⟨e, he⟩ := arrive_eq s
    exact ⟨ext', (run_succ_of_next k hstep).trans (hrun.trans (by rw [he]))⟩

/-! ### Reset -/

/-- The trace entries of a reset: the lines released, the tool pins going off (R281; log 9). -/
def resetEntries (s : State) : List Event :=
  (if s.claimed then [.oe false] else []) ++ toolPinChanges s.tools ⟨0, false, 0, 0⟩

/-- An entry of a reset is the release of the lines or a tool pin going off. -/
theorem mem_resetEntries {s : State} {e : Event} (h : e ∈ resetEntries s) : e = .oe false ∨ ∃ p, e = .toolPin p 0 := by
  obtain h | h := List.mem_append.mp h
  · split_ifs at h
    · exact .inl (List.mem_singleton.mp h)
    · exact absurd h List.not_mem_nil
  · obtain ⟨p, rfl⟩ := mem_toolPinChanges h
    exact .inr ⟨p, by rw [pin_of_zero]⟩

/-- A reset during a run is the state after reset with a free `PORT`; trace and faults go on (R43; log 9). -/
theorem hardwareReset_eq (s : State) :
    hardwareReset s = { State.resetOf s.cfg (Config.freeByte s.freeIx) s.ext with
      trace := s.trace ++ resetEntries s, faults := s.faults, freeIx := s.freeIx + 1 } := by
  rw [resetEntries, ← List.append_assoc]; rfl

/-- Settles O5: with reset asserted the step is the reset and nothing else. -/
theorem hardwareResetRestoresTheResetState : Obligations.HardwareResetRestoresTheResetState := by
  intro s hrst
  have hw : nextWork s = .reset := by simp [nextWork, hrst]
  refine ⟨Config.freeByte s.freeIx, resetEntries s, ?_, fun e he => mem_resetEntries he⟩
  rw [← hardwareReset_eq, step, stepOnce, hw]; rfl

end Sys2Proof.Machine
end

section
/-! PROOFS. What every step keeps (10_state.md, 41_sequencer_step.md R147, 43_sequencer_reference.md R181,
46_supervisor_homing.md R244): the invariant of the block, register group by register group, and the claims about the trace,
by the entries a step can add. -/

namespace Sys2Proof.Machine

/-! ### The sequencer's part of the invariant -/

/-- The part of the invariant about the sequencer's registers and the chip. -/
structure SequencerInv (s : State) : Prop where
  valid : s.cfg.valid = true
  axesLength : s.axes.length = s.cfg.naxis
  chipLength : s.chip.length = s.cfg.naxis
  strobeHigh : s.strobe = true
  idleLow : s.idle = .low
  levels : ∀ a < s.cfg.naxis, s.level a ∈ s.cfg.levels
  chipAddr : ∀ a < s.cfg.naxis, ∀ b ∈ s.chip.getD a none, b &&& s.cfg.addrField = s.cfg.addr a

/-- The part depends on the sequencer's registers, the chip and the parameters only. -/
theorem SequencerInv.congr {s t : State} (h : SequencerInv s) (hcfg : t.cfg = s.cfg) (haxes : t.axes = s.axes)
    (hidle : t.idle = s.idle) (hstrobe : t.strobe = s.strobe) (hchip : t.chip = s.chip) : SequencerInv t := by
  constructor
  · rw [hcfg]; exact h.valid
  · rw [hcfg, haxes]; exact h.axesLength
  · rw [hcfg, hchip]; exact h.chipLength
  · rw [hstrobe]; exact h.strobeHigh
  · rw [hidle]; exact h.idleLow
  · simp only [State.level, State.axisRegs, hcfg, haxes]; exact h.levels
  · rw [hcfg, hchip]; exact h.chipAddr

/-- Writing an axis keeps the part if the new level is one the build has. -/
theorem SequencerInv.setAxis {s : State} (h : SequencerInv s) (a : Nat) {r : AxisRegs} (hr : r.level ∈ s.cfg.levels) :
    SequencerInv (s.setAxis a r) := by
  constructor
  · exact h.valid
  · rw [setAxis_axes_length]; exact h.axesLength
  · exact h.chipLength
  · exact h.strobeHigh
  · exact h.idleLow
  · intro b hb
    rw [State.level, axisRegs_setAxis]
    split_ifs
    · exact hr
    · exact h.levels b hb
  · exact h.chipAddr

/-- A latch of any byte keeps the chip's part: an axis takes only a byte with its own address bits (R41). -/
theorem SequencerInv.latch {s : State} (h : SequencerInv s) (b : Byte) :
    SequencerInv { s with chip := chipAfter s.cfg b s.chip } := by
  constructor
  · exact h.valid
  · exact h.axesLength
  · exact (chipAfter_length ..).trans h.chipLength
  · exact h.strobeHigh
  · exact h.idleLow
  · exact h.levels
  · exact fun a ha x hx => (mem_chipAfter hx).elim id (h.chipAddr a ha x)

/-- An emission keeps the part. -/
theorem SequencerInv.emit {s : State} (h : SequencerInv s) (a : Nat) : SequencerInv (emit a s) :=
  (h.latch (outByte s a)).congr (by simp) (by simp) (by simp) (by simp [h.strobeHigh]) (by simp)

/-- Writing an accumulator keeps the part. -/
theorem SequencerInv.setPhase {s : State} (h : SequencerInv s) {a : Nat} (ha : a < s.cfg.naxis) (v : BitVec 3) :
    SequencerInv (s.setPhase a v) := h.setAxis a (h.levels a ha)

/-- Writing a step mode keeps the part. -/
theorem SequencerInv.setStepMode {s : State} (h : SequencerInv s) {a : Nat} (ha : a < s.cfg.naxis) (m : StepMode) :
    SequencerInv (s.setStepMode a m) := h.setAxis a (h.levels a ha)

/-- Writing a quantised level keeps the part (R160). -/
theorem SequencerInv.setLevel {s : State} (h : SequencerInv s) (a : Nat) (levelReq : Byte) :
    SequencerInv (s.setLevel a (quantize s.cfg.reduced levelReq)) := h.setAxis a (quantize_mem_levels s.cfg levelReq)

/-- The loop of STEP keeps the part. -/
theorem SequencerInv.stepAxes {s : State} (h : SequencerInv s) (count : Vector Byte 8) (dirMask : Byte) :
    SequencerInv (stepAxes count dirMask s) := by
  have hfold : ∀ (l : List Nat) (u : State), SequencerInv u → (∀ a ∈ l, a < u.cfg.naxis) →
      SequencerInv (l.foldl (stepAxis count dirMask) u) := by
    intro l
    induction l with
    | nil => exact fun u hu _ => hu
    | cons a l ih =>
      intro u hu hl
      obtain ⟨ha, hrest⟩ := List.forall_mem_cons.mp hl
      have hcfg : (stepAxis count dirMask u a).cfg = u.cfg := by
        have h := congrArg State.cfg (stepAxis_frame count dirMask u a); exact h
      refine ih _ ?_ (by rwa [hcfg])
      rw [stepAxis]
      split_ifs
      · exact hu
      · exact (hu.setPhase ha _).emit a
  exact hfold _ s h fun a ha => List.mem_range.mp ha

/-- The initialisation keeps the part: every level is Off, and a spurious latch is a latch. -/
theorem SequencerInv.initSequencer {s : State} (h : SequencerInv s) : SequencerInv (initSequencer s) := by
  obtain ⟨b, es, heq, -⟩ := initSequencer_eq s
  have hchip : SequencerInv { s with chip := if s.cfg.initSpuriousLatch then chipAfter s.cfg b s.chip else s.chip } := by
    split_ifs
    · exact h.latch b
    · exact h
  rw [heq]
  constructor
  · exact h.valid
  · exact List.length_map _
  · exact hchip.chipLength
  · rfl
  · rfl
  · intro a _
    rw [level_initial rfl, Config.mem_levels]
    exact fun _ => nofun
  · exact hchip.chipAddr

/-- Every command keeps the sequencer's part of the invariant. -/
theorem exec_sequencerInv {i : Instr} {s t : State} (h : exec i s = .next t) (hs : SequencerInv s) : SequencerInv t := by
  cases runs_of_exec h with
  | init => exact hs.initSequencer.congr rfl rfl rfl rfl rfl
  | supinit =>
    have hlogged : SequencerInv (s.log [.engReq .cfgLoad]) := hs.congr rfl rfl rfl rfl rfl
    exact hlogged.initSequencer.congr rfl rfl rfl rfl rfl
  | step count dirMask => exact (hs.stepAxes count dirMask).congr rfl rfl rfl rfl rfl
  | setlevelQuiet axis levelReq => exact (hs.setLevel axis.toNat levelReq).congr rfl rfl rfl rfl rfl
  | setlevelForced axis levelReq => exact ((hs.setLevel axis.toNat levelReq).emit axis.toNat).congr rfl rfl rfl rfl rfl
  | setmode axis half haxis => exact (hs.setStepMode haxis _).congr rfl rfl rfl rfl rfl
  | shutdown | stepFault | setlevelOut | setlevelFault | setmodeOut => exact hs.congr rfl rfl rfl rfl rfl
  | _ =>
    obtain ⟨haxes, hidle, -, -, hstrobe, hchip⟩ := (exec_frame h).sequencer rfl
    exact hs.congr (exec_frame h).cfg haxes hidle hstrobe hchip

/-! ### The invariant -/

/-- The invariant, by its parts: the sequencer, the diagnostics, the homing record, the waiting call. -/
theorem blockInv_iff (s : State) :
    BlockInv s ↔ SequencerInv s ∧ KillShown s ∧ HoldShown s ∧
      (s.homing.pass ≠ .idle → s.homing.axis.toNat < s.cfg.naxis) ∧ ∀ c ∈ s.call, Tool.ofCode c.tool = none := by
  constructor
  · intro h
    exact ⟨⟨h.valid, h.axesLength, h.chipLength, h.strobeHigh, h.idleLow, fun a ha => h.level_mem_levels ha, h.chipAddr⟩,
      h.killShown, h.holdShown, h.homingAxis, h.callTool⟩
  · rintro ⟨hs, hkill, hhold, hhoming, hcall⟩
    exact ⟨hs.valid, hs.axesLength, hs.chipLength, hs.strobeHigh, hs.idleLow, hkill, hhold,
      fun hr a ha => (Config.mem_levels _ _).mp (hs.levels a ha) hr, hhoming, hs.chipAddr, hcall⟩

/-- Inputs, trace, recorded faults, tools, the lines and the model's own fields are no part of the invariant. -/
theorem BlockInv.of_other {s : State} (h : BlockInv s) (claimed : Bool) (outPort : Byte) (tools : ToolRegs)
    (trace : List Event) (faults : List Fault) (curPort : CmdPort) (freeIx : Nat) (ext : Ext) :
    BlockInv { s with
      claimed := claimed, outPort := outPort, tools := tools, trace := trace, faults := faults, curPort := curPort,
      freeIx := freeIx, ext := ext } :=
  ⟨h.valid, h.axesLength, h.chipLength, h.strobeHigh, h.idleLow, h.killShown, h.holdShown, h.noMid, h.homingAxis,
    h.chipAddr, h.callTool⟩

/-- Only an accepted GOREF starts a sequence, and for an axis in range (R241). -/
theorem exec_homingAxis {i : Instr} {s t : State} (h : exec i s = .next t)
    (hs : s.homing.pass ≠ .idle → s.homing.axis.toNat < s.cfg.naxis) :
    t.homing.pass ≠ .idle → t.homing.axis.toNat < t.cfg.naxis := by
  cases runs_of_exec h with
  | gorefRefused => exact hs
  | goref axis toMin haxis => exact fun _ => haxis
  | _ => rw [(exec_frame h).cfg, (exec_frame h).homing nofun]; exact hs

/-- Only a TOOLRD of an unrecognised code waits (R228). -/
theorem exec_callTool {i : Instr} {s t : State} (h : exec i s = .next t)
    (hs : ∀ c ∈ s.call, Tool.ofCode c.tool = none) : ∀ c ∈ t.call, Tool.ofCode c.tool = none := by
  cases runs_of_exec h with
  | toolrdProbe | toolrdRegister => exact hs
  | toolrdAnswered => exact nofun
  | toolrdWaits tool hcode => rintro c ⟨⟩; exact hcode
  | _ => rw [((exec_frame h).call nofun).1]; exact hs

/-- Every command keeps the invariant. -/
theorem exec_blockInv {i : Instr} {s t : State} (h : exec i s = .next t) (hs : BlockInv s) : BlockInv t := by
  rw [blockInv_iff] at hs ⊢
  obtain ⟨hseq, hkill, hhold, hhoming, hcall⟩ := hs
  exact ⟨exec_sequencerInv h hseq, exec_killShown h hkill, exec_holdShown h hhold, exec_homingAxis h hhoming,
    exec_callTool h hcall⟩

/-- A report keeps the invariant: the homing record keeps its axis (R243). -/
theorem homeDone_blockInv (ok : Bool) {s : State} (hs : BlockInv s) : BlockInv (homeDone ok s) := by
  obtain ⟨h, tr, heq, haxis, hpass⟩ := homeDone_eq ok s
  rw [heq]
  exact ⟨hs.valid, hs.axesLength, hs.chipLength, hs.strobeHigh, hs.idleLow, hs.killShown, hs.holdShown, hs.noMid,
    fun hne => haxis ▸ hs.homingAxis (hpass hne), hs.chipAddr, hs.callTool⟩

/-- The end of a waiting TOOLRD keeps the invariant. -/
theorem finishCall_blockInv (port : CmdPort) (a : Answer) {s : State} (hs : BlockInv s) : BlockInv (finishCall port a s) :=
  ⟨hs.valid, hs.axesLength, hs.chipLength, hs.strobeHigh, hs.idleLow, hs.killShown, hs.holdShown, hs.noMid,
    hs.homingAxis, hs.chipAddr, nofun⟩

/-- Settles O3: at reset every level is Off, the chip's bytes are unknown, and nothing is in flight. -/
theorem resetMeetsTheInvariant : Obligations.ResetMeetsTheInvariant := by
  intro c port ext hv
  have hlevel : ∀ a, (State.resetOf c port ext).level a = .off := level_initial rfl
  refine ⟨hv, List.length_map _, List.length_map _, rfl, rfl, rfl, fun _ => rfl, fun _ a _ => ?_, fun h => absurd rfl h,
    fun a ha b hb => ?_, nofun⟩
  · rw [hlevel]; nofun
  · rw [List.getD_eq_getElem?_getD, chip_resetOf (c := c) port ext ha] at hb
    cases hb

/-- Settles O49: whatever the step did, it keeps the invariant, and the outside's turn is no part of it. -/
theorem stepKeepsTheInvariant : Obligations.StepKeepsTheInvariant := by
  intro s t hs hstep
  obtain ⟨u, rfl, hu⟩ := step_cases hstep
  have hinv : BlockInv u := by
    obtain ⟨-, rfl⟩ | rfl | ⟨c, a, rest, -, rfl⟩ | ⟨ok, rest, -, rfl⟩ | ⟨port, e, -, rfl⟩ | ⟨port, e, i, -, hexec⟩ := hu
    · rw [hardwareReset_eq]
      exact (resetMeetsTheInvariant s.cfg _ s.ext hs.valid).of_other ..
    · exact hs
    · exact finishCall_blockInv c.port a (hs.of_other ..)
    · exact homeDone_blockInv ok (hs.of_other ..)
    · exact hs.of_other ..
    · exact exec_blockInv hexec (hs.of_other s.claimed s.outPort s.tools s.trace s.faults port s.freeIx e)
  obtain ⟨e, he⟩ := arrive_eq u
  rw [he]
  exact hinv.of_other ..

/-- Settles O39: no command leaves Killed, and the kill diagnostic goes with it; an answer, a report and a refusal leave the
mode alone. -/
theorem killedIsTerminal : Obligations.KilledIsTerminal := by
  intro s t hrst hctl hkill hstep
  obtain ⟨u, rfl, hu⟩ := step_cases hstep
  rw [arrive_ctl, arrive_diagKill]
  obtain ⟨hrst', -⟩ | rfl | ⟨c, a, rest, -, rfl⟩ | ⟨ok, rest, -, rfl⟩ | ⟨port, e, -, rfl⟩ | ⟨port, e, i, -, hexec⟩ := hu
  · rw [hrst] at hrst'; cases hrst'
  · exact ⟨hctl, hkill⟩
  · exact ⟨hctl, hkill⟩
  · obtain ⟨h, tr, heq, -⟩ := homeDone_eq ok { s with ext := { s.ext with reports := rest } }
    rw [heq]; exact ⟨hctl, hkill⟩
  · exact ⟨hctl, hkill⟩
  · have hctl' : u.ctl = .killed := exec_ctl_of_killed hexec hctl
    have hshown : KillShown u := exec_killShown hexec (hkill.trans (decide_eq_true hctl).symm)
    exact ⟨hctl', hshown.trans (decide_eq_true hctl')⟩

/-! ### The entries of a step -/

/-- An entry that work other than a command adds: of a reset, an engine's answer, a report or a refusal. -/
inductive OtherEntry : Event → Prop
  | oe (on : Bool) : OtherEntry (.oe on)
  | toolPin (p : ToolPin) (v : Byte) : OtherEntry (.toolPin p v)
  | engRsp (kind : EngRspKind) (ok : Bool) (data : Word) : OtherEntry (.engRsp kind ok data)
  | rsp (port : CmdPort) (st : Status) (data : Word) (deferred : Bool) : OtherEntry (.rsp port st data deferred)
  | home (axis : Byte) (toMin : Bool) (rate : Nat) : OtherEntry (.engReq (.home axis toMin rate))

/-- The entries of a report (R243). -/
theorem homeDone_trace (ok : Bool) (s : State) :
    ∃ es, (homeDone ok s).trace = s.trace ++ es ∧ ∀ e ∈ es, OtherEntry e := by
  cases hp : s.homing.pass with
  | idle =>
    rw [homeDone_of_idle ok hp]
    exact ⟨[_], rfl, List.forall_mem_singleton.mpr (.engRsp ..)⟩
  | slow =>
    rw [homeDone_of_slow ok hp]
    exact ⟨[_] ++ [_], List.append_assoc .., List.forall_mem_append.mpr
      ⟨List.forall_mem_singleton.mpr (.engRsp ..), List.forall_mem_singleton.mpr (.rsp ..)⟩⟩
  | fast =>
    cases ok with
    | true =>
      rw [homeDone_true_of_fast hp]
      exact ⟨[_] ++ [_], List.append_assoc .., List.forall_mem_append.mpr
        ⟨List.forall_mem_singleton.mpr (.engRsp ..), List.forall_mem_singleton.mpr (.home ..)⟩⟩
    | false =>
      rw [homeDone_false_of_fast hp]
      exact ⟨[_] ++ [_], List.append_assoc .., List.forall_mem_append.mpr
        ⟨List.forall_mem_singleton.mpr (.engRsp ..), List.forall_mem_singleton.mpr (.rsp ..)⟩⟩

/-- What a step adds to the trace: entries of other work, or those of one command. -/
theorem step_trace {s t : State} (h : step s = .next t) :
    ∃ es, t.trace = s.trace ++ es ∧ ((∀ e ∈ es, OtherEntry e) ∨
      ∃ port ext i u, exec i { s with curPort := port, ext := ext } = .next u ∧ u.trace = s.trace ++ es) := by
  obtain ⟨u, rfl, hu⟩ := step_cases h
  rw [arrive_trace]
  obtain ⟨-, rfl⟩ | rfl | ⟨c, a, rest, -, rfl⟩ | ⟨ok, rest, -, rfl⟩ | ⟨port, e, -, rfl⟩ | ⟨port, e, i, -, hexec⟩ := hu
  · rw [hardwareReset_eq]
    refine ⟨resetEntries s, rfl, .inl fun e he => ?_⟩
    obtain rfl | ⟨p, rfl⟩ := mem_resetEntries he
    · exact .oe false
    · exact .toolPin p 0
  · exact ⟨[], (List.append_nil _).symm, .inl nofun⟩
  · exact ⟨[_, _], rfl, .inl (List.forall_mem_cons.mpr ⟨.engRsp .., List.forall_mem_singleton.mpr (.rsp ..)⟩)⟩
  · obtain ⟨es, hes, hother⟩ := homeDone_trace ok { s with ext := { s.ext with reports := rest } }
    exact ⟨es, hes, .inl hother⟩
  · exact ⟨[_], rfl, .inl (List.forall_mem_singleton.mpr (.rsp ..))⟩
  · obtain ⟨es, hes, -⟩ := exec_adds i _ u hexec
    exact ⟨es, hes, .inr ⟨port, e, i, u, hexec, hes⟩⟩

/-- No step changes the parameters (R42). -/
theorem step_cfg {s t : State} (h : step s = .next t) : t.cfg = s.cfg := by
  obtain ⟨u, rfl, hu⟩ := step_cases h
  rw [arrive_cfg]
  obtain ⟨-, rfl⟩ | rfl | ⟨c, a, rest, -, rfl⟩ | ⟨ok, rest, -, rfl⟩ | ⟨port, e, -, rfl⟩ | ⟨port, e, i, -, hexec⟩ := hu
  · rfl
  · rfl
  · rfl
  · obtain ⟨h, tr, heq, -⟩ := homeDone_eq ok { s with ext := { s.ext with reports := rest } }
    rw [heq]
  · rfl
  · exact (exec_frame hexec).cfg

/-- Recorded faults stay (R13). -/
theorem step_faults {s t : State} (h : step s = .next t) : ∃ fs, t.faults = s.faults ++ fs := by
  obtain ⟨u, rfl, hu⟩ := step_cases h
  rw [arrive_faults]
  obtain ⟨-, rfl⟩ | rfl | ⟨c, a, rest, -, rfl⟩ | ⟨ok, rest, -, rfl⟩ | ⟨port, e, -, rfl⟩ | ⟨port, e, i, -, hexec⟩ := hu
  · exact ⟨[], (List.append_nil _).symm⟩
  · exact ⟨[], (List.append_nil _).symm⟩
  · exact ⟨[], (List.append_nil _).symm⟩
  · obtain ⟨h, tr, heq, -⟩ := homeDone_eq ok { s with ext := { s.ext with reports := rest } }
    rw [heq]; exact ⟨[], (List.append_nil _).symm⟩
  · exact ⟨[], (List.append_nil _).symm⟩
  · obtain hsame | ⟨-, -, rfl⟩ := exec_faults hexec
    · exact ⟨[], hsame.trans (List.append_nil _).symm⟩
    · exact ⟨[.notClaimed], rfl⟩

/-- No step stops (R252, R256). -/
theorem step_next (s : State) : ∃ t, step s = .next t := by
  have hwork : ∃ u, runWork s (nextWork s) = .next u := by
    cases nextWork s with
    | reset | answer | waiting | report | idle => exact ⟨_, rfl⟩
    | command port r rest =>
      rw [runWork, runRecord]
      cases decodeRecord r with
      | ok i => exact exec_next i _
      | error why => exact ⟨_, rfl⟩
  obtain ⟨u, hu⟩ := hwork
  exact ⟨arrive u, by rw [step, stepOnce, hu]; rfl⟩

/-- Settles O51: a step answers a next state, and each part is kept by whatever work it did. -/
theorem everyStepGoesOnAndTheTraceOnlyGrows : Obligations.EveryStepGoesOnAndTheTraceOnlyGrows := by
  intro s
  obtain ⟨t, ht⟩ := step_next s
  obtain ⟨es, hes, -⟩ := step_trace ht
  obtain ⟨fs, hfs⟩ := step_faults ht
  exact ⟨t, es, fs, ht, step_cfg ht, hes, hfs⟩

/-! ### Relative moves -/

/-- The distance MOVEAWAY asks for keeps the bound (R180, R181). -/
theorem moveDistance_le (dist : Word) (s : State) (k : Nat) : moveDistance dist s k ≤ travelBound s.cfg k := by
  unfold moveDistance travelBound
  split_ifs
  · exact min_le_right ..
  · exact le_rfl

/-- A relative move among a command's entries keeps the bounds. -/
theorem Entry.move_clamped {i : Instr} {s : State} {d0 d1 d2 : Nat} {rate : Word}
    (h : Entry i s (.engReq (.moveRel3 d0 d1 d2 rate))) :
    d0 ≤ travelBound s.cfg 0 ∧ d1 ≤ travelBound s.cfg 1 ∧ d2 ≤ travelBound s.cfg 2 := by
  generalize he : Event.engReq (.moveRel3 d0 d1 d2 rate) = e at h
  cases h with
  | move dist r => cases he; exact ⟨moveDistance_le .., moveDistance_le .., moveDistance_le ..⟩
  | request r hr => cases he; cases hr
  | emission b _ hmem => obtain rfl | rfl | rfl | rfl := mem_emission hmem <;> cases he
  | _ => cases he

/-- Settles O33: an old move was clamped before, a new one is a command's. -/
theorem stepKeepsMovesClamped : Obligations.StepKeepsMovesClamped := by
  intro s t hstep hs d0 d1 d2 rate hmem
  rw [step_cfg hstep]
  obtain ⟨es, hes, hnew⟩ := step_trace hstep
  rw [hes] at hmem
  obtain hold | hmem := List.mem_append.mp hmem
  · exact hs d0 d1 d2 rate hold
  obtain hother | ⟨port, ext, i, u, hexec, htrace⟩ := hnew
  · cases hother _ hmem
  · obtain he | ⟨st, data, he⟩ := exec_entries hexec htrace _ hmem
    · exact he.move_clamped
    · cases he

/-! ### Latches -/

/-- The bytes STEP emits are legal (R147 P2). -/
theorem newByte_legal (count : Vector Byte 8) (dirMask : Byte) {s : State} (h : BlockInv s) {a : Nat} (ha : a < s.cfg.naxis) :
    LegalByte s.cfg (newByte count dirMask s a) :=
  ⟨a, ha, s.stepMode a, s.level a, h.level_mem_levels ha, newPhase count dirMask s a, rfl⟩

/-- A latch among the parts of an emission is of its byte. -/
theorem eq_of_latch_mem_emission {b c : Byte} (h : Event.latch b ∈ emission c) : b = c := by
  simpa [emission] using h

/-- A LATCH entry is a part of an emission, or the spurious latch. -/
theorem Entry.of_latch {i : Instr} {s : State} {b : Byte} (h : Entry i s (.latch b)) :
    (s.claimed = true ∧ i.CanEmit) ∨ s.cfg.initSpuriousLatch = true := by
  generalize he : Event.latch b = e at h
  cases h with
  | emission _ _ _ hclaimed hemit => exact .inl ⟨hclaimed, hemit⟩
  | spurious _ hb => exact .inr hb
  | _ => cases he

/-- The latches of STEP are of the bytes it emits. -/
theorem step_latch_legal {count : Vector Byte 8} {dirMask : Byte} {s t : State} {es : List Event}
    (h : exec (.step count dirMask) s = .next t) (hs : BlockInv s) (hclaimed : s.claimed = true)
    (hes : t.trace = s.trace ++ es) {b : Byte} (hb : Event.latch b ∈ es) : LegalByte s.cfg b := by
  cases (exec_step_of_claimed count dirMask hclaimed).symm.trans h
  obtain ⟨-, -, -, htrace, -⟩ := stepAxes_eq count dirMask s hs.axesLength
  rw [log_trace, htrace, List.append_assoc] at hes
  rw [← List.append_cancel_left hes] at hb
  obtain hb | hb := List.mem_append.mp hb
  · obtain ⟨a, ha, hb⟩ := List.mem_flatMap.mp hb
    rw [eq_of_latch_mem_emission hb]
    exact newByte_legal count dirMask hs (List.mem_range.mp (List.mem_filter.mp ha).1)
  · cases List.mem_singleton.mp hb

/-- The latch of a forced SETLEVEL is of the byte it emits, with the quantised level. -/
theorem setlevel_latch_legal {axis levelReq : Byte} {s t : State} {es : List Event}
    (h : exec (.setlevel axis levelReq true) s = .next t) (hs : BlockInv s) (hclaimed : s.claimed = true)
    (hes : t.trace = s.trace ++ es) {b : Byte} (hb : Event.latch b ∈ es) : LegalByte s.cfg b := by
  obtain haxis | haxis := Nat.lt_or_ge axis.toNat s.cfg.naxis
  · cases (exec_setlevel_forced levelReq haxis hclaimed).symm.trans h
    rw [log_trace, emit_trace, State.setLevel, setAxis_trace, List.append_assoc, ← State.setLevel,
      outByte_setLevel _ (hs.axesLength ▸ haxis)] at hes
    rw [← List.append_cancel_left hes] at hb
    obtain hb | hb := List.mem_append.mp hb
    · rw [eq_of_latch_mem_emission hb]
      exact ⟨axis.toNat, haxis, _, _, quantize_mem_levels s.cfg levelReq, _, rfl⟩
    · cases List.mem_singleton.mp hb
  · cases (exec_setlevel_of_le levelReq true haxis).symm.trans h
    rw [← List.append_cancel_left hes] at hb
    cases List.mem_singleton.mp hb

/-- Without the spurious latch, a command latches legal bytes only. -/
theorem exec_latch_legal {i : Instr} {s t : State} {es : List Event} (h : exec i s = .next t) (hs : BlockInv s)
    (hboard : s.cfg.initSpuriousLatch = false) (hes : t.trace = s.trace ++ es) {b : Byte} (hb : Event.latch b ∈ es) :
    LegalByte s.cfg b := by
  obtain he | ⟨st, data, he⟩ := exec_entries h hes _ hb
  · obtain ⟨hclaimed, ⟨count, dirMask, rfl⟩ | ⟨axis, levelReq, rfl⟩⟩ := he.of_latch.resolve_right (by simp [hboard])
    · exact step_latch_legal h hs hclaimed hes hb
    · exact setlevel_latch_legal h hs hclaimed hes hb
  · cases he

/-- Settles O50: an old latch was legal before, a new one is a command's. -/
theorem stepLatchesOnlyLegalBytes : Obligations.StepLatchesOnlyLegalBytes := by
  intro s t hinv hboard hstep hs b hmem
  rw [step_cfg hstep]
  obtain ⟨es, hes, hnew⟩ := step_trace hstep
  rw [hes] at hmem
  obtain hold | hmem := List.mem_append.mp hmem
  · exact hs b hold
  obtain hother | ⟨port, ext, i, u, hexec, htrace⟩ := hnew
  · cases hother _ hmem
  · exact exec_latch_legal hexec (hinv.of_other s.claimed s.outPort s.tools s.trace s.faults port s.freeIx ext) hboard
      htrace hmem

/-! ### The books of homing -/

/-- An entry that is neither a homing pass nor a deferred response. -/
def Event.OffTheBooks (e : Event) : Prop := (∀ rate, e.isHomeAt rate = false) ∧ e.isDeferred = false

/-- Entries off the books leave the books as they are, if the sequence in flight stays where it is. -/
theorem HomingBooks.append {s t : State} {es : List Event} (h : HomingBooks s) (hcfg : t.cfg = s.cfg)
    (hpass : t.homing.pass = s.homing.pass) (htrace : t.trace = s.trace ++ es) (hes : ∀ e ∈ es, e.OffTheBooks) :
    HomingBooks t := by
  have hhome : ∀ rate, es.countP (Event.isHomeAt rate) = 0 := fun rate =>
    List.countP_eq_zero.mpr fun e he => by rw [(hes e he).1]; exact Bool.false_ne_true
  have hdeferred : es.countP Event.isDeferred = 0 :=
    List.countP_eq_zero.mpr fun e he => by rw [(hes e he).2]; exact Bool.false_ne_true
  simp only [HomingBooks, hcfg, hpass, htrace, List.countP_append, hhome, hdeferred, Nat.add_zero]
  exact h

/-- The entries of a command other than GOREF are off the books. -/
theorem Entry.offTheBooks {i : Instr} {s : State} {e : Event} (h : Entry i s e)
    (hi : ∀ axis toMin, i ≠ .goref axis toMin) : e.OffTheBooks := by
  cases h with
  | home axis toMin he => exact absurd he (hi axis toMin)
  | emission b _ hmem => obtain rfl | rfl | rfl | rfl := mem_emission hmem <;> exact ⟨fun _ => rfl, rfl⟩
  | request r hr =>
    cases r with
    | home | moveRel3 => cases hr
    | cfgLoad | engInit | engPoll | toolWrGeneric | toolRdGeneric | eventDefault => exact ⟨fun _ => rfl, rfl⟩
  | _ => exact ⟨fun _ => rfl, rfl⟩

/-- Every command keeps the books: an accepted GOREF enters its fast pass, any other enters nothing. -/
theorem exec_homingBooks {i : Instr} {s t : State} (h : exec i s = .next t) (hrates : s.cfg.rateSlow < s.cfg.rateFast)
    (hs : HomingBooks s) : HomingBooks t := by
  have hother : (∀ axis toMin, i ≠ .goref axis toMin) → HomingBooks t := by
    intro hi
    obtain ⟨es, hes, -⟩ := exec_adds i s t h
    refine hs.append (exec_frame h).cfg (congrArg Homing.pass ((exec_frame h).homing hi)) hes fun e he => ?_
    obtain hentry | ⟨st, data, rfl⟩ := exec_entries h hes e he
    · exact hentry.offTheBooks hi
    · exact ⟨fun _ => rfl, rfl⟩
  cases runs_of_exec h with
  | goref axis toMin _ hidle =>
    simp [HomingBooks, List.countP_append, Event.isHomeAt, Event.isDeferred, hrates.ne', hidle] at hs ⊢
    omega
  | gorefRefused => exact hs.append rfl rfl rfl (List.forall_mem_singleton.mpr ⟨fun _ => rfl, rfl⟩)
  | _ => exact hother nofun

/-- A report keeps the books: a slow pass is entered for the sequence that leaves its fast pass, a deferred response for the
sequence that ends. -/
theorem homeDone_homingBooks (ok : Bool) {s : State} (hrates : s.cfg.rateSlow < s.cfg.rateFast) (hs : HomingBooks s) :
    HomingBooks (homeDone ok s) := by
  cases hp : s.homing.pass with
  | idle =>
    rw [homeDone_of_idle ok hp]
    exact hs.append rfl rfl rfl (List.forall_mem_singleton.mpr ⟨fun _ => rfl, rfl⟩)
  | slow =>
    rw [homeDone_of_slow ok hp]
    simp [HomingBooks, endHoming, respondDeferred, List.countP_append, Event.isHomeAt, Event.isDeferred, hp] at hs ⊢
    omega
  | fast =>
    cases ok with
    | true =>
      rw [homeDone_true_of_fast hp]
      simp [HomingBooks, List.countP_append, Event.isHomeAt, Event.isDeferred, hrates.ne, hp] at hs ⊢
      omega
    | false =>
      rw [homeDone_false_of_fast hp]
      simp [HomingBooks, endHoming, respondDeferred, List.countP_append, Event.isHomeAt, Event.isDeferred, hp] at hs ⊢
      omega

/-- Settles O48: whatever the step did short of a reset, the books stay straight. -/
theorem stepKeepsTheHomingBooks : Obligations.StepKeepsTheHomingBooks := by
  intro s t hrates hrst hstep hs
  obtain ⟨u, rfl, hu⟩ := step_cases hstep
  have hbooks : HomingBooks u := by
    obtain ⟨hrst', -⟩ | rfl | ⟨c, a, rest, -, rfl⟩ | ⟨ok, rest, -, rfl⟩ | ⟨port, e, -, rfl⟩ | ⟨port, e, i, -, hexec⟩ := hu
    · rw [hrst] at hrst'; cases hrst'
    · exact hs
    · exact hs.append rfl rfl rfl (List.forall_mem_cons.mpr
        ⟨⟨fun _ => rfl, rfl⟩, List.forall_mem_singleton.mpr ⟨fun _ => rfl, rfl⟩⟩)
    · exact homeDone_homingBooks ok hrates hs
    · exact hs.append rfl rfl rfl (List.forall_mem_singleton.mpr ⟨fun _ => rfl, rfl⟩)
    · exact exec_homingBooks hexec hrates hs
  obtain ⟨e, he⟩ := arrive_eq u
  rw [he]
  exact hbooks

/-- Settles O4: the trace is empty and no sequence is in flight. -/
theorem resetStartsTheRunningClaims : Obligations.ResetStartsTheRunningClaims := fun _ _ _ =>
  ⟨fun _ h => absurd h List.not_mem_nil, fun _ _ _ _ h => absurd h List.not_mem_nil, rfl, le_rfl⟩

end Sys2Proof.Machine
end

section
/-! PROOFS. Statements that compare two runs of a command: with other values of the mode and the diagnostics (60_exceptions.md
R262), on the other port (30_encoding.md R111), and with other bytes in the Mid rows of a reduced build (00_scope.md V4). Each
operation a command is made of gives the same with the change before it as with the change after it. -/

namespace Sys2Proof.Machine

/-! ### Other values of the mode -/

/-- The state with other values of the mode and the diagnostics. -/
def withMode (mode : CtlMode) (hold kill : Bool) (s : State) : State :=
  { s with ctl := mode, diagHold := hold, diagKill := kill }

section
variable (mode : CtlMode) (hold kill : Bool) (s : State)

/-- The initialisation does not read the mode. -/
theorem initSequencer_withMode : initSequencer (withMode mode hold kill s) = withMode mode hold kill (initSequencer s) := by
  cases h : s.cfg.initSpuriousLatch <;> simp [initSequencer, spuriousLatch, withMode, State.log, latch, h]

/-- An emission does not read the mode. -/
theorem emit_withMode (a : Nat) : emit a (withMode mode hold kill s) = withMode mode hold kill (emit a s) := by
  rw [emit_eq, emit_eq]; rfl

/-- Writing an axis does not read the mode. -/
theorem setAxis_withMode (a : Nat) (r : AxisRegs) :
    (withMode mode hold kill s).setAxis a r = withMode mode hold kill (s.setAxis a r) := rfl

/-- One axis of STEP does not read the mode. -/
theorem stepAxis_withMode (count : Vector Byte 8) (dirMask : Byte) (a : Nat) :
    stepAxis count dirMask (withMode mode hold kill s) a = withMode mode hold kill (stepAxis count dirMask s a) := by
  simp only [stepAxis]
  split_ifs
  · rfl
  · rw [State.setPhase, setAxis_withMode, emit_withMode]; rfl

/-- The loop of STEP does not read the mode. -/
theorem stepAxes_withMode (count : Vector Byte 8) (dirMask : Byte) :
    stepAxes count dirMask (withMode mode hold kill s) = withMode mode hold kill (stepAxes count dirMask s) :=
  List.foldl_hom (withMode mode hold kill) fun u a => stepAxis_withMode mode hold kill u count dirMask a

end

/-- A command that does not use the mode does the same with any other values of it. -/
theorem Runs.withMode {i : Instr} {s t : State} (h : Runs s i t) (hi : i.usesMode = false) (mode : CtlMode)
    (hold kill : Bool) : Runs (withMode mode hold kill s) i (withMode mode hold kill t) := by
  cases h with
  | supinit | poll | iskilled | event => cases hi
  | init =>
    have hrun := Runs.init (s := Machine.withMode mode hold kill s)
    rwa [initSequencer_withMode] at hrun
  | shutdown => exact .shutdown
  | stepFault count dirMask hrel hcount => exact .stepFault count dirMask hrel hcount
  | step count dirMask hok =>
    have hrun := Runs.step (s := Machine.withMode mode hold kill s) count dirMask hok
    rwa [stepAxes_withMode] at hrun
  | setlevelOut axis levelReq force haxis => exact .setlevelOut axis levelReq force haxis
  | setlevelFault axis levelReq haxis hrel => exact .setlevelFault axis levelReq haxis hrel
  | setlevelQuiet axis levelReq haxis => exact .setlevelQuiet axis levelReq haxis
  | setlevelForced axis levelReq haxis hclaimed =>
    have hrun := Runs.setlevelForced (s := Machine.withMode mode hold kill s) axis levelReq haxis hclaimed
    rwa [State.setLevel, setAxis_withMode, emit_withMode] at hrun
  | getlevel axis => exact .getlevel axis
  | isref => exact .isref
  | moveawayRefused axis dist maxRate hdist => exact .moveawayRefused axis dist maxRate hdist
  | moveaway axis dist maxRate hdist => exact .moveaway axis dist maxRate hdist
  | setmodeOut axis half haxis => exact .setmodeOut axis half haxis
  | setmode axis half haxis => exact .setmode axis half haxis
  | toolwr tl levelReq => exact .toolwr tl levelReq
  | toolwrOther tool levelReq hcode => exact .toolwrOther tool levelReq hcode
  | toolrdProbe => exact .toolrdProbe
  | toolrdRegister tl hprobe => exact .toolrdRegister tl hprobe
  | toolrdAnswered tool a rest hcode hans => exact .toolrdAnswered tool a rest hcode hans
  | toolrdWaits tool hcode hans => exact .toolrdWaits tool hcode hans
  | gorefRefused axis toMin hbad => exact .gorefRefused axis toMin hbad
  | goref axis toMin haxis hidle => exact .goref axis toMin haxis hidle

/-- Settles O41: the frame of the command, and the same run with other values of the mode. -/
theorem modeGatesNothing : Obligations.ModeGatesNothing := by
  intro i s t mode hold kill hi h
  obtain ⟨hctl, hhold, hkill⟩ := (exec_frame h).mode hi
  exact ⟨hctl, hhold, hkill, ((runs_of_exec h).withMode hi mode hold kill).exec_eq⟩

/-! ### The other port -/

/-- The state with another port for the running command. -/
def withPort (p : CmdPort) (s : State) : State := { s with curPort := p }

section
variable (p : CmdPort) (s : State)

/-- The initialisation does not read the port. -/
theorem initSequencer_withPort : initSequencer (withPort p s) = withPort p (initSequencer s) := by
  cases h : s.cfg.initSpuriousLatch <;> simp [initSequencer, spuriousLatch, withPort, State.log, latch, h]

/-- An emission does not read the port. -/
theorem emit_withPort (a : Nat) : emit a (withPort p s) = withPort p (emit a s) := by
  rw [emit_eq, emit_eq]; rfl

/-- Writing an axis does not read the port. -/
theorem setAxis_withPort (a : Nat) (r : AxisRegs) : (withPort p s).setAxis a r = withPort p (s.setAxis a r) := rfl

/-- One axis of STEP does not read the port. -/
theorem stepAxis_withPort (count : Vector Byte 8) (dirMask : Byte) (a : Nat) :
    stepAxis count dirMask (withPort p s) a = withPort p (stepAxis count dirMask s a) := by
  simp only [stepAxis]
  split_ifs
  · rfl
  · rw [State.setPhase, setAxis_withPort, emit_withPort]; rfl

/-- The loop of STEP does not read the port. -/
theorem stepAxes_withPort (count : Vector Byte 8) (dirMask : Byte) :
    stepAxes count dirMask (withPort p s) = withPort p (stepAxes count dirMask s) :=
  List.foldl_hom (withPort p) fun u a => stepAxis_withPort p u count dirMask a

/-- The kill sample does not read the port. -/
theorem sampleKill_withPort (hook : Bool) : sampleKill hook (withPort p s) = withPort p (sampleKill hook s) := by
  rw [sampleKill_eq_ite, sampleKill_eq_ite]; rfl

/-- The transitions of POLL do not read the port. -/
theorem holdResumeTransition_withPort : holdResumeTransition (withPort p s) = withPort p (holdResumeTransition s) := by
  have hctl : (withPort p s).ctl = s.ctl := rfl
  have hr : resumeActive (withPort p s) = resumeActive s := rfl
  have hh : holdActive (withPort p s) = holdActive s := rfl
  simp only [holdResumeTransition, hctl, hr, hh]
  split_ifs <;> rfl

/-- The samples of POLL do not read the port. -/
theorem pollSampled_withPort : pollSampled (withPort p s) = withPort p (pollSampled s) := by
  have hlog : (withPort p s).log [.engReq .engPoll] = withPort p (s.log [.engReq .engPoll]) := rfl
  rw [pollSampled, hlog, sampleKill_withPort]; rfl

end

/-- The next state `t'` is `t` but for the port of the command, the trace, and the port that a homing sequence or a waiting call
keeps. -/
def DiffersByPort (p : CmdPort) (t t' : State) : Prop :=
  t' = { t with
    curPort := p, trace := t'.trace, homing := { t.homing with port := t'.homing.port },
    call := t.call.map fun c => { c with port := (t'.call.getD c).port } }

/-- A call with its own port is itself. -/
theorem map_port_self (call : Option Call) : (call.map fun c => { c with port := (call.getD c).port }) = call := by
  cases call <;> rfl

/-- States that differ by the port of the command, the trace and the port of the homing record. -/
theorem differsByPort_of_homing (p q : CmdPort) (t : State) (tr : List Event) :
    DiffersByPort p t { withPort p t with trace := tr, homing := { t.homing with port := q } } := by
  simp only [DiffersByPort, withPort, map_port_self]

/-- States that differ by the port of the command and the trace alone. -/
theorem differsByPort_of_trace (p : CmdPort) (t : State) (tr : List Event) :
    DiffersByPort p t { withPort p t with trace := tr } := differsByPort_of_homing p t.homing.port t tr

/-- The same command on another port differs by the port alone. -/
theorem Runs.withPort {i : Instr} {s t : State} (h : Runs s i t) (p : CmdPort) :
    ∃ t', Runs (withPort p s) i t' ∧ DiffersByPort p t t' := by
  cases h with
  | init =>
    have hrun := Runs.init (s := Machine.withPort p s)
    rw [initSequencer_withPort] at hrun
    exact ⟨_, hrun, differsByPort_of_trace p _ _⟩
  | supinit =>
    have hrun := Runs.supinit (s := Machine.withPort p s)
    have hlog : (Machine.withPort p s).log [.engReq .cfgLoad] = Machine.withPort p (s.log [.engReq .cfgLoad]) := rfl
    rw [hlog, initSequencer_withPort] at hrun
    exact ⟨_, hrun, differsByPort_of_trace p _ _⟩
  | shutdown => exact ⟨_, .shutdown, differsByPort_of_trace p _ _⟩
  | stepFault count dirMask hrel hcount => exact ⟨_, .stepFault count dirMask hrel hcount, differsByPort_of_trace p _ _⟩
  | step count dirMask hok =>
    have hrun := Runs.step (s := Machine.withPort p s) count dirMask hok
    rw [stepAxes_withPort] at hrun
    exact ⟨_, hrun, differsByPort_of_trace p _ _⟩
  | setlevelOut axis levelReq force haxis =>
    exact ⟨_, .setlevelOut axis levelReq force haxis, differsByPort_of_trace p _ _⟩
  | setlevelFault axis levelReq haxis hrel =>
    exact ⟨_, .setlevelFault axis levelReq haxis hrel, differsByPort_of_trace p _ _⟩
  | setlevelQuiet axis levelReq haxis =>
    exact ⟨_, .setlevelQuiet axis levelReq haxis, differsByPort_of_trace p _ _⟩
  | setlevelForced axis levelReq haxis hclaimed =>
    have hrun := Runs.setlevelForced (s := Machine.withPort p s) axis levelReq haxis hclaimed
    rw [State.setLevel, setAxis_withPort, emit_withPort] at hrun
    exact ⟨_, hrun, differsByPort_of_trace p _ _⟩
  | getlevel axis => exact ⟨_, .getlevel axis, differsByPort_of_trace p _ _⟩
  | isref => exact ⟨_, .isref, differsByPort_of_trace p _ _⟩
  | moveawayRefused axis dist maxRate hdist =>
    exact ⟨_, .moveawayRefused axis dist maxRate hdist, differsByPort_of_trace p _ _⟩
  | moveaway axis dist maxRate hdist => exact ⟨_, .moveaway axis dist maxRate hdist, differsByPort_of_trace p _ _⟩
  | setmodeOut axis half haxis => exact ⟨_, .setmodeOut axis half haxis, differsByPort_of_trace p _ _⟩
  | setmode axis half haxis => exact ⟨_, .setmode axis half haxis, differsByPort_of_trace p _ _⟩
  | poll =>
    have hrun := Runs.poll (s := Machine.withPort p s)
    rw [pollSampled_withPort, holdResumeTransition_withPort] at hrun
    exact ⟨_, hrun, differsByPort_of_trace p _ _⟩
  | iskilled =>
    have hrun := Runs.iskilled (s := Machine.withPort p s)
    rw [sampleKill_withPort] at hrun
    exact ⟨_, hrun, differsByPort_of_trace p _ _⟩
  | event etype info =>
    have hrun := Runs.event (s := Machine.withPort p s) etype info
    rw [sampleKill_withPort] at hrun
    exact ⟨_, hrun, differsByPort_of_trace p _ _⟩
  | toolwr tl levelReq => exact ⟨_, .toolwr tl levelReq, differsByPort_of_trace p _ _⟩
  | toolwrOther tool levelReq hcode => exact ⟨_, .toolwrOther tool levelReq hcode, differsByPort_of_trace p _ _⟩
  | toolrdProbe => exact ⟨_, .toolrdProbe, differsByPort_of_trace p _ _⟩
  | toolrdRegister tl hprobe => exact ⟨_, .toolrdRegister tl hprobe, differsByPort_of_trace p _ _⟩
  | toolrdAnswered tool a rest hcode hans =>
    exact ⟨_, .toolrdAnswered tool a rest hcode hans, differsByPort_of_trace p _ _⟩
  | toolrdWaits tool hcode hans => exact ⟨_, .toolrdWaits tool hcode hans, rfl⟩
  | gorefRefused axis toMin hbad => exact ⟨_, .gorefRefused axis toMin hbad, differsByPort_of_trace p _ _⟩
  | goref axis toMin haxis hidle =>
    exact ⟨_, .goref axis toMin haxis hidle, differsByPort_of_homing p p _ _⟩

/-- Settles O53: the run on the other port. -/
theorem portDoesNotChangeTheEffect : Obligations.PortDoesNotChangeTheEffect := by
  intro i s t p h
  obtain ⟨t', hrun, hdiff⟩ := (runs_of_exec h).withPort p
  exact ⟨t', hrun.exec_eq, hdiff⟩

/-! ### Other bytes in the Mid rows -/

/-- The parameters with other bytes in the Mid rows of the two tables. -/
def midCfg (full : Vector Byte 4) (half : Vector Byte 8) (c : Config) : Config :=
  { c with lutFull := { c.lutFull with mid := full }, lutHalf := { c.lutHalf with mid := half } }

/-- The state with other bytes in the Mid rows of the two tables. -/
def withMid (full : Vector Byte 4) (half : Vector Byte 8) (s : State) : State := { s with cfg := midCfg full half s.cfg }

section
variable (full : Vector Byte 4) (half : Vector Byte 8) (s : State)

/-- The table code of a level other than Mid does not read the Mid rows. -/
theorem tableCode_midCfg (c : Config) (m : StepMode) {l : Level} (hl : l ≠ .mid) (i : BitVec 3) :
    (midCfg full half c).tableCode m l i = c.tableCode m l i := by
  cases l with
  | mid => exact absurd rfl hl
  | off | low | max => cases m <;> rfl

/-- The initialisation does not read the Mid rows. -/
theorem initSequencer_withMid : initSequencer (withMid full half s) = withMid full half (initSequencer s) := by
  cases h : s.cfg.initSpuriousLatch <;>
    simp [initSequencer, spuriousLatch, withMid, midCfg, State.log, latch, chipAfter, Config.addr, Config.axisParam, h]

/-- An emission of an axis that is not at Mid does not read the Mid rows. -/
theorem emit_withMid {a : Nat} (ha : s.level a ≠ .mid) : emit a (withMid full half s) = withMid full half (emit a s) := by
  have hbyte : outByte (withMid full half s) a = outByte s a :=
    congrArg (· + s.cfg.addr a) (tableCode_midCfg full half s.cfg (s.stepMode a) ha (s.phase a))
  rw [emit_eq, emit_eq, hbyte]; rfl

/-- Writing an axis does not read the Mid rows. -/
theorem setAxis_withMid (a : Nat) (r : AxisRegs) :
    (withMid full half s).setAxis a r = withMid full half (s.setAxis a r) := rfl

/-- One axis of STEP changes no level. -/
theorem level_stepAxis (count : Vector Byte 8) (dirMask : Byte) (a b : Nat) :
    (stepAxis count dirMask s a).level b = s.level b := by
  simp only [stepAxis]
  split_ifs
  · rfl
  · rw [level_emit, level_setPhase]

/-- One axis of STEP that is not at Mid does not read the Mid rows. -/
theorem stepAxis_withMid (count : Vector Byte 8) (dirMask : Byte) {a : Nat} (ha : s.level a ≠ .mid) :
    stepAxis count dirMask (withMid full half s) a = withMid full half (stepAxis count dirMask s a) := by
  simp only [stepAxis]
  split_ifs
  · rfl
  · have hlevel : ∀ v, (s.setPhase a v).level a ≠ .mid := fun v => by rwa [level_setPhase]
    rw [← emit_withMid full half _ (hlevel _)]; rfl

/-- The loop of STEP over axes that are not at Mid does not read the Mid rows. -/
theorem stepAxes_withMid (count : Vector Byte 8) (dirMask : Byte) (hs : ∀ a < s.cfg.naxis, s.level a ≠ .mid) :
    stepAxes count dirMask (withMid full half s) = withMid full half (stepAxes count dirMask s) := by
  have hfold : ∀ (l : List Nat) (u : State), (∀ a ∈ l, u.level a ≠ .mid) →
      l.foldl (stepAxis count dirMask) (withMid full half u) = withMid full half (l.foldl (stepAxis count dirMask) u) := by
    intro l
    induction l with
    | nil => exact fun _ _ => rfl
    | cons a l ih =>
      intro u hu
      obtain ⟨ha, hrest⟩ := List.forall_mem_cons.mp hu
      rw [List.foldl_cons, stepAxis_withMid full half u count dirMask ha]
      exact ih _ fun b hb => by rw [level_stepAxis]; exact hrest b hb
  exact hfold _ s fun a ha => hs a (List.mem_range.mp ha)

/-- The kill sample does not read the Mid rows. -/
theorem sampleKill_withMid (hook : Bool) : sampleKill hook (withMid full half s) = withMid full half (sampleKill hook s) := by
  rw [sampleKill_eq_ite, sampleKill_eq_ite]; rfl

/-- The transitions of POLL do not read the Mid rows. -/
theorem holdResumeTransition_withMid :
    holdResumeTransition (withMid full half s) = withMid full half (holdResumeTransition s) := by
  have hctl : (withMid full half s).ctl = s.ctl := rfl
  have hr : resumeActive (withMid full half s) = resumeActive s := rfl
  have hh : holdActive (withMid full half s) = holdActive s := rfl
  simp only [holdResumeTransition, hctl, hr, hh]
  split_ifs <;> rfl

/-- The samples of POLL do not read the Mid rows. -/
theorem pollSampled_withMid : pollSampled (withMid full half s) = withMid full half (pollSampled s) := by
  have hlog : (withMid full half s).log [.engReq .engPoll] = withMid full half (s.log [.engReq .engPoll]) := rfl
  rw [pollSampled, hlog, sampleKill_withMid]; rfl

end

/-- In a reduced build with no axis at Mid, a command does the same with other bytes in the Mid rows. -/
theorem Runs.withMid {i : Instr} {s t : State} (h : Runs s i t) (hlen : s.axes.length = s.cfg.naxis)
    (hreduced : s.cfg.reduced = true) (hs : ∀ a < s.cfg.naxis, s.level a ≠ .mid) (full : Vector Byte 4)
    (half : Vector Byte 8) : Runs (withMid full half s) i (withMid full half t) := by
  cases h with
  | init =>
    have hrun := Runs.init (s := Machine.withMid full half s)
    rwa [initSequencer_withMid] at hrun
  | supinit =>
    have hrun := Runs.supinit (s := Machine.withMid full half s)
    have hlog : (Machine.withMid full half s).log [.engReq .cfgLoad] =
      Machine.withMid full half (s.log [.engReq .cfgLoad]) := rfl
    rwa [hlog, initSequencer_withMid] at hrun
  | shutdown => exact .shutdown
  | stepFault count dirMask hrel hcount => exact .stepFault count dirMask hrel hcount
  | step count dirMask hok =>
    have hrun := Runs.step (s := Machine.withMid full half s) count dirMask hok
    rwa [stepAxes_withMid full half s count dirMask hs] at hrun
  | setlevelOut axis levelReq force haxis => exact .setlevelOut axis levelReq force haxis
  | setlevelFault axis levelReq haxis hrel => exact .setlevelFault axis levelReq haxis hrel
  | setlevelQuiet axis levelReq haxis => exact .setlevelQuiet axis levelReq haxis
  | setlevelForced axis levelReq haxis hclaimed =>
    have hlevel : (s.setLevel axis.toNat (quantize s.cfg.reduced levelReq)).level axis.toNat ≠ .mid := by
      rw [level_setLevel, if_pos ⟨rfl, hlen ▸ haxis⟩]
      exact (Config.mem_levels s.cfg _).mp (quantize_mem_levels s.cfg levelReq) hreduced
    have hset : (Machine.withMid full half s).setLevel axis.toNat (quantize s.cfg.reduced levelReq) =
      Machine.withMid full half (s.setLevel axis.toNat (quantize s.cfg.reduced levelReq)) := setAxis_withMid ..
    have hrun := Runs.setlevelForced (s := Machine.withMid full half s) axis levelReq haxis hclaimed
    have hcfg : (Machine.withMid full half s).cfg.reduced = s.cfg.reduced := rfl
    rwa [hcfg, hset, emit_withMid full half _ hlevel] at hrun
  | getlevel axis => exact .getlevel axis
  | isref => exact .isref
  | moveawayRefused axis dist maxRate hdist => exact .moveawayRefused axis dist maxRate hdist
  | moveaway axis dist maxRate hdist => exact .moveaway axis dist maxRate hdist
  | setmodeOut axis half' haxis => exact .setmodeOut axis half' haxis
  | setmode axis half' haxis => exact .setmode axis half' haxis
  | poll =>
    have hrun := Runs.poll (s := Machine.withMid full half s)
    rwa [pollSampled_withMid, holdResumeTransition_withMid] at hrun
  | iskilled =>
    have hrun := Runs.iskilled (s := Machine.withMid full half s)
    rwa [sampleKill_withMid] at hrun
  | event etype info =>
    have hrun := Runs.event (s := Machine.withMid full half s) etype info
    rwa [sampleKill_withMid] at hrun
  | toolwr tl levelReq => exact .toolwr tl levelReq
  | toolwrOther tool levelReq hcode => exact .toolwrOther tool levelReq hcode
  | toolrdProbe => exact .toolrdProbe
  | toolrdRegister tl hprobe => exact .toolrdRegister tl hprobe
  | toolrdAnswered tool a rest hcode hans => exact .toolrdAnswered tool a rest hcode hans
  | toolrdWaits tool hcode hans => exact .toolrdWaits tool hcode hans
  | gorefRefused axis toMin hbad => exact .gorefRefused axis toMin hbad
  | goref axis toMin haxis hidle => exact .goref axis toMin haxis hidle

/-- Settles O52: no axis of a reduced build is at Mid, so no emission reads the Mid rows, and nothing else reads a table. -/
theorem reducedBuildNeverReadsTheMidRows : Obligations.ReducedBuildNeverReadsTheMidRows := by
  intro i s t full half hinv hreduced h cfg'
  have hrun := ((runs_of_exec h).withMid hinv.axesLength hreduced (hinv.noMid hreduced) full half).exec_eq
  have hcfg : midCfg full half t.cfg = cfg' := congrArg (midCfg full half) (exec_frame h).cfg
  rw [Machine.withMid, Machine.withMid, hcfg] at hrun
  exact hrun

end Sys2Proof.Machine
end
